-- ==== Sys2Proof/Word.lean ====
section
/-! DEFINITION. The value types of JLS-EC: samples, bytes, 32-bit context fields, and bit sequences in stream order
(spec/00_scope.md R10, R12). -/

namespace Sys2Proof

/-- One byte of the compressed stream (R68: `SinkAppend` and `InByte` move 8 bits). -/
abbrev Byte := BitVec 8

/-- One image sample: a 16-bit unsigned integer (R12, R64). -/
abbrev Sample := BitVec 16

/-- A 32-bit two's complement context field: A, B, N, Nn, resetThreshold (R12, R25, R28). -/
abbrev Word32 := BitVec 32

/-- A bit sequence in stream order, first bit at the head of the list (R10). -/
abbrev Bits := List Bool

/-- The value set of the register SIGN and of `sg`: -1 or +1 (R14, R24, 90_conflicts.md C2). -/
inductive Sign where
  | plus
  | minus
  deriving DecidableEq, Repr

/-- The integer a sign stands for. -/
def Sign.toInt : Sign → Int
  | .plus => 1
  | .minus => -1

end Sys2Proof
end

