-- ==== Sys2Proof/Config.lean ====
section
/-! DEFINITION. The constants of the fixed profile (spec/00_scope.md R7, R8) and the two free values.
R8 asks that a model take them as named configuration so that a claim can name them. -/

namespace Sys2Proof.Config

/-- `BPP`, bits per sample (R7). -/
def bpp : Nat := 16
/-- `QBPP`, width of the raw value of an escape codeword (R7, D36). -/
def qbpp : Nat := 16
/-- `MAXVAL`, the largest sample (R7). -/
def maxval : Int := 65535
/-- `RANGE` (R8, GK1). -/
def range : Int := 65536
/-- `NEAR`, the constant 0 (R7, R254). -/
def near : Int := 0
/-- `RESET`, the halving threshold of N (R7). -/
def reset : Int := 64
/-- `LIMIT`, the codeword length bound of regular mode (R7). -/
def limit : Nat := 64
/-- `NCTX`, entries of the regular context file (R7). -/
abbrev nctx : Nat := 365
/-- `NRI`, entries of the run-interruption context file (R7). -/
abbrev nri : Nat := 2
/-- `RUNINDEX_MAX` (R7). -/
def runIndexMax : Nat := 31
/-- `C_MIN` (R7). -/
def cMin : Int := -128
/-- `C_MAX` (R7). -/
def cMax : Int := 127
/-- `BASIC_T1` (R7). -/
def basicT1 : Int := 3
/-- `BASIC_T2` (R7). -/
def basicT2 : Int := 7
/-- `BASIC_T3` (R7). -/
def basicT3 : Int := 21
/-- `FACTOR = (4095+128)/256` by integer division, 16 (R8, D7). -/
def factor : Int := (4095 + 128) / 256
/-- `T1 = FACTOR*(BASIC_T1−2)+2` = 18 (R8, R140). -/
def t1 : Int := factor * (basicT1 - 2) + 2
/-- `T2 = FACTOR*(BASIC_T2−3)+3` = 67 (R8, R140, GK2). -/
def t2 : Int := factor * (basicT2 - 3) + 3
/-- `T3 = FACTOR*(BASIC_T3−4)+4` = 276 (R8, R140, GK2). -/
def t3 : Int := factor * (basicT3 - 4) + 4
/-- `A_INIT = max(2, (RANGE+32)/64)` by integer division, 1024 (R8, R160, D6). -/
def aInit : Int := max 2 ((range + 32) / 64)
/-- `RI_RESET`, the resetThreshold of both run-interruption contexts (R8, D14). -/
def riReset : Int := 64
/-- `UNARY_STOP`, the bit that ends a unary code: 1 (R8, D5, 90_conflicts.md C1). -/
def unaryStop : Bool := true
/-- `WBIN_MAX`, the largest bit count of `BW.WRITEBIN` and `BR.READBIN` (R8, D20). -/
def wbinMax : Nat := 32
/-- The constant table `J[0..31]` (R8, R34, GK4, D10). -/
def J : Vector Nat 32 :=
  #v[0, 0, 0, 0, 1, 1, 1, 1, 2, 2, 2, 2, 3, 3, 3, 3, 4, 4, 5, 5, 6, 6, 7, 7, 8, 9, 10, 11, 12, 13, 14, 15]

/-- FREE VALUE: what a 32-bit counter N or Nn holds after a store of an integer outside the 32-bit signed range.
The spec types the fields `i32`, raises ContextOverflow for A and B only (R12, R233) and states no result for N and
Nn; no run reaches such a store (R27, R29). No body: nothing about its values can be proved. -/
opaque freeCounter : Int → Word32

/-- FREE VALUE: the bits `ENC.RIPIXEL` writes for a negative mapped value, of its Golomb parameter, mapped value and
limit. R175's formula gives M = −1 for a sample that did not interrupt the run (x = Ra = Rb), and R180 states a codeword
for m >= 0 only; no scan reaches it (R175, R195). DESIGN CHOICE (notes/assumptions/16.md). No body: nothing about its
values can be proved. -/
opaque freeCodeword : Nat → Int → Nat → Bits

end Sys2Proof.Config
end

