-- ==== Sys2Proof/Syntax.lean ====
section
/-! DEFINITION. The instructions of JLS-EC: one constructor per row of spec/opcode_table.json (R6, R105).
An instruction of this fixed-function block is a byte format, a codeword of the entropy-coded stream, or a named
operation. An operand the rule ranges over all integers is an `Int`; one whose range is a type carries it. -/

namespace Sys2Proof

inductive Instr where
  /-- `B8`: eight stream bits in one byte (R91). -/
  | b8 (s : BitVec 8)
  /-- `B7`: the stuffed 0 and seven stream bits (R91). -/
  | b7 (s : BitVec 7)
  /-- `GR`: short-form Golomb-Rice codeword, `h` zeros, a one, `low` in `k` bits (R95). -/
  | gr (k limit h low : Nat)
  /-- `ESC`: escape codeword, `v` = m − 1 in 16 bits after `limit − 17` zeros and a one (R96). -/
  | esc (limit : Nat) (v : BitVec 16)
  /-- `RUNHIT`: the bit 1 (R97). -/
  | runhit
  /-- `RUNTERM`: the bit 0 and the remainder `r` in `j` bits (R98). -/
  | runterm (j r : Nat)
  /-- `BW.WRITEBIT b` (R120). -/
  | bwWritebit (b : Bool)
  /-- `BW.WRITEBIN v, n` (R121). -/
  | bwWritebin (v n : Nat)
  /-- `BW.WRITEUNARY n` (R122). -/
  | bwWriteunary (n : Nat)
  /-- `BW.DRAIN` (R123). -/
  | bwDrain
  /-- `BW.FLUSH` (R124). -/
  | bwFlush
  /-- `BR.READBIT` (R125). -/
  | brReadbit
  /-- `BR.READBIN n` (R126). -/
  | brReadbin (n : Nat)
  /-- `BR.READUNARY` (R127). -/
  | brReadunary
  /-- `QUANT d` (R141). -/
  | quant (d : Int)
  /-- `CTXID Ra, Rb, Rc, Rd` (R143). -/
  | ctxid (ra rb rc rd : Sample)
  /-- `CTXSEL Q` (R144). -/
  | ctxsel (q : Int)
  /-- `PREDICT Ra, Rb, Rc` (R150). -/
  | predict (ra rb rc : Sample)
  /-- `CORRPRED p, C, SIGN` (R151). -/
  | corrpred (p : Sample) (c : BitVec 8) (sign : Sign)
  /-- `MODRANGE d` (R152). -/
  | modrange (d : Int)
  /-- `ERRVAL x, PX, SIGN` (R153). -/
  | errval (x px : Sample) (sign : Sign)
  /-- `RECON PX, e, SIGN` (R154). -/
  | recon (px : Sample) (e : Int) (sign : Sign)
  /-- `RC.INIT` (R160). -/
  | rcInit
  /-- `RC.GETK i` (R161). -/
  | rcGetk (i : Fin Config.nctx)
  /-- `RC.GETCORR i, k` (R162). -/
  | rcGetcorr (i : Fin Config.nctx) (k : Nat)
  /-- `MAPERR e` (R163). -/
  | maperr (e : Int)
  /-- `UNMAPERR m` (R164). -/
  | unmaperr (m : Nat)
  /-- `RC.UPDATE i, e` (R165). -/
  | rcUpdate (i : Fin Config.nctx) (e : Int)
  /-- `RI.INIT` (R170). -/
  | riInit
  /-- `RI.SELECT Ra, Rb` (R171). -/
  | riSelect (ra rb : Sample)
  /-- `RI.ERRVAL x, Ra, Rb` (R172). -/
  | riErrval (x ra rb : Sample)
  /-- `RI.GETK t` (R173). -/
  | riGetk (t : Fin Config.nri)
  /-- `RI.MAP t, e, k` (R174). -/
  | riMap (t : Fin Config.nri) (e : Int) (k : Nat)
  /-- `RI.EMERR t, e, k` (R175). -/
  | riEmerr (t : Fin Config.nri) (e : Int) (k : Nat)
  /-- `RI.UNMAP t, EM, k` (R176). -/
  | riUnmap (t : Fin Config.nri) (em k : Nat)
  /-- `RI.UPDATE t, e, EM` (R177). -/
  | riUpdate (t : Fin Config.nri) (e : Int) (em : Nat)
  /-- `RI.RECON Ra, Rb, e` (R178). -/
  | riRecon (ra rb : Sample) (e : Int)
  /-- `GR.ENC k, m, limit` (R180). -/
  | grEnc (k m limit : Nat)
  /-- `GR.DEC k, limit` (R181). -/
  | grDec (k limit : Nat)
  /-- `SCAN.ENCODE WIDTH, ROWS`, a host command (R190). -/
  | scanEncode (width rows : Nat)
  /-- `SCAN.INIT` (R190, R251). -/
  | scanInit
  /-- `ROW.START` (R191). -/
  | rowStart
  /-- `NBR.FETCH` (R192). -/
  | nbrFetch
  /-- `ENC.STEP` (R193). -/
  | encStep
  /-- `ENC.REGULAR` (R194). -/
  | encRegular
  /-- `ENC.RUN` (R195). -/
  | encRun
  /-- `ENC.RUNLEN r, eol` (R196). -/
  | encRunlen (r : Nat) (eol : Bool)
  /-- `RUNIDX.INC` (R197). -/
  | runidxInc
  /-- `RUNIDX.DEC` (R197). -/
  | runidxDec
  /-- `ENC.RIPIXEL` (R198). -/
  | encRipixel
  /-- `ROW.END` (R199). -/
  | rowEnd
  /-- `ENC.END` (R200). -/
  | encEnd
  /-- `SCAN.DECODE WIDTH, ROWS, SIZE`, a host command (R210). -/
  | scanDecode (width rows size : Nat)
  /-- `DEC.STEP` (R211). -/
  | decStep
  /-- `DEC.RUNLEN rem0` (R212). -/
  | decRunlen (rem0 : Nat)
  /-- `DEC.REGULAR` (R213). -/
  | decRegular
  /-- `DEC.RUN` (R214). -/
  | decRun
  /-- `DEC.RIPIXEL` (R215). -/
  | decRipixel
  /-- `DEC.END` (R216). -/
  | decEnd
  deriving DecidableEq, Repr

/-- The name by which the block's operations are invoked (R105), as spec/opcode_table.json spells it. -/
def Instr.mnemonic : Instr → String
  | .b8 _ => "B8"
  | .b7 _ => "B7"
  | .gr _ _ _ _ => "GR"
  | .esc _ _ => "ESC"
  | .runhit => "RUNHIT"
  | .runterm _ _ => "RUNTERM"
  | .bwWritebit _ => "BW.WRITEBIT"
  | .bwWritebin _ _ => "BW.WRITEBIN"
  | .bwWriteunary _ => "BW.WRITEUNARY"
  | .bwDrain => "BW.DRAIN"
  | .bwFlush => "BW.FLUSH"
  | .brReadbit => "BR.READBIT"
  | .brReadbin _ => "BR.READBIN"
  | .brReadunary => "BR.READUNARY"
  | .quant _ => "QUANT"
  | .ctxid _ _ _ _ => "CTXID"
  | .ctxsel _ => "CTXSEL"
  | .predict _ _ _ => "PREDICT"
  | .corrpred _ _ _ => "CORRPRED"
  | .modrange _ => "MODRANGE"
  | .errval _ _ _ => "ERRVAL"
  | .recon _ _ _ => "RECON"
  | .rcInit => "RC.INIT"
  | .rcGetk _ => "RC.GETK"
  | .rcGetcorr _ _ => "RC.GETCORR"
  | .maperr _ => "MAPERR"
  | .unmaperr _ => "UNMAPERR"
  | .rcUpdate _ _ => "RC.UPDATE"
  | .riInit => "RI.INIT"
  | .riSelect _ _ => "RI.SELECT"
  | .riErrval _ _ _ => "RI.ERRVAL"
  | .riGetk _ => "RI.GETK"
  | .riMap _ _ _ => "RI.MAP"
  | .riEmerr _ _ _ => "RI.EMERR"
  | .riUnmap _ _ _ => "RI.UNMAP"
  | .riUpdate _ _ _ => "RI.UPDATE"
  | .riRecon _ _ _ => "RI.RECON"
  | .grEnc _ _ _ => "GR.ENC"
  | .grDec _ _ => "GR.DEC"
  | .scanEncode _ _ => "SCAN.ENCODE"
  | .scanInit => "SCAN.INIT"
  | .rowStart => "ROW.START"
  | .nbrFetch => "NBR.FETCH"
  | .encStep => "ENC.STEP"
  | .encRegular => "ENC.REGULAR"
  | .encRun => "ENC.RUN"
  | .encRunlen _ _ => "ENC.RUNLEN"
  | .runidxInc => "RUNIDX.INC"
  | .runidxDec => "RUNIDX.DEC"
  | .encRipixel => "ENC.RIPIXEL"
  | .rowEnd => "ROW.END"
  | .encEnd => "ENC.END"
  | .scanDecode _ _ _ => "SCAN.DECODE"
  | .decStep => "DEC.STEP"
  | .decRunlen _ => "DEC.RUNLEN"
  | .decRegular => "DEC.REGULAR"
  | .decRun => "DEC.RUN"
  | .decRipixel => "DEC.RIPIXEL"
  | .decEnd => "DEC.END"

/-- The two operations a host may issue (R239). -/
def Instr.isCommand : Instr → Bool
  | .scanEncode _ _ => true
  | .scanDecode _ _ _ => true
  | _ => false

end Sys2Proof
end

