-- ==== Sys2Proof/WellFormed.lean ====
section
/-! DEFINITION. The operand ranges the rules give each instruction. Ranges that a type already carries
(samples, bytes, context indices) need no check here. -/

namespace Sys2Proof

/-- The values `limit` takes: 64 in regular mode, 63 − J[RUNINDEX] for an interruption sample (R182). -/
def limitOk (limit : Nat) : Bool := 48 ≤ limit && limit ≤ 64

/-- `WIDTH` as a command operand: 1 to 65535 (R9, R21). -/
def widthOk (width : Nat) : Bool := 1 ≤ width && width ≤ 65535

/-- Is every operand in the range its rule gives? DESIGN CHOICE (notes/assumptions/19.md): of the instruction alone, so a
range that depends on the state is checked only as far as no state could widen it; r of `ENC.RUNLEN`, in [0, WIDTH] by
R196, is accepted up to 65535 whatever WIDTH is. DEDUCED (notes/assumptions/20.md): m of `GR.ENC` is accepted without bound. -/
def Instr.wf : Instr → Bool
  | .b8 _ => true
  | .b7 _ => true
  | .gr k limit h low => k ≤ 32 && limitOk limit && h < limit - (Config.qbpp + 1) && low < 2 ^ k
  | .esc limit _ => limitOk limit
  | .runhit => true
  | .runterm j r => j ≤ 15 && r < 2 ^ j
  | .bwWritebit _ => true
  | .bwWritebin _ n => n ≤ Config.wbinMax
  | .bwWriteunary _ => true
  | .bwDrain => true
  | .bwFlush => true
  | .brReadbit => true
  | .brReadbin n => n ≤ Config.wbinMax
  | .brReadunary => true
  | .quant d => -65535 ≤ d && d ≤ 65535
  | .ctxid _ _ _ _ => true
  | .ctxsel q => -364 ≤ q && q ≤ 364
  | .predict _ _ _ => true
  | .corrpred _ _ _ => true
  | .modrange _ => true
  | .errval _ _ _ => true
  | .recon _ _ _ => true
  | .rcInit => true
  | .rcGetk i => 1 ≤ i.val
  | .rcGetcorr i _ => 1 ≤ i.val
  | .maperr _ => true
  | .unmaperr _ => true
  | .rcUpdate i _ => 1 ≤ i.val
  | .riInit => true
  | .riSelect _ _ => true
  | .riErrval _ _ _ => true
  | .riGetk _ => true
  | .riMap _ _ _ => true
  | .riEmerr _ _ _ => true
  | .riUnmap _ _ _ => true
  | .riUpdate _ _ _ => true
  | .riRecon _ _ _ => true
  | .grEnc k _ limit => k ≤ 32 && limitOk limit
  | .grDec k limit => k ≤ 32 && limitOk limit
  | .scanEncode width _ => widthOk width
  | .scanInit => true
  | .rowStart => true
  | .nbrFetch => true
  | .encStep => true
  | .encRegular => true
  | .encRun => true
  | .encRunlen r eol => r ≤ 65535 && (!eol || 1 ≤ r)
  | .runidxInc => true
  | .runidxDec => true
  | .encRipixel => true
  | .rowEnd => true
  | .encEnd => true
  | .scanDecode width _ _ => widthOk width
  | .decStep => true
  | .decRunlen rem0 => 1 ≤ rem0 && rem0 ≤ 65535
  | .decRegular => true
  | .decRun => true
  | .decRipixel => true
  | .decEnd => true

end Sys2Proof
end

