-- ==== Sys2Proof/Decode.lean ====
section
/-! DEFINITION. The encodings the spec gives (spec/30_encoding.md): the byte formats B8 and B7 and the codewords GR, ESC,
RUNHIT and RUNTERM, decoded and encoded, and the stuffing function (R128). Operations have no bit pattern (R6, R108): the
decoder never answers one and the encoder gives them none. Which codeword comes next, and its parameters, is a function
of state both sides hold (R100): the decoder takes that as its context. -/

namespace Sys2Proof

/-- `bits_n(v)` of the low n bits of v, most significant first (R10, R94). -/
def bitsOf : Nat → Nat → Bits
  | 0, _ => []
  | n + 1, v => v.testBit n :: bitsOf n v

/-- `val(s)`: the unsigned integer whose binary digits are s, first bit most significant (40_bitio.md). -/
def valOf (s : Bits) : Nat := s.foldl (fun v b => 2 * v + b.toNat) 0

/-- `U(n)`: n bits of value 1 − UNARY_STOP, then UNARY_STOP (R93). -/
def unary (n : Nat) : Bits := List.replicate n (!Config.unaryStop) ++ [Config.unaryStop]

/-- `T = limit − (QBPP + 1)` (R95). -/
def escThreshold (limit : Nat) : Nat := limit - (Config.qbpp + 1)

/-- What both sides know before the next encoding is read (R91, R100): whether the previous byte was 0xFF; or that a
Golomb-Rice codeword follows, with its k and limit; or that a run codeword follows, with j = J[RUNINDEX]. -/
inductive Expect where
  | byte (ffpend : Bool)
  | golomb (k limit : Nat)
  | run (j : Nat)
  deriving DecidableEq, Repr

/-- Why bits do not decode: the only reason is that they end inside the encoding (R103: every other pattern has a
treatment). -/
inductive DecodeError where
  | endOfStream
  deriving DecidableEq, Repr

/-- Take the first n bits, or refuse when there are fewer. -/
def takeBits (n : Nat) (s : Bits) : Except DecodeError (Bits × Bits) :=
  if s.length < n then .error .endOfStream else .ok (s.take n, s.drop n)

/-- Count the bits before the first UNARY_STOP, which is consumed (R101). -/
def takeUnary : Bits → Except DecodeError (Nat × Bits)
  | [] => .error .endOfStream
  | b :: s =>
    if b = Config.unaryStop then .ok (0, s)
    else
      match takeUnary s with
      | .ok (n, rest) => .ok (n + 1, rest)
      | .error e => .error e

/-- A byte in the format its predecessor selects (R91). Bit 7 of a `B7` byte is dropped without being looked at
(R103, D23), so 0xFF after 0xFF is `B7` 0x7F, as an instruction no longer known as a 0xFF (DESIGN CHOICE,
notes/assumptions/17.md). -/
def decodeByte (ffpend : Bool) (s : Bits) : Except DecodeError (Instr × Bits) :=
  match takeBits 8 s with
  | .ok (b, rest) => .ok (if ffpend then .b7 (.ofNat 7 (valOf (b.drop 1))) else .b8 (.ofNat 8 (valOf b)), rest)
  | .error e => .error e

/-- `GR` or `ESC`, told apart by the length of the unary prefix; h > T is still `ESC` (R101, D26). -/
def decodeGolomb (k limit : Nat) (s : Bits) : Except DecodeError (Instr × Bits) :=
  match takeUnary s with
  | .ok (h, rest) =>
    if h < escThreshold limit then
      match takeBits k rest with
      | .ok (l, rest) => .ok (.gr k limit h (valOf l), rest)
      | .error e => .error e
    else
      match takeBits Config.qbpp rest with
      | .ok (v, rest) => .ok (.esc limit (.ofNat 16 (valOf v)), rest)
      | .error e => .error e
  | .error e => .error e

/-- `RUNHIT` or `RUNTERM`: one bit decides; after a 0, j more bits follow (R97, R98, R101). -/
def decodeRun (j : Nat) (s : Bits) : Except DecodeError (Instr × Bits) :=
  match s with
  | [] => .error .endOfStream
  | true :: rest => .ok (.runhit, rest)
  | false :: rest =>
    match takeBits j rest with
    | .ok (r, rest) => .ok (.runterm j (valOf r), rest)
    | .error e => .error e

/-- The decoder: total on any bits, it answers the instruction and the bits after it, or says why not. -/
def decode : Expect → Bits → Except DecodeError (Instr × Bits)
  | .byte ffpend, s => decodeByte ffpend s
  | .golomb k limit, s => decodeGolomb k limit s
  | .run j, s => decodeRun j s

/-- The encoder: the bits of an instruction that has a bit pattern, none for an operation (R91, R95 to R98, R108). -/
def encode : Instr → Option Bits
  | .b8 s => some (bitsOf 8 s.toNat)
  | .b7 s => some (false :: bitsOf 7 s.toNat)
  | .gr k _ h low => some (unary h ++ bitsOf k low)
  | .esc limit v => some (unary (escThreshold limit) ++ bitsOf Config.qbpp v.toNat)
  | .runhit => some [true]
  | .runterm j r => some (false :: bitsOf j r)
  | .bwWritebit _ | .bwWritebin _ _ | .bwWriteunary _ | .bwDrain | .bwFlush
  | .brReadbit | .brReadbin _ | .brReadunary
  | .quant _ | .ctxid _ _ _ _ | .ctxsel _ | .predict _ _ _ | .corrpred _ _ _ | .modrange _
  | .errval _ _ _ | .recon _ _ _
  | .rcInit | .rcGetk _ | .rcGetcorr _ _ | .maperr _ | .unmaperr _ | .rcUpdate _ _
  | .riInit | .riSelect _ _ | .riErrval _ _ _ | .riGetk _ | .riMap _ _ _ | .riEmerr _ _ _
  | .riUnmap _ _ _ | .riUpdate _ _ _ | .riRecon _ _ _
  | .grEnc _ _ _ | .grDec _ _
  | .scanEncode _ _ | .scanInit | .rowStart | .nbrFetch | .encStep | .encRegular | .encRun
  | .encRunlen _ _ | .runidxInc | .runidxDec | .encRipixel | .rowEnd | .encEnd
  | .scanDecode _ _ _ | .decStep | .decRunlen _ | .decRegular | .decRun | .decRipixel | .decEnd => none

/-- Which instructions a context admits (R91, R100): the format the previous byte selects, the two codewords of one
Golomb-Rice context, the two of a run. -/
def Expect.admits : Expect → Instr → Bool
  | .byte false, .b8 _ => true
  | .byte true, .b7 _ => true
  | .golomb k limit, .gr k' limit' _ _ => k = k' && limit = limit'
  | .golomb _ limit, .esc limit' _ => limit = limit'
  | .run _, .runhit => true
  | .run j, .runterm j' _ => j = j'
  | _, _ => false

/-- `go(B, ff)` of R128, on fuel that bounds the number of bytes. -/
def stuffFrom : Nat → Bits → Bool → List Byte
  | 0, _, _ => []
  | fuel + 1, s, ff =>
    let need := if ff then 7 else 8
    if s.length = 0 then (if ff then [0] else [])
    else if s.length < need then [.ofNat 8 (valOf (s ++ List.replicate (need - s.length) false))]
    else
      let byte : Byte := .ofNat 8 (valOf (s.take need))
      byte :: stuffFrom fuel (s.drop need) (byte = 0xFF)

/-- `Stuff(B)`: the bytes of a bit sequence (R128). -/
def stuff (s : Bits) : List Byte := stuffFrom (s.length + 1) s false

/-- The bits of one byte after a byte that was (`ff`) or was not 0xFF (R91, R125). -/
def unstuffByte (ff : Bool) (b : Byte) : Bits :=
  if ff then bitsOf 7 (b.toNat % 128) else bitsOf 8 b.toNat

/-- `Unstuff(Y)`, the previous byte given (R128). -/
def unstuffFrom : Bool → List Byte → Bits
  | _, [] => []
  | ff, b :: bs => unstuffByte ff b ++ unstuffFrom (b = 0xFF) bs

/-- `Unstuff(Y)` (R128). -/
def unstuff (bs : List Byte) : Bits := unstuffFrom false bs

/-- Byte i of a table word: the first word is the first byte of the stream. -/
def tableByte (w i : Nat) : Byte := .ofNat 8 (w >>> (8 * i))

/-- The instruction the decoder reads from a table word of nbits bits, laid out as the stream's first byte (nothing
precedes it, so its format is B8). A row with no bits names an operation, which no bit pattern decodes to. -/
def decodeTableWord (nbits w : Nat) : Option Instr :=
  if nbits = 0 then none
  else
    match decode (.byte false) (bitsOf 8 (tableByte w 0).toNat) with
    | .ok (i, _) => some i
    | .error _ => none

end Sys2Proof
end

