-- ==== Sys2Proof/Machine/State.lean ====
section
/-! DEFINITION. The state of one JLS-EC instance (spec/10_state.md), plain data, its value at power-on, and the reasons a
step can stop. -/

namespace Sys2Proof.Machine

/-- `DIR` (R21). -/
inductive Dir where
  | encode
  | decode
  deriving DecidableEq, Repr

/-- `STATUS` (R22). -/
inductive Status where
  | idle
  | busy
  | done
  | fault
  deriving DecidableEq, Repr

/-- `FAULTKIND` (R230), by its symbolic names (D35). -/
inductive FaultKind where
  | unexpectedEndOfStream
  | invalidRunLength
  | contextOverflow
  deriving DecidableEq, Repr

/-- `MODE` (R23). -/
inductive Mode where
  | regular
  | run
  deriving DecidableEq, Repr

/-- One entry of the regular context file (R25). -/
structure RegCtx where
  a : Word32
  b : Word32
  c : BitVec 8
  n : Word32
  deriving DecidableEq, Repr

/-- One entry of the run-interruption context file (R28). -/
structure RunCtx where
  a : Word32
  n : Word32
  nn : Word32
  rItype : Fin 2
  resetThreshold : Word32
  deriving DecidableEq, Repr

/-- A memory space: pairs of an address and a cell, addresses strictly rising, no cell zero; an unlisted address reads
as zero. `Space 8` is a list of `Host.Cell`. -/
abbrev Space (w : Nat) := List (Nat × BitVec w)

/-- The bit writer and its output (R32): the queued bits `WQ` (`BW.FILL` is their number), `BW.FFPEND`, `SINK`. -/
structure Writer where
  wq : Bits
  ffpend : Bool
  sink : List Byte
  deriving DecidableEq, Repr

/-- The bit reader (R33): the fetched, unconsumed bits `RQ` (`BR.FILL` is their number), `BR.FFPEND`, `BR.POS`. -/
structure Reader where
  rq : Bits
  ffpend : Bool
  pos : Nat
  deriving DecidableEq, Repr

/-- Everything the spec gives the machine (R20), the launch memories of a scan (R35), and three fields of the model's
own: `rowOpen`, `issued` and `ret`. -/
structure State where
  /-- `DIR` (R21) -/
  dir : Dir
  /-- `WIDTH`, 16 bits unsigned (R21) -/
  width : BitVec 16
  /-- `ROWS`, a natural number of no fixed width (R21) -/
  rows : Nat
  /-- `SIZE` (R21) -/
  size : Nat
  /-- `STATUS` (R22) -/
  status : Status
  /-- `FAULTKIND`, valid when STATUS = FAULT (R22) -/
  faultKind : FaultKind
  /-- `FAULTINFO`, valid when STATUS = FAULT (R22, R230) -/
  faultInfo : Nat
  /-- `Y`, the current row (R23) -/
  y : Nat
  /-- `X`, the current column (R23) -/
  x : Nat
  /-- `MODE` (R23) -/
  mode : Mode
  /-- `Ra`, left neighbour (R24) -/
  ra : Sample
  /-- `Rb`, above (R24) -/
  rb : Sample
  /-- `Rc`, above-left (R24) -/
  rc : Sample
  /-- `Rd`, above-right (R24) -/
  rd : Sample
  /-- `Q`, signed context id (R24) -/
  q : Int
  /-- `SIGN` (R24) -/
  sign : Sign
  /-- `CI`, context index (R24) -/
  ci : Fin Config.nctx
  /-- `K`, Golomb parameter (R24) -/
  k : Nat
  /-- `PX`, corrected prediction (R24) -/
  px : Sample
  /-- `E`, residual (R24) -/
  e : Int
  /-- `M`, mapped value (R24) -/
  m : Int
  /-- run scratch `r`, run length (R24) -/
  r : Nat
  /-- run scratch `rem`, what is left of the run to code (R24, R196) -/
  rem : Nat
  /-- run scratch `eol`, the run reached the end of the row (R24) -/
  eol : Bool
  /-- run scratch `idx`, run samples decoded (R24, R212) -/
  idx : Nat
  /-- `REG[0..364]` (R25) -/
  reg : Vector RegCtx Config.nctx
  /-- `RI[0..1]` (R28) -/
  ri : Vector RunCtx Config.nri
  /-- `RUNINDEX`, 0..31 (R30) -/
  runIndex : Fin 32
  /-- `PREV[-1..WIDTH]`, cell i at address i + 1 (R31, R66) -/
  prev : Space 16
  /-- `CUR[-1..WIDTH]`, cell i at address i + 1 (R31, R66) -/
  cur : Space 16
  /-- the bit writer and `SINK` (R32) -/
  bw : Writer
  /-- the bit reader (R33) -/
  br : Reader
  /-- `IN[0..SIZE-1]` (R33) -/
  inp : Space 8
  /-- `SRC(y, x)`, read only (R35) -/
  src : Space 16
  /-- `OUT(y, x)`, write only (R35) -/
  out : Space 16
  /-- the model's own: a row is open, between its `ROW.START` and its `ROW.END` (where the driver is in the loops of
  R190 and R210) -/
  rowOpen : Bool
  /-- the model's own: the operation waiting to be performed by name (R105, R239) -/
  issued : Option Instr
  /-- the model's own: the result or results of the last operation that returns one (R13: `NAME(args) -> result`) -/
  ret : List Int
  deriving DecidableEq, Repr

/-- The reasons the model stops a step. None is a fault of the spec: those are next states with STATUS = FAULT (R237).
All are safe: they stop where the spec gives no effect. -/
inductive Fault where
  /-- a line-buffer index outside -1..WIDTH (R60, R66); raised by NBR.FETCH; safe -/
  | lineIndex
  /-- a sample position outside 0 <= y < ROWS, 0 <= x < WIDTH (R35, R60); raised by the ENC.* and DEC.* pixel
  operations; safe -/
  | sampleIndex
  /-- the search of RC.GETK or RI.GETK does not end: no k satisfies the condition, N <= 0 (U5); safe -/
  | searchStuck
  deriving DecidableEq, Repr

/-- The reasons an instruction is not accepted. -/
inductive Refusal where
  /-- an instruction whose meaning is not written; raised by no arm of this model; safe -/
  | notModelled (mnemonic : String)
  /-- a command issued while STATUS = BUSY: "a model's step function has no transition for it" (U12); raised by
  SCAN.ENCODE and SCAN.DECODE; safe -/
  | commandWhileBusy
  /-- WIDTH = 0 or WIDTH > 65535: "refuse: not a legal command operand" (U11); raised by SCAN.ENCODE and
  SCAN.DECODE; safe -/
  | illegalWidth
  /-- an operand outside the range its rule gives (`Instr.wf`); raised by step before it runs the instruction; safe -/
  | operandRange (mnemonic : String)
  deriving DecidableEq, Repr

/-- A regular context as SCAN.INIT creates it: (A, B, C, N) = (1024, 0, 0, 1) (R160). -/
def RegCtx.init : RegCtx := { a := .ofInt 32 Config.aInit, b := 0, c := 0, n := 1 }

/-- A run-interruption context as SCAN.INIT creates it: (A, N, Nn) = (1024, 1, 0) (R170). -/
def RunCtx.init (t : Fin 2) : RunCtx :=
  { a := .ofInt 32 Config.aInit, n := 1, nn := 0, rItype := t, resetThreshold := .ofInt 32 Config.riReset }

/-- Power-on (R250): STATUS = IDLE and nothing placed. Every other element is unspecified by the spec; its value here is
the model's (notes/assumptions/1.md). -/
def State.reset : State where
  dir := .encode
  width := 0
  rows := 0
  size := 0
  status := .idle
  faultKind := .unexpectedEndOfStream
  faultInfo := 0
  y := 0
  x := 0
  mode := .regular
  ra := 0
  rb := 0
  rc := 0
  rd := 0
  q := 0
  sign := .plus
  ci := 0
  k := 0
  px := 0
  e := 0
  m := 0
  r := 0
  rem := 0
  eol := false
  idx := 0
  reg := Vector.replicate Config.nctx RegCtx.init
  ri := #v[RunCtx.init 0, RunCtx.init 1]
  runIndex := 0
  prev := []
  cur := []
  bw := { wq := [], ffpend := false, sink := [] }
  br := { rq := [], ffpend := false, pos := 0 }
  inp := []
  src := []
  out := []
  rowOpen := false
  issued := none
  ret := []

end Sys2Proof.Machine
end

