-- ==== Sys2Proof/Machine/Operands.lean ====
section
/-! DEFINITION. The arithmetic of the rules on operand values: signs, shifts, clamps, the constant tables, and the
conversions between samples, fields and integers (spec/00_scope.md R10 to R14). One definition of each helper serves both
directions (R253). -/

namespace Sys2Proof.Machine

/-- `v >> n = floor(v / 2^n)`, the arithmetic right shift (R11). -/
def asr (v : Int) (n : Nat) : Int := v / 2 ^ n

/-- `clamp(v, lo, hi)` (R11). -/
def clamp (v lo hi : Int) : Int := max lo (min hi v)

/-- `SignOf(q)` (R14). -/
def signOf (q : Int) : Sign := if q < 0 then .minus else .plus

/-- `ApplySign(v, s)` (R14). -/
def applySign (v : Int) : Sign → Int
  | .plus => v
  | .minus => -v

/-- A sample as an integer (R10). -/
def sampleInt (v : Sample) : Int := v.toNat

/-- An integer reduced modulo 65536 into a sample (R12). -/
def toSample (v : Int) : Sample := .ofInt 16 v

/-- Does an integer fit a 32-bit signed field? (R12) -/
def fits32 (v : Int) : Bool := -2147483648 ≤ v && v ≤ 2147483647

/-- Store an integer into a 32-bit counter (N, Nn): the value where it fits, else the free value. -/
def storeCounter (v : Int) : Word32 := if fits32 v then .ofInt 32 v else Config.freeCounter v

/-- `J[i]` (R8, R34). -/
def jTable (i : Fin 32) : Nat := Config.J.get i

/-- The chunk size `2^J[RUNINDEX]` (R97). -/
def chunk (i : Fin 32) : Nat := 2 ^ jTable i

/-- `TABLEC[i] = clamp(i, -128, 127)` (R166). -/
def tableC (i : Int) : BitVec 8 := .ofInt 8 (clamp i Config.cMin Config.cMax)

/-- `min(31, RUNINDEX + 1)` (R197). -/
def indexInc (i : Fin 32) : Fin 32 := ⟨min Config.runIndexMax (i.val + 1), by simp only [Config.runIndexMax]; omega⟩

/-- `max(0, RUNINDEX − 1)` (R197). -/
def indexDec (i : Fin 32) : Fin 32 := ⟨i.val - 1, by omega⟩

/-- The limit of an interruption sample: `LIMIT − J[RUNINDEX] − 1` (R182). -/
def runLimit (i : Fin 32) : Nat := Config.limit - jTable i - 1

/-- The least k with `n << k >= target`, searched from 0; none where there is none. Fields have 32 bits, so a search
that has not ended at 33 never ends (R161, R173, U5). -/
def leastShift (n target : Int) : Option Nat := (List.range 34).find? fun k => target ≤ n * 2 ^ k

end Sys2Proof.Machine
end

