-- ==== Sys2Proof/Machine/Flags.lean ====
section
/-! DEFINITION. The flag computations (spec/10_state.md R36): JLS-EC has no condition codes. Its one-bit status elements
are BW.FFPEND, BR.FFPEND and the sticky STATUS = FAULT; the one sign flag a rule computes is the correction bit. -/

namespace Sys2Proof.Machine

/-- FFPEND after a byte: 1 exactly when the byte is 0xFF (R32, R33, R36). -/
def ffAfter (b : Byte) : Bool := b = 0xFF

/-- How many stream bits the next byte carries: 7 after 0xFF, else 8 (R91, R123). -/
def needBits (ffpend : Bool) : Nat := if ffpend then 7 else 8

/-- `signbit(v)` (R11). -/
def signBit (v : Int) : Nat := if v < 0 then 1 else 0

/-- `raise F(info)` (R237): FAULTKIND, FAULTINFO and STATUS are written and the scan ends. Taking the fault is a next
state; STATUS = FAULT keeps the driver from performing any further operation of the scan. There is no return from it
(R238): only a new command or power-on leaves STATUS = FAULT. -/
def State.raise (s : State) (kind : FaultKind) (info : Nat) : State :=
  { s with faultKind := kind, faultInfo := info, status := .fault }

end Sys2Proof.Machine
end

