-- ==== Sys2Proof/Machine/Ops.lean ====
section
/-! DEFINITION. The named operations over memory and registers: memory spaces, the line buffers, the sample memories, the
context files, the bit writer and the bit reader, and how an operation that may raise a fault is sequenced. -/

namespace Sys2Proof.Machine

/-! Memory spaces. -/

/-- The cell at an address; an unlisted address reads as zero. -/
def readCell {w : Nat} : Space w → Nat → BitVec w
  | [], _ => 0
  | (b, v) :: m, a => if a = b then v else readCell m a

/-- Write a cell and keep the canonical form: a zero is not listed. -/
def writeCell {w : Nat} : Space w → Nat → BitVec w → Space w
  | [], a, v => if v = 0 then [] else [(a, v)]
  | (b, u) :: m, a, v =>
    if a < b then (if v = 0 then (b, u) :: m else (a, v) :: (b, u) :: m)
    else if a = b then (if v = 0 then m else (a, v) :: m)
    else (b, u) :: writeCell m a v

/-- The canonical form: addresses strictly rising from `lo`, no cell zero. -/
def wfFrom {w : Nat} : Nat → Space w → Bool
  | _, [] => true
  | lo, (a, v) :: m => lo ≤ a && v ≠ 0 && wfFrom (a + 1) m

/-- A memory space is in canonical form. -/
def spaceWf {w : Nat} (m : Space w) : Bool := wfFrom 0 m

/-- Every memory space of the state is in canonical form. -/
def Memory.wf (s : State) : Bool :=
  spaceWf s.prev && spaceWf s.cur && spaceWf s.inp && spaceWf s.src && spaceWf s.out

/-- The address of sample (y, x): a column is below 65536 (R9), so distinct samples have distinct addresses. -/
def sampleAddr (y x : Nat) : Nat := y * 65536 + x

/-- The address of line-buffer cell i, i >= -1 (R66: array cell i + 1). -/
def lineAddr (i : Int) : Nat := (i + 1).toNat

/-! Sequencing of operations that may raise. -/

/-- What a part of an operation ends in: a value and the state so far; a raised fault, after which nothing of the
operation is executed (R237); or a stop of the model. -/
inductive Res (α : Type) where
  | ok (a : α) (s : State)
  | raised (s : State)
  | stop (f : Fault)

/-- Go on with the next part unless the scan has ended. -/
def Res.bind {α β : Type} : Res α → (α → State → Res β) → Res β
  | .ok a s, f => f a s
  | .raised s, _ => .raised s
  | .stop e, _ => .stop e

/-- The outcome of an operation: a raised fault is a next state (R237). -/
def Res.outcome {α : Type} : Res α → (α → State → State) → Host.Outcome State Fault Refusal
  | .ok a s, f => .next (f a s)
  | .raised s, _ => .next s
  | .stop e, _ => .fault e

/-! Registers. -/

/-- `WIDTH` as a number. -/
def State.w (s : State) : Nat := s.width.toNat

/-- The results an operation returns (R13). -/
def State.withRet (s : State) (vs : List Int) : State := { s with ret := vs }

/-- Write `REG[i]`. -/
def State.withReg (s : State) (i : Fin Config.nctx) (c : RegCtx) : State := { s with reg := s.reg.set i c }

/-- Write `RI[t]`. -/
def State.withRi (s : State) (t : Fin Config.nri) (c : RunCtx) : State := { s with ri := s.ri.set t c }

/-- Write `RUNINDEX`. -/
def State.withRunIndex (s : State) (i : Fin 32) : State := { s with runIndex := i }

/-- Replace the bit writer. -/
def State.withBw (s : State) (w : Writer) : State := { s with bw := w }

/-- Replace the bit reader. -/
def State.withBr (s : State) (r : Reader) : State := { s with br := r }

/-! Line buffers and sample memories (R31, R35). -/

/-- `PREV[i]`. -/
def State.prevAt (s : State) (i : Int) : Sample := readCell s.prev (lineAddr i)

/-- `CUR[i]`. -/
def State.curAt (s : State) (i : Int) : Sample := readCell s.cur (lineAddr i)

/-- `PREV[i] <- v`. -/
def State.setPrev (s : State) (i : Int) (v : Sample) : State := { s with prev := writeCell s.prev (lineAddr i) v }

/-- `CUR[i] <- v`. -/
def State.setCur (s : State) (i : Int) (v : Sample) : State := { s with cur := writeCell s.cur (lineAddr i) v }

/-- `SRC(y, x)`. -/
def State.srcAt (s : State) (y x : Nat) : Sample := readCell s.src (sampleAddr y x)

/-- `OUT(y, x)`, as the host reads it after the scan (R71). -/
def State.outAt (s : State) (y x : Nat) : Sample := readCell s.out (sampleAddr y x)

/-- `OUT(y, x) <- v`. -/
def State.setOut (s : State) (y x : Nat) (v : Sample) : State := { s with out := writeCell s.out (sampleAddr y x) v }

/-- Is (y, x) a sample of the scan? (R35) -/
def State.isSample (s : State) (y x : Nat) : Bool := y < s.rows && x < s.w

/-! The bit writer (R123 to R124). -/

/-- `SinkAppend(b)` with the flag the byte sets (R36). -/
def Writer.emit (w : Writer) (b : Byte) : Writer := { w with sink := w.sink ++ [b], ffpend := ffAfter b }

/-- The loop of `BW.DRAIN` (R123); each pass takes at least seven bits, so the number of queued bits is fuel enough. -/
def drainLoop : Nat → Writer → Writer
  | 0, w => w
  | fuel + 1, w =>
    if w.wq.length < needBits w.ffpend then w
    else
      drainLoop fuel
        ({ w with wq := w.wq.drop (needBits w.ffpend) }.emit (.ofNat 8 (valOf (w.wq.take (needBits w.ffpend)))))

/-- `BW.DRAIN` (R123). -/
def Writer.drain (w : Writer) : Writer := drainLoop w.wq.length w

/-- `append(WQ, s); BW.DRAIN` (R120 to R122). -/
def Writer.put (w : Writer) (s : Bits) : Writer := { w with wq := w.wq ++ s }.drain

/-- `BW.WRITEBIT b` (R120). -/
def Writer.writeBit (w : Writer) (b : Bool) : Writer := w.put [b]

/-- `BW.WRITEBIN v, n`: the low n bits of v (R121). -/
def Writer.writeBin (w : Writer) (v n : Nat) : Writer := w.put (bitsOf n (v % 2 ^ n))

/-- `BW.WRITEUNARY n` (R122). -/
def Writer.writeUnary (w : Writer) (n : Nat) : Writer := w.put (unary n)

/-- What `BW.FLUSH` does after its `BW.DRAIN`: pad a partial byte with zeros, or add the byte 0x00 after a final 0xFF
(R124). -/
def Writer.pad (w : Writer) : Writer :=
  if w.wq.length > 0 then
    { wq := [],
      ffpend := false,
      sink := w.sink ++ [.ofNat 8 (valOf (w.wq ++ List.replicate (needBits w.ffpend - w.wq.length) false))] }
  else if w.ffpend then { w with sink := w.sink ++ [0x00], ffpend := false }
  else w

/-- `BW.FLUSH` (R124). -/
def Writer.flush (w : Writer) : Writer := w.drain.pad

/-- `GR.ENC k, m, limit` (R180). -/
def Writer.writeGolomb (w : Writer) (k m limit : Nat) : Writer :=
  if m >>> k < escThreshold limit then (w.writeUnary (m >>> k)).writeBin (m % 2 ^ k) k
  else (w.writeUnary (escThreshold limit)).writeBin (m - 1) Config.qbpp

/-- `GR.ENC k, m, limit` of a mapped value that may be negative: a free codeword then (R180 states one for m >= 0 only;
notes/assumptions/16.md). -/
def Writer.writeMapped (w : Writer) (k : Nat) (m : Int) (limit : Nat) : Writer :=
  if 0 ≤ m then w.writeGolomb k m.toNat limit else w.put (Config.freeCodeword k m limit)

/-! The bit reader (R125 to R127). A read answers a value and the reader after it, or, where a bit is demanded and none is
left, the reader as the fault finds it. -/

/-- A byte received: its stream bits join the queue (R91, R125). -/
def Reader.receive (r : Reader) (b : Byte) : Reader :=
  { r with rq := r.rq ++ unstuffByte r.ffpend b, ffpend := ffAfter b }

/-- `BR.READBIT` on IN of SIZE bytes (R125). -/
def readBit (inp : Space 8) (size : Nat) (r : Reader) : Except Reader (Bool × Reader) :=
  match r.rq with
  | b :: rq => .ok (b, { r with rq := rq })
  | [] =>
    if r.pos ≥ size then .error r
    else
      let r' := { r with pos := r.pos + 1 }.receive (readCell inp r.pos)
      match r'.rq with
      | b :: rq => .ok (b, { r' with rq := rq })
      | [] => .error r'

/-- `BR.READBIN n` with the value read so far (R126). -/
def readBinFrom (inp : Space 8) (size : Nat) : Nat → Nat → Reader → Except Reader (Nat × Reader)
  | 0, v, r => .ok (v, r)
  | n + 1, v, r =>
    match readBit inp size r with
    | .ok (b, r) => readBinFrom inp size n (2 * v + b.toNat) r
    | .error r => .error r

/-- `BR.READBIN n` (R126). -/
def readBin (inp : Space 8) (size n : Nat) (r : Reader) : Except Reader (Nat × Reader) := readBinFrom inp size n 0 r

/-- How many bits the reader can still deliver, at most. -/
def Reader.left (r : Reader) (size : Nat) : Nat := r.rq.length + 8 * (size - r.pos)

/-- `BR.READUNARY` on fuel (R127). -/
def readUnaryFrom (inp : Space 8) (size : Nat) : Nat → Nat → Reader → Except Reader (Nat × Reader)
  | 0, _, r => .error r
  | fuel + 1, n, r =>
    match readBit inp size r with
    | .ok (b, r) => if b = Config.unaryStop then .ok (n, r) else readUnaryFrom inp size fuel (n + 1) r
    | .error r => .error r

/-- `BR.READUNARY` (R127): the bits left bound the count, so the fuel never runs out. -/
def readUnary (inp : Space 8) (size : Nat) (r : Reader) : Except Reader (Nat × Reader) :=
  readUnaryFrom inp size (r.left size + 1) 0 r

/-- `GR.DEC k, limit` (R181). -/
def readGolomb (inp : Space 8) (size k limit : Nat) (r : Reader) : Except Reader (Nat × Reader) :=
  match readUnary inp size r with
  | .ok (h, r) =>
    if h ≥ escThreshold limit then
      match readBin inp size Config.qbpp r with
      | .ok (v, r) => .ok (v + 1, r)
      | .error r => .error r
    else
      match readBin inp size k r with
      | .ok (low, r) => .ok (h <<< k + low, r)
      | .error r => .error r
  | .error r => .error r

/-- A read as a part of an operation: a bit that is not there raises `UnexpectedEndOfStream(BR.POS)` (R125, R231). -/
def State.reads {α : Type} (s : State) (f : Space 8 → Nat → Reader → Except Reader (α × Reader)) : Res α :=
  match f s.inp s.size s.br with
  | .ok (a, r) => .ok a (s.withBr r)
  | .error r => .raised ((s.withBr r).raise .unexpectedEndOfStream r.pos)

end Sys2Proof.Machine
end

