-- ==== Sys2Proof/Machine/Bitio.lean ====
section
/-! DEFINITION. The bit writer and the bit reader as instructions (spec/40_bitio.md). -/

namespace Sys2Proof.Machine

open Host (Outcome)

/-- `BW.WRITEBIT b` (R120). -/
def execBwWritebit (b : Bool) (s : State) : Outcome State Fault Refusal :=
  .next (s.withBw (s.bw.writeBit b))

/-- `BW.WRITEBIN v, n` (R121). -/
def execBwWritebin (v n : Nat) (s : State) : Outcome State Fault Refusal :=
  .next (s.withBw (s.bw.writeBin v n))

/-- `BW.WRITEUNARY n` (R122). -/
def execBwWriteunary (n : Nat) (s : State) : Outcome State Fault Refusal :=
  .next (s.withBw (s.bw.writeUnary n))

/-- `BW.DRAIN` (R123). -/
def execBwDrain (s : State) : Outcome State Fault Refusal :=
  .next (s.withBw s.bw.drain)

/-- `BW.FLUSH` (R124). -/
def execBwFlush (s : State) : Outcome State Fault Refusal :=
  .next (s.withBw s.bw.flush)

/-- `BR.READBIT -> b` (R125). -/
def execBrReadbit (s : State) : Outcome State Fault Refusal :=
  (s.reads readBit).outcome fun b s => s.withRet [(b.toNat : Int)]

/-- `BR.READBIN n -> v` (R126). -/
def execBrReadbin (n : Nat) (s : State) : Outcome State Fault Refusal :=
  (s.reads fun inp size => readBin inp size n).outcome fun v s => s.withRet [(v : Int)]

/-- `BR.READUNARY -> n` (R127). -/
def execBrReadunary (s : State) : Outcome State Fault Refusal :=
  (s.reads readUnary).outcome fun n s => s.withRet [(n : Int)]

end Sys2Proof.Machine
end

