-- ==== Sys2Proof/Machine/Quantizer.lean ====
section
/-! DEFINITION. The gradient quantizer and the context-id function (spec/41_quantizer_context_id.md). -/

namespace Sys2Proof.Machine

open Host (Outcome)

/-- `QUANT(d)` (R141); `QLUT[d]` is this function (R142). -/
def quantize (d : Int) : Int :=
  if d ≤ -Config.t3 then -4
  else if d ≤ -Config.t2 then -3
  else if d ≤ -Config.t1 then -2
  else if d < 0 then -1
  else if d = 0 then 0
  else if d < Config.t1 then 1
  else if d < Config.t2 then 2
  else if d < Config.t3 then 3
  else 4

/-- `CTXID(Ra, Rb, Rc, Rd)` (R143). -/
def contextId (ra rb rc rd : Sample) : Int :=
  (quantize (sampleInt rd - sampleInt rb) * 9 + quantize (sampleInt rb - sampleInt rc)) * 9 +
    quantize (sampleInt rc - sampleInt ra)

/-- The context index `ApplySign(Q, SignOf(Q))` = abs(Q) (R144). For Q in [-364, 364] the reduction modulo 365 that the
type asks for changes nothing. -/
def contextIndex (q : Int) : Fin Config.nctx := Fin.ofNat Config.nctx (applySign q (signOf q)).toNat

/-- `QUANT d -> q` (R141). -/
def execQuant (d : Int) (s : State) : Outcome State Fault Refusal :=
  .next (s.withRet [quantize d])

/-- `CTXID Ra, Rb, Rc, Rd -> Q` (R143); writes Q (R24). -/
def execCtxid (ra rb rc rd : Sample) (s : State) : Outcome State Fault Refusal :=
  .next { s with q := contextId ra rb rc rd, ret := [contextId ra rb rc rd] }

/-- `CTXSEL Q -> (SIGN, CI)` (R144); writes SIGN and CI (R24). -/
def execCtxsel (q : Int) (s : State) : Outcome State Fault Refusal :=
  .next { s with
    sign := signOf q, ci := contextIndex q, ret := [(signOf q).toInt, ((contextIndex q).val : Int)] }

end Sys2Proof.Machine
end

