-- ==== Sys2Proof/Machine/Regular.lean ====
section
/-! DEFINITION. The regular context: Golomb parameter, error correction, residual mapping, update
(spec/43_regular_context.md). -/

namespace Sys2Proof.Machine

open Host (Outcome)

/-- `RC.INIT` (R160). -/
def State.initReg (s : State) : State := { s with reg := Vector.replicate Config.nctx RegCtx.init }

/-- `RC.GETK` on an entry (R161). -/
def RegCtx.getK (c : RegCtx) : Option Nat := leastShift c.n.toInt c.a.toInt

/-- `RC.GETCORR` on an entry (R162). -/
def RegCtx.getCorr (c : RegCtx) (k : Nat) : Nat :=
  if k ≠ 0 then 0 else signBit (2 * c.b.toInt + c.n.toInt - 1)

/-- `MAPERR(e)` (R163). -/
def mapErr (e : Int) : Nat := if e ≥ 0 then (2 * e).toNat else (-2 * e - 1).toNat

/-- `UNMAPERR(m)` (R164). -/
def unmapErr (m : Nat) : Int := if m % 2 = 0 then ((m >>> 1 : Nat) : Int) else -(((m + 1) >>> 1 : Nat) : Int)

/-- Steps 3 to 5 of `RC.UPDATE` on the working copies a, b and the count n already incremented; `none` when the working
copy b leaves the 32-bit range (R12, R165). -/
def RegCtx.bias (c : RegCtx) (a b n : Int) : Option RegCtx :=
  if b + n ≤ 0 then
    if fits32 (b + n) then
      some { a := .ofInt 32 a, b := .ofInt 32 (if b + n ≤ -n then -n + 1 else b + n),
             c := tableC (c.c.toInt - 1), n := storeCounter n }
    else none
  else if b > 0 then
    if fits32 (b - n) then
      some { a := .ofInt 32 a, b := .ofInt 32 (if b - n > 0 then 0 else b - n),
             c := tableC (c.c.toInt + 1), n := storeCounter n }
    else none
  else some { a := .ofInt 32 a, b := .ofInt 32 b, c := c.c, n := storeCounter n }

/-- `RC.UPDATE` on an entry (R165); `none` when A or B leaves the 32-bit signed range (R233). -/
def RegCtx.update (c : RegCtx) (e : Int) : Option RegCtx :=
  if fits32 (c.a.toInt + |e|) && fits32 (c.b.toInt + e) then
    if c.n.toInt = Config.reset then
      c.bias (asr (c.a.toInt + |e|) 1) (asr (c.b.toInt + e) 1) (asr c.n.toInt 1 + 1)
    else c.bias (c.a.toInt + |e|) (c.b.toInt + e) (c.n.toInt + 1)
  else none

/-- `RC.GETK i` as a part of an operation; a search that does not end stops the model (U5). -/
def State.regK (s : State) (i : Fin Config.nctx) : Res Nat :=
  match (s.reg.get i).getK with
  | some k => .ok k s
  | none => .stop .searchStuck

/-- `RC.UPDATE i, e` as a part of an operation; FAULTINFO is the context index (R230). -/
def State.updateReg (s : State) (i : Fin Config.nctx) (e : Int) : Res Unit :=
  match (s.reg.get i).update e with
  | some c => .ok () (s.withReg i c)
  | none => .raised (s.raise .contextOverflow i.val)

/-- `RC.INIT` (R160). -/
def execRcInit (s : State) : Outcome State Fault Refusal :=
  .next s.initReg

/-- `RC.GETK i -> k` (R161); writes K (R24). -/
def execRcGetk (i : Fin Config.nctx) (s : State) : Outcome State Fault Refusal :=
  (s.regK i).outcome fun k s => { s with k := k, ret := [(k : Int)] }

/-- `RC.GETCORR i, k -> c` (R162). -/
def execRcGetcorr (i : Fin Config.nctx) (k : Nat) (s : State) : Outcome State Fault Refusal :=
  .next (s.withRet [((s.reg.get i).getCorr k : Int)])

/-- `MAPERR e -> m` (R163); writes M (R24). -/
def execMaperr (e : Int) (s : State) : Outcome State Fault Refusal :=
  .next { s with m := mapErr e, ret := [(mapErr e : Int)] }

/-- `UNMAPERR m -> e` (R164); writes E (R24). -/
def execUnmaperr (m : Nat) (s : State) : Outcome State Fault Refusal :=
  .next { s with e := unmapErr m, ret := [unmapErr m] }

/-- `RC.UPDATE i, e` (R165). -/
def execRcUpdate (i : Fin Config.nctx) (e : Int) (s : State) : Outcome State Fault Refusal :=
  (s.updateReg i e).outcome fun _ s => s

end Sys2Proof.Machine
end

