-- ==== Sys2Proof/Machine/Predictor.lean ====
section
/-! DEFINITION. The MED predictor, its correction, the residual and the reconstruction (spec/42_predictor.md). -/

namespace Sys2Proof.Machine

open Host (Outcome)

/-- `PREDICT(Ra, Rb, Rc)` (R150); the tests are made in this order. -/
def medPredict (ra rb rc : Sample) : Sample :=
  if sampleInt rc ≥ max (sampleInt ra) (sampleInt rb) then toSample (min (sampleInt ra) (sampleInt rb))
  else if sampleInt rc ≤ min (sampleInt ra) (sampleInt rb) then toSample (max (sampleInt ra) (sampleInt rb))
  else toSample (sampleInt ra + sampleInt rb - sampleInt rc)

/-- `CORRPRED(p, C, SIGN)` (R151): values below 0 become 0, values above 65535 become 65535. -/
def correctPrediction (p : Sample) (c : BitVec 8) (sign : Sign) : Sample :=
  toSample (clamp (sampleInt p + applySign c.toInt sign) 0 Config.maxval)

/-- `MODRANGE(d)` (R152). -/
def modRange (d : Int) : Int :=
  if d % Config.range ≥ 32768 then d % Config.range - Config.range else d % Config.range

/-- `ERRVAL(x, PX, SIGN)` (R153): sign first, reduction second. -/
def errVal (x px : Sample) (sign : Sign) : Int := modRange (applySign (sampleInt x - sampleInt px) sign)

/-- `RECON(PX, e, SIGN)` (R154). -/
def reconstruct (px : Sample) (e : Int) (sign : Sign) : Sample := toSample (sampleInt px + applySign e sign)

/-- `PREDICT Ra, Rb, Rc -> p` (R150). -/
def execPredict (ra rb rc : Sample) (s : State) : Outcome State Fault Refusal :=
  .next (s.withRet [sampleInt (medPredict ra rb rc)])

/-- `CORRPRED p, C, SIGN -> PX` (R151); writes PX (R24). -/
def execCorrpred (p : Sample) (c : BitVec 8) (sign : Sign) (s : State) : Outcome State Fault Refusal :=
  .next { s with px := correctPrediction p c sign, ret := [sampleInt (correctPrediction p c sign)] }

/-- `MODRANGE d -> e` (R152). -/
def execModrange (d : Int) (s : State) : Outcome State Fault Refusal :=
  .next (s.withRet [modRange d])

/-- `ERRVAL x, PX, SIGN -> e` (R153); writes E (R24). -/
def execErrval (x px : Sample) (sign : Sign) (s : State) : Outcome State Fault Refusal :=
  .next { s with e := errVal x px sign, ret := [errVal x px sign] }

/-- `RECON PX, e, SIGN -> x` (R154). -/
def execRecon (px : Sample) (e : Int) (sign : Sign) (s : State) : Outcome State Fault Refusal :=
  .next (s.withRet [sampleInt (reconstruct px e sign)])

end Sys2Proof.Machine
end

