-- ==== Sys2Proof/Machine/RunInterruption.lean ====
section
/-! DEFINITION. The run-interruption context: selection, residual, mapping, Golomb parameter, update
(spec/44_run_interruption_context.md). -/

namespace Sys2Proof.Machine

open Host (Outcome)

/-- `RI.INIT` (R170). -/
def State.initRi (s : State) : State := { s with ri := #v[RunCtx.init 0, RunCtx.init 1] }

/-- `RI.SELECT(Ra, Rb)` (R171). -/
def runSelect (ra rb : Sample) : Fin Config.nri :=
  if |sampleInt ra - sampleInt rb| ≤ Config.near then 1 else 0

/-- `RI.ERRVAL(x, Ra, Rb)` (R172). -/
def runResidual (x ra rb : Sample) : Int × Sign :=
  if ra = rb then (modRange (sampleInt x - sampleInt ra), .plus)
  else if sampleInt rb > sampleInt ra then (modRange (applySign (sampleInt x - sampleInt rb) .plus), .plus)
  else (modRange (applySign (sampleInt x - sampleInt rb) .minus), .minus)

/-- `RI.GETK` on an entry (R173). -/
def RunCtx.getK (c : RunCtx) (t : Fin Config.nri) : Option Nat :=
  leastShift c.n.toInt (c.a.toInt + asr c.n.toInt 1 * t.val)

/-- `RI.MAP` on an entry (R174). -/
def RunCtx.map (c : RunCtx) (e : Int) (k : Nat) : Nat :=
  if k = 0 ∧ e > 0 ∧ 2 * c.nn.toInt < c.n.toInt then 1
  else if e < 0 ∧ 2 * c.nn.toInt ≥ c.n.toInt then 1
  else if e < 0 ∧ k ≠ 0 then 1
  else 0

/-- `RI.EMERR` on an entry (R175). -/
def RunCtx.mappedErr (c : RunCtx) (t : Fin Config.nri) (e : Int) (k : Nat) : Int :=
  2 * |e| - t.val - c.map e k

/-- `RI.UNMAP` on an entry (R176). -/
def RunCtx.unmap (c : RunCtx) (t : Fin Config.nri) (em k : Nat) : Int :=
  if (if k ≠ 0 ∨ 2 * c.nn.toInt ≥ c.n.toInt then 1 else 0) = (em + t.val) % 2 then
    -(((em + t.val + (em + t.val) % 2) >>> 1 : Nat) : Int)
  else (((em + t.val + (em + t.val) % 2) >>> 1 : Nat) : Int)

/-- The first line of `RI.UPDATE`: a negative residual is counted (R177). -/
def RunCtx.countNegative (c : RunCtx) (e : Int) : RunCtx :=
  if e < 0 then { c with nn := storeCounter (c.nn.toInt + 1) } else c

/-- The rest of `RI.UPDATE` (R177), A already checked to fit. -/
def RunCtx.accumulate (c : RunCtx) (a : Int) : RunCtx :=
  if c.n.toInt = c.resetThreshold.toInt then
    { c with a := .ofInt 32 (asr a 1), n := storeCounter (asr c.n.toInt 1 + 1), nn := .ofInt 32 (asr c.nn.toInt 1) }
  else { c with a := .ofInt 32 a, n := storeCounter (c.n.toInt + 1) }

/-- `RI.UPDATE t, e, EM` as a part of an operation. The count of negative residuals is written before A is checked;
FAULTINFO is 365 + t (R177, R230, R237). -/
def State.updateRi (s : State) (t : Fin Config.nri) (e em : Int) : Res Unit :=
  let c := (s.ri.get t).countNegative e
  let a := c.a.toInt + asr (em + 1 - t.val) 1
  if fits32 a then .ok () (s.withRi t (c.accumulate a))
  else .raised ((s.withRi t c).raise .contextOverflow (Config.nctx + t.val))

/-- `RI.RECON(Ra, Rb, e)` (R178). -/
def runReconstruct (ra rb : Sample) (e : Int) : Sample :=
  if ra = rb then toSample (sampleInt ra + e)
  else if sampleInt rb > sampleInt ra then toSample (sampleInt rb + applySign e .plus)
  else toSample (sampleInt rb + applySign e .minus)

/-- `RI.GETK t` as a part of an operation; a search that does not end stops the model (U5). -/
def State.runK (s : State) (t : Fin Config.nri) : Res Nat :=
  match (s.ri.get t).getK t with
  | some k => .ok k s
  | none => .stop .searchStuck

/-- `RI.INIT` (R170). -/
def execRiInit (s : State) : Outcome State Fault Refusal :=
  .next s.initRi

/-- `RI.SELECT Ra, Rb -> t` (R171). -/
def execRiSelect (ra rb : Sample) (s : State) : Outcome State Fault Refusal :=
  .next (s.withRet [((runSelect ra rb).val : Int)])

/-- `RI.ERRVAL x, Ra, Rb -> (e, sg)` (R172); writes E (R24). -/
def execRiErrval (x ra rb : Sample) (s : State) : Outcome State Fault Refusal :=
  .next { s with e := (runResidual x ra rb).1, ret := [(runResidual x ra rb).1, (runResidual x ra rb).2.toInt] }

/-- `RI.GETK t -> k` (R173); writes K (R24). -/
def execRiGetk (t : Fin Config.nri) (s : State) : Outcome State Fault Refusal :=
  (s.runK t).outcome fun k s => { s with k := k, ret := [(k : Int)] }

/-- `RI.MAP t, e, k -> map` (R174). -/
def execRiMap (t : Fin Config.nri) (e : Int) (k : Nat) (s : State) : Outcome State Fault Refusal :=
  .next (s.withRet [((s.ri.get t).map e k : Int)])

/-- `RI.EMERR t, e, k -> EM` (R175); writes M (R24). -/
def execRiEmerr (t : Fin Config.nri) (e : Int) (k : Nat) (s : State) : Outcome State Fault Refusal :=
  .next { s with m := (s.ri.get t).mappedErr t e k, ret := [(s.ri.get t).mappedErr t e k] }

/-- `RI.UNMAP t, EM, k -> e` (R176); writes E (R24). -/
def execRiUnmap (t : Fin Config.nri) (em k : Nat) (s : State) : Outcome State Fault Refusal :=
  .next { s with e := (s.ri.get t).unmap t em k, ret := [(s.ri.get t).unmap t em k] }

/-- `RI.UPDATE t, e, EM` (R177). -/
def execRiUpdate (t : Fin Config.nri) (e : Int) (em : Nat) (s : State) : Outcome State Fault Refusal :=
  (s.updateRi t e em).outcome fun _ s => s

/-- `RI.RECON Ra, Rb, e -> x` (R178). -/
def execRiRecon (ra rb : Sample) (e : Int) (s : State) : Outcome State Fault Refusal :=
  .next (s.withRet [sampleInt (runReconstruct ra rb e)])

end Sys2Proof.Machine
end

