-- ==== Sys2Proof/Machine/Scan.lean ====
section
/-! DEFINITION. What both directions of the scan driver share: the commands, `SCAN.INIT`, the row operations, the
neighbour fetch, the run index (spec/46_scan_driver_encode.md R190 to R193, R197, R199; spec/47_scan_driver_decode.md
R210). -/

namespace Sys2Proof.Machine

open Host (Outcome)

/-- `SCAN.INIT` (R190, R251). The line buffers, all zero, list no cell. The writer and the reader are both emptied
(R32, R33, R38). -/
def State.scanInit (s : State) : State :=
  { s.initReg.initRi with
    status := .busy
    runIndex := 0
    prev := []
    cur := []
    bw := { wq := [], ffpend := false, sink := [] }
    br := { rq := [], ffpend := false, pos := 0 }
    y := 0
    x := 0
    mode := .regular
    rowOpen := false }

/-- `ROW.START` (R191): exchange the lines, then extend the borders. -/
def State.rowStart (s : State) : State :=
  let s := { s with prev := s.cur, cur := s.prev }
  let s := s.setPrev s.w (s.prevAt ((s.w : Int) - 1))
  let s := s.setCur (-1) (s.prevAt 0)
  { s with x := 0, mode := .regular, rowOpen := true }

/-- `NBR.FETCH` (R192); the four indices are in -1..WIDTH exactly when X < WIDTH. -/
def State.fetchNeighbours (s : State) : Res Unit :=
  if s.x < s.w then
    .ok () { s with
      ra := s.curAt ((s.x : Int) - 1), rb := s.prevAt s.x, rc := s.prevAt ((s.x : Int) - 1),
      rd := s.prevAt ((s.x : Int) + 1) }
  else .stop .lineIndex

/-- The first two lines of `ENC.STEP` and `DEC.STEP`: neighbours and context id (R193, R211). -/
def State.fetchContext (s : State) : Res Unit :=
  s.fetchNeighbours.bind fun _ s => .ok () { s with q := contextId s.ra s.rb s.rc s.rd }

/-- `CUR[x + i] <- v` for i below n (R195, R214). -/
def State.fillCur (s : State) (x : Nat) (v : Sample) : Nat → State
  | 0 => s
  | n + 1 => (State.fillCur s x v n).setCur ((x + n : Nat) : Int) v

/-- `OUT(y, x + i) <- v` for i below n (R214). -/
def State.fillOut (s : State) (y x : Nat) (v : Sample) : Nat → State
  | 0 => s
  | n + 1 => (State.fillOut s y x v n).setOut y (x + n) v

/-- The start of a command (R190, R210): refused while BUSY (U12) or with an illegal WIDTH (U11); otherwise the
parameters are latched and `SCAN.INIT` runs. The rows and samples that follow are the driver's, one operation a step. -/
def State.command (s : State) (dir : Dir) (width rows size : Nat) : Outcome State Fault Refusal :=
  if s.status = .busy then .refused .commandWhileBusy
  else if widthOk width then
    .next (State.scanInit { s with dir := dir, width := .ofNat 16 width, rows := rows, size := size })
  else .refused .illegalWidth

/-- `SCAN.ENCODE WIDTH, ROWS` (R190); SIZE is not latched. -/
def execScanEncode (width rows : Nat) (s : State) : Outcome State Fault Refusal :=
  s.command .encode width rows s.size

/-- `SCAN.DECODE WIDTH, ROWS, SIZE` (R210). -/
def execScanDecode (width rows size : Nat) (s : State) : Outcome State Fault Refusal :=
  s.command .decode width rows size

/-- `SCAN.INIT` (R190, R251). -/
def execScanInit (s : State) : Outcome State Fault Refusal :=
  .next s.scanInit

/-- `ROW.START` (R191). -/
def execRowStart (s : State) : Outcome State Fault Refusal :=
  .next s.rowStart

/-- `NBR.FETCH` (R192). -/
def execNbrFetch (s : State) : Outcome State Fault Refusal :=
  s.fetchNeighbours.outcome fun _ s => s

/-- `RUNIDX.INC` (R197). -/
def execRunidxInc (s : State) : Outcome State Fault Refusal :=
  .next (s.withRunIndex (indexInc s.runIndex))

/-- `RUNIDX.DEC` (R197). -/
def execRunidxDec (s : State) : Outcome State Fault Refusal :=
  .next (s.withRunIndex (indexDec s.runIndex))

/-- `ROW.END` (R199). -/
def execRowEnd (s : State) : Outcome State Fault Refusal :=
  .next { s with y := s.y + 1, rowOpen := false }

end Sys2Proof.Machine
end

