-- ==== Sys2Proof/Machine/ScanDecode.lean ====
section
/-! DEFINITION. The scan driver, decode direction (spec/47_scan_driver_decode.md). -/

namespace Sys2Proof.Machine

open Host (Outcome)

/-- One `RUNHIT` of the decoder in a row with rem0 samples left (R97, R212): a full chunk where one still fits, and
then RUNINDEX is incremented, else the last partial chunk. -/
def State.decodeHit (s : State) (rem0 : Nat) : State :=
  if min (chunk s.runIndex) (rem0 - s.idx) = chunk s.runIndex then
    { s with idx := s.idx + chunk s.runIndex, runIndex := indexInc s.runIndex }
  else { s with idx := s.idx + min (chunk s.runIndex) (rem0 - s.idx) }

/-- One `RUNTERM` of the decoder with remainder n (R98, R212): the run is interrupted, or the fault `InvalidRunLength`
where no room is left for the interruption sample (R232). -/
def State.decodeTerm (s : State) (rem0 n : Nat) : Res Unit :=
  let s := { s with idx := s.idx + n }
  if s.idx ≥ rem0 then .raised (s.raise .invalidRunLength s.idx)
  else .ok () { s with r := s.idx, eol := false }

/-- The loop of `DEC.RUNLEN` (R212); each pass but the last adds at least 1 to idx, so rem0 + 1 is fuel enough. The run
length and eol it returns are left in r and eol. -/
def decodeHits (rem0 : Nat) : Nat → State → Res Unit
  | 0, s => .ok () s
  | fuel + 1, s =>
    (s.reads readBit).bind fun b s =>
      if b then
        let s := s.decodeHit rem0
        if s.idx = rem0 then .ok () { s with r := s.idx, eol := true } else decodeHits rem0 fuel s
      else
        (s.reads fun inp size => readBin inp size (jTable s.runIndex)).bind fun n s => s.decodeTerm rem0 n

/-- `DEC.RUNLEN rem0 -> (r, eol)` (R212). -/
def State.decodeRunLength (s : State) (rem0 : Nat) : Res Unit :=
  decodeHits rem0 (rem0 + 1) { s with idx := 0 }

/-- `CUR[X] <- v; OUT(Y, X) <- v` (R213, R215). -/
def State.produce (s : State) (v : Sample) : State :=
  (s.setCur s.x v).setOut s.y s.x v

/-- `DEC.RIPIXEL` (R215). -/
def State.decodeInterruption (s : State) : Res Unit :=
  if s.isSample s.y s.x then
    let s := { s with rb := s.prevAt s.x }
    let t := runSelect s.ra s.rb
    (s.runK t).bind fun k s =>
      let s := { s with k := k }
      (s.reads fun inp size => readGolomb inp size k (runLimit s.runIndex)).bind fun m s =>
        let s := { s with m := m, e := (s.ri.get t).unmap t m s.k }
        (s.updateRi t s.e s.m).bind fun _ s =>
          let s := s.produce (runReconstruct s.ra s.rb s.e)
          .ok () { s with runIndex := indexDec s.runIndex, x := s.x + 1 }
  else .stop .sampleIndex

/-- `DEC.RUN` (R214). -/
def State.decodeRun (s : State) : Res Unit :=
  (s.decodeRunLength (s.w - s.x)).bind fun _ s =>
    if s.r = 0 ∨ s.y < s.rows then
      let s := (s.fillCur s.x s.ra s.r).fillOut s.y s.x s.ra s.r
      let s := { s with x := s.x + s.r }
      if s.eol then .ok () { s with mode := .regular }
      else s.decodeInterruption.bind fun _ s => .ok () { s with mode := .regular }
    else .stop .sampleIndex

/-- `DEC.REGULAR` (R213): K, the correction bit and C are those of the entry before its update. -/
def State.decodeRegular (s : State) : Res Unit :=
  if s.isSample s.y s.x then
    let s := { s with sign := signOf s.q, ci := contextIndex s.q }
    (s.regK s.ci).bind fun k s =>
      let c := s.reg.get s.ci
      let s := { s with k := k, px := correctPrediction (medPredict s.ra s.rb s.rc) c.c s.sign }
      (s.reads fun inp size => readGolomb inp size k Config.limit).bind fun m s =>
        let s := { s with m := m, e := unmapErr (m ^^^ c.getCorr k) }
        (s.updateReg s.ci s.e).bind fun _ s =>
          let s := s.produce (reconstruct s.px s.e s.sign)
          .ok () { s with x := s.x + 1 }
  else .stop .sampleIndex

/-- `DEC.STEP` (R211). -/
def State.decodeStep (s : State) : Res Unit :=
  s.fetchContext.bind fun _ s =>
    if s.q ≠ 0 then s.decodeRegular else State.decodeRun { s with mode := .run }

/-- `DEC.STEP` (R211). -/
def execDecStep (s : State) : Outcome State Fault Refusal :=
  s.decodeStep.outcome fun _ s => s

/-- `DEC.RUNLEN rem0 -> (r, eol)` (R212). -/
def execDecRunlen (rem0 : Nat) (s : State) : Outcome State Fault Refusal :=
  (s.decodeRunLength rem0).outcome fun _ s => s.withRet [(s.r : Int), (s.eol.toNat : Int)]

/-- `DEC.REGULAR` (R213). -/
def execDecRegular (s : State) : Outcome State Fault Refusal :=
  s.decodeRegular.outcome fun _ s => s

/-- `DEC.RUN` (R214). -/
def execDecRun (s : State) : Outcome State Fault Refusal :=
  s.decodeRun.outcome fun _ s => s

/-- `DEC.RIPIXEL` (R215). -/
def execDecRipixel (s : State) : Outcome State Fault Refusal :=
  s.decodeInterruption.outcome fun _ s => s

/-- `DEC.END` (R216). -/
def execDecEnd (s : State) : Outcome State Fault Refusal :=
  .next { s with status := .done }

end Sys2Proof.Machine
end

