-- ==== Sys2Proof/Machine/ScanEncode.lean ====
section
/-! DEFINITION. The scan driver, encode direction (spec/46_scan_driver_encode.md R193 to R200). -/

namespace Sys2Proof.Machine

open Host (Outcome)

/-- One `RUNHIT` of the encoder (R97, R196): the bit 1; a full chunk is taken off `rem` and RUNINDEX is incremented, a
last partial chunk changes neither. -/
def State.encodeHit (s : State) : State :=
  if chunk s.runIndex ≤ s.rem then
    { s with
      bw := s.bw.writeBit true, rem := s.rem - chunk s.runIndex, runIndex := indexInc s.runIndex }
  else { s with bw := s.bw.writeBit true }

/-- The loop of `ENC.RUNLEN` (R196); a chunk is at least 1, so `rem` is fuel enough. -/
def encodeHits : Nat → State → State
  | 0, s => s
  | fuel + 1, s => if chunk s.runIndex ≤ s.rem then encodeHits fuel s.encodeHit else s

/-- `ENC.RUNLEN r, eol` (R196). -/
def State.encodeRunLength (s : State) (r : Nat) (eol : Bool) : State :=
  let s := encodeHits r { s with rem := r }
  if eol then (if s.rem ≠ 0 then s.encodeHit else s)
  else s.withBw (s.bw.writeBin s.rem (jTable s.runIndex + 1))

/-- How many of the next n samples of row y, from column x on, equal v, up to the first that does not (R195). -/
def runLength (src : Space 16) (y : Nat) (v : Sample) : Nat → Nat → Nat
  | _, 0 => 0
  | x, n + 1 => if readCell src (sampleAddr y x) = v then runLength src y v (x + 1) n + 1 else 0

/-- `ENC.RIPIXEL` (R198). Run by name on a sample that did not interrupt the run (x = Ra = Rb), it has M = −1 and writes a
free codeword; everything else is as the rule says (notes/assumptions/16.md). -/
def State.encodeInterruption (s : State) : Res Unit :=
  if s.isSample s.y s.x then
    let x := s.srcAt s.y s.x
    let s := { s with rb := s.prevAt s.x }
    let t := runSelect s.ra s.rb
    let s := { s with e := (runResidual x s.ra s.rb).1 }
    (s.runK t).bind fun k s =>
      let s := { s with k := k, m := (s.ri.get t).mappedErr t s.e k }
      let s := s.withBw (s.bw.writeMapped s.k s.m (runLimit s.runIndex))
      (s.updateRi t s.e s.m).bind fun _ s =>
        let s := s.setCur s.x (runReconstruct s.ra s.rb s.e)
        .ok () { s with runIndex := indexDec s.runIndex, x := s.x + 1 }
  else .stop .sampleIndex

/-- `ENC.RUN` (R195). -/
def State.encodeRun (s : State) : Res Unit :=
  let rem0 := s.w - s.x
  if rem0 = 0 ∨ s.y < s.rows then
    let r := runLength s.src s.y s.ra s.x rem0
    let s := State.fillCur { s with r := r, eol := decide (r = rem0) } s.x s.ra r
    let s := s.encodeRunLength r s.eol
    let s := { s with x := s.x + r }
    if s.eol then .ok () { s with mode := .regular }
    else s.encodeInterruption.bind fun _ s => .ok () { s with mode := .regular }
  else .stop .sampleIndex

/-- `ENC.REGULAR` (R194): K, the correction bit and C are those of the entry before its update. -/
def State.encodeRegular (s : State) : Res Unit :=
  if s.isSample s.y s.x then
    let s := { s with sign := signOf s.q, ci := contextIndex s.q }
    (s.regK s.ci).bind fun k s =>
      let c := s.reg.get s.ci
      let px := correctPrediction (medPredict s.ra s.rb s.rc) c.c s.sign
      let e := errVal (s.srcAt s.y s.x) px s.sign
      let m := mapErr e ^^^ c.getCorr k
      let s := { s with k := k, px := px, e := e, m := m, bw := s.bw.writeGolomb k m Config.limit }
      (s.updateReg s.ci s.e).bind fun _ s =>
        let s := s.setCur s.x (reconstruct s.px s.e s.sign)
        .ok () { s with x := s.x + 1 }
  else .stop .sampleIndex

/-- `ENC.STEP` (R193). -/
def State.encodeStep (s : State) : Res Unit :=
  s.fetchContext.bind fun _ s =>
    if s.q ≠ 0 then s.encodeRegular else State.encodeRun { s with mode := .run }

/-- `ENC.STEP` (R193). -/
def execEncStep (s : State) : Outcome State Fault Refusal :=
  s.encodeStep.outcome fun _ s => s

/-- `ENC.REGULAR` (R194). -/
def execEncRegular (s : State) : Outcome State Fault Refusal :=
  s.encodeRegular.outcome fun _ s => s

/-- `ENC.RUN` (R195). -/
def execEncRun (s : State) : Outcome State Fault Refusal :=
  s.encodeRun.outcome fun _ s => s

/-- `ENC.RUNLEN r, eol` (R196). -/
def execEncRunlen (r : Nat) (eol : Bool) (s : State) : Outcome State Fault Refusal :=
  .next (s.encodeRunLength r eol)

/-- `ENC.RIPIXEL` (R198). -/
def execEncRipixel (s : State) : Outcome State Fault Refusal :=
  s.encodeInterruption.outcome fun _ s => s

/-- `ENC.END` (R200). -/
def execEncEnd (s : State) : Outcome State Fault Refusal :=
  .next { s with bw := s.bw.flush, status := .done }

end Sys2Proof.Machine
end

