-- ==== Sys2Proof/Machine/Codewords.lean ====
section
/-! DEFINITION. The byte formats and the codewords as instructions (spec/30_encoding.md R91, R95 to R98). They are the
patterns the block emits or parses (R6): with DIR = ENCODE an instruction of this family is emitted, its bits going to
the writer or its byte to SINK; with DIR = DECODE it is the one just parsed, and has the effect parsing it has. -/

namespace Sys2Proof.Machine

open Host (Outcome)

/-- A byte in the format of its predecessor: appended to SINK, or received by the reader (R91). DESIGN CHOICE
(notes/assumptions/18.md): issued by name, it is received however many bits the queue already holds, where R33 bounds
BR.FILL at 32, and it is emitted ahead of the bits still queued. -/
def State.byteFormat (s : State) (b : Byte) (bits : Bits) : State :=
  match s.dir with
  | .encode => s.withBw (s.bw.emit b)
  | .decode => s.withBr { s.br with rq := s.br.rq ++ bits, ffpend := ffAfter b }

/-- A Golomb-Rice codeword: its bits written, or its mapped value assembled into M (R95, R96). -/
def State.golombWord (s : State) (bits : Bits) (m : Nat) : State :=
  match s.dir with
  | .encode => s.withBw (s.bw.put bits)
  | .decode => { s with m := m }

/-- `B8` (R91). -/
def execB8 (b : BitVec 8) (s : State) : Outcome State Fault Refusal :=
  .next (s.byteFormat b (bitsOf 8 b.toNat))

/-- `B7` (R91): bit 7 is the stuffed 0. DESIGN CHOICE (notes/assumptions/17.md): the row's field has seven bits, so a byte
0xFF after a byte 0xFF, which no encoder produces (R91, R103), is `B7` 0x7F here and leaves the flag 0, where a reader
that fetches that byte from IN sets it (R125). -/
def execB7 (b : BitVec 7) (s : State) : Outcome State Fault Refusal :=
  .next (s.byteFormat (b.setWidth 8) (bitsOf 7 b.toNat))

/-- `GR` (R95): `m = (h << k) + low`. -/
def execGr (k _limit h low : Nat) (s : State) : Outcome State Fault Refusal :=
  .next (s.golombWord (unary h ++ bitsOf k low) (h <<< k + low))

/-- `ESC` (R96): `m = v + 1`. -/
def execEsc (limit : Nat) (v : BitVec 16) (s : State) : Outcome State Fault Refusal :=
  .next (s.golombWord (unary (escThreshold limit) ++ bitsOf Config.qbpp v.toNat) (v.toNat + 1))

/-- `RUNHIT` (R97). Decoding, a run that reaches the end of the row ends with eol. -/
def execRunhit (s : State) : Outcome State Fault Refusal :=
  match s.dir with
  | .encode => .next s.encodeHit
  | .decode =>
    let s := s.decodeHit (s.w - s.x)
    .next (if s.idx = s.w - s.x then { s with r := s.idx, eol := true } else s)

/-- `RUNTERM` (R98). -/
def execRunterm (j r : Nat) (s : State) : Outcome State Fault Refusal :=
  match s.dir with
  | .encode => .next (s.withBw (s.bw.put (false :: bitsOf j r)))
  | .decode => (s.decodeTerm (s.w - s.x) r).outcome fun _ s => s

end Sys2Proof.Machine
end

