-- ==== Sys2Proof/Machine/Driver.lean ====
section
/-! DEFINITION. Which operation a step performs: the one issued by name, or, while STATUS = BUSY, the next of the loops of
SCAN.ENCODE and SCAN.DECODE (spec R190, R210). -/

namespace Sys2Proof.Machine

/-- The scan driver's next operation (R190, R210): while Y < ROWS a row is started, stepped through while X < WIDTH, and
ended; then the scan is ended. The driver acts only while STATUS = BUSY (R22, R237). -/
def State.driverNext (s : State) : Option Instr :=
  match s.status with
  | .busy =>
    if s.rowOpen then
      if s.x < s.w then
        match s.dir with
        | .encode => some .encStep
        | .decode => some .decStep
      else some .rowEnd
    else if s.y < s.rows then some .rowStart
    else
      match s.dir with
      | .encode => some .encEnd
      | .decode => some .decEnd
  | .idle => none
  | .done => none
  | .fault => none

/-- The instruction a step performs and the state it performs it in: an issued operation is taken from its place. -/
def State.fetch (s : State) : Option (Instr × State) :=
  match s.issued with
  | some i => some (i, { s with issued := none })
  | none => (s.driverNext).map fun i => (i, s)

/-- Place an operation where the next step takes it (R239: a host issues a command). -/
def State.issue (s : State) (i : Instr) : State := { s with issued := some i }

end Sys2Proof.Machine
end

