-- ==== Sys2Proof/Machine/Golomb.lean ====
section
/-! DEFINITION. The Golomb-Rice coding primitive with escape as instructions (spec/45_golomb_rice.md). -/

namespace Sys2Proof.Machine

open Host (Outcome)

/-- `GR.ENC k, m, limit` (R180). In the escape form an m above 65536 leaves the low 16 bits of m − 1, all that
`BW.WRITEBIN` uses of its operand (R121; DEDUCED, notes/assumptions/20.md). -/
def execGrEnc (k m limit : Nat) (s : State) : Outcome State Fault Refusal :=
  .next (s.withBw (s.bw.writeGolomb k m limit))

/-- `GR.DEC k, limit -> m` (R181); writes M (R24). -/
def execGrDec (k limit : Nat) (s : State) : Outcome State Fault Refusal :=
  (s.reads fun inp size => readGolomb inp size k limit).outcome fun m s => { s with m := m, ret := [(m : Int)] }

end Sys2Proof.Machine
end

