-- ==== Sys2Proof/Machine/Dispatch.lean ====
section
/-! DEFINITION. One arm per instruction, each a direct call of its meaning. -/

namespace Sys2Proof.Machine

def exec (i : Instr) (s : State) : Host.Outcome State Fault Refusal :=
  match i with
  | .b8 b => Sys2Proof.Machine.execB8 b s
  | .b7 b => Sys2Proof.Machine.execB7 b s
  | .gr k limit h low => Sys2Proof.Machine.execGr k limit h low s
  | .esc limit v => Sys2Proof.Machine.execEsc limit v s
  | .runhit => Sys2Proof.Machine.execRunhit s
  | .runterm j r => Sys2Proof.Machine.execRunterm j r s
  | .bwWritebit b => Sys2Proof.Machine.execBwWritebit b s
  | .bwWritebin v n => Sys2Proof.Machine.execBwWritebin v n s
  | .bwWriteunary n => Sys2Proof.Machine.execBwWriteunary n s
  | .bwDrain => Sys2Proof.Machine.execBwDrain s
  | .bwFlush => Sys2Proof.Machine.execBwFlush s
  | .brReadbit => Sys2Proof.Machine.execBrReadbit s
  | .brReadbin n => Sys2Proof.Machine.execBrReadbin n s
  | .brReadunary => Sys2Proof.Machine.execBrReadunary s
  | .quant d => Sys2Proof.Machine.execQuant d s
  | .ctxid ra rb rc rd => Sys2Proof.Machine.execCtxid ra rb rc rd s
  | .ctxsel q => Sys2Proof.Machine.execCtxsel q s
  | .predict ra rb rc => Sys2Proof.Machine.execPredict ra rb rc s
  | .corrpred p c sign => Sys2Proof.Machine.execCorrpred p c sign s
  | .modrange d => Sys2Proof.Machine.execModrange d s
  | .errval x px sign => Sys2Proof.Machine.execErrval x px sign s
  | .recon px e sign => Sys2Proof.Machine.execRecon px e sign s
  | .rcInit => Sys2Proof.Machine.execRcInit s
  | .rcGetk ci => Sys2Proof.Machine.execRcGetk ci s
  | .rcGetcorr ci k => Sys2Proof.Machine.execRcGetcorr ci k s
  | .maperr e => Sys2Proof.Machine.execMaperr e s
  | .unmaperr m => Sys2Proof.Machine.execUnmaperr m s
  | .rcUpdate ci e => Sys2Proof.Machine.execRcUpdate ci e s
  | .riInit => Sys2Proof.Machine.execRiInit s
  | .riSelect ra rb => Sys2Proof.Machine.execRiSelect ra rb s
  | .riErrval x ra rb => Sys2Proof.Machine.execRiErrval x ra rb s
  | .riGetk t => Sys2Proof.Machine.execRiGetk t s
  | .riMap t e k => Sys2Proof.Machine.execRiMap t e k s
  | .riEmerr t e k => Sys2Proof.Machine.execRiEmerr t e k s
  | .riUnmap t em k => Sys2Proof.Machine.execRiUnmap t em k s
  | .riUpdate t e em => Sys2Proof.Machine.execRiUpdate t e em s
  | .riRecon ra rb e => Sys2Proof.Machine.execRiRecon ra rb e s
  | .grEnc k m limit => Sys2Proof.Machine.execGrEnc k m limit s
  | .grDec k limit => Sys2Proof.Machine.execGrDec k limit s
  | .scanEncode width rows => Sys2Proof.Machine.execScanEncode width rows s
  | .scanInit => Sys2Proof.Machine.execScanInit s
  | .rowStart => Sys2Proof.Machine.execRowStart s
  | .nbrFetch => Sys2Proof.Machine.execNbrFetch s
  | .encStep => Sys2Proof.Machine.execEncStep s
  | .encRegular => Sys2Proof.Machine.execEncRegular s
  | .encRun => Sys2Proof.Machine.execEncRun s
  | .encRunlen r eol => Sys2Proof.Machine.execEncRunlen r eol s
  | .runidxInc => Sys2Proof.Machine.execRunidxInc s
  | .runidxDec => Sys2Proof.Machine.execRunidxDec s
  | .encRipixel => Sys2Proof.Machine.execEncRipixel s
  | .rowEnd => Sys2Proof.Machine.execRowEnd s
  | .encEnd => Sys2Proof.Machine.execEncEnd s
  | .scanDecode width rows size => Sys2Proof.Machine.execScanDecode width rows size s
  | .decStep => Sys2Proof.Machine.execDecStep s
  | .decRunlen rem0 => Sys2Proof.Machine.execDecRunlen rem0 s
  | .decRegular => Sys2Proof.Machine.execDecRegular s
  | .decRun => Sys2Proof.Machine.execDecRun s
  | .decRipixel => Sys2Proof.Machine.execDecRipixel s
  | .decEnd => Sys2Proof.Machine.execDecEnd s

end Sys2Proof.Machine
end

