-- ==== Sys2Proof/Machine/Step.lean ====
section
/-! DEFINITION. One step of the machine. -/

namespace Sys2Proof.Machine

/-- One step: the operation issued by name, or the scan driver's next (`State.fetch`), is performed; an operand outside
its rule's range is refused. With nothing issued and no scan under way the block does nothing (R250). -/
def step (s : State) : Host.Outcome State Fault Refusal :=
  match s.fetch with
  | some (i, s') => if i.wf then exec i s' else .refused (.operandRange i.mnemonic)
  | none => .next s

/-- The instruction the decoder reads from a table word, placed where the next step takes it. -/
def State.withFetchWord (s : State) (nbits w : Nat) : State :=
  match Sys2Proof.decodeTableWord nbits w with
  | some i => s.issue i
  | none => s

end Sys2Proof.Machine
end

