-- ==== Sys2Proof/Safety.lean ====
section
/-! DEFINITION. The terms claims are stated in: the bit sequences a writer has taken and a reader will give, the invariants
of the context files (R27, R29, R167), of the writer (R32, R123), of the scan position (R23) and of the bytes produced
(R107, R129), and when a decoder's state mirrors an encoder's (R217). -/

namespace Sys2Proof.Machine

/-- Every 0xFF that has a byte after it is followed by a byte below 0x80 (R107, R129). -/
def markerFree : List Byte → Bool
  | a :: b :: bs => (a ≠ 0xFF || b.toNat < 128) && markerFree (b :: bs)
  | [_] => true
  | [] => true

/-- All bits written so far: those in SINK, the stuffed bits removed, then those still queued (R32). -/
def Writer.stream (w : Writer) : Bits := unstuff w.sink ++ w.wq

/-- `BW.FFPEND` is 1 exactly when the last byte appended to SINK was 0xFF (R32). -/
def Writer.flagOk (w : Writer) : Bool := w.ffpend = (w.sink.getLast? = some 0xFF)

/-- Nothing drainable is queued, as between operations in the canonical schedule (R123). -/
def Writer.drained (w : Writer) : Bool := w.wq.length < needBits w.ffpend

/-- A writer after bits s were written to w and drained: the bits follow those written before, nothing drainable is queued,
SINK has only grown, and no marker has appeared in it (R61, R107, R120 to R123). -/
def Writer.Wrote (w : Writer) (s : Bits) (v : Writer) : Prop :=
  v.stream = w.stream ++ s ∧ v.drained = true ∧ v.flagOk = true ∧ w.sink <+: v.sink ∧
    (markerFree w.sink = true → markerFree v.sink = true)

/-- The bytes of IN not fetched yet: `IN[POS..SIZE-1]` (R33). -/
def Reader.unread (inp : Space 8) (size : Nat) (r : Reader) : List Byte :=
  (List.range' r.pos (size - r.pos)).map (readCell inp)

/-- All bits the reader will give: those fetched and unconsumed, then those of the bytes not fetched yet (R33, R128). -/
def Reader.pending (inp : Space 8) (size : Nat) (r : Reader) : Bits :=
  r.rq ++ unstuffFrom r.ffpend (r.unread inp size)

/-- All bits the machine's reader will give. -/
def State.pending (s : State) : Bits := s.br.pending s.inp s.size

/-- The mapped value a Golomb-Rice codeword carries (R95, R96); no other instruction carries one. -/
def golombValue : Instr → Nat
  | .gr k _ h low => h * 2 ^ k + low
  | .esc _ v => v.toNat + 1
  | _ => 0

/-- The run samples that n full chunks stand for, from run index i on (R97). -/
def chunkSum (i : Fin 32) (n : Nat) : Nat := ∑ j ∈ Finset.range n, chunk (indexInc^[j] i)

/-- The invariant of a regular context (R27). -/
def RegCtx.Inv (c : RegCtx) : Prop :=
  1 ≤ c.n.toInt ∧ c.n.toInt ≤ 64 ∧ -c.n.toInt < c.b.toInt ∧ c.b.toInt ≤ 0 ∧ 0 ≤ c.a.toInt

/-- The bound on A that residuals of magnitude at most 32768 keep (R167); it is below 2^22 while N <= 64. -/
def RegCtx.Bounded (c : RegCtx) : Prop := c.a.toInt ≤ 1024 + 32768 * (c.n.toInt - 1)

/-- The invariant of run-interruption context t (R28, R29). -/
def RunCtx.Inv (c : RunCtx) (t : Fin 2) : Prop :=
  1 ≤ c.n.toInt ∧ c.n.toInt ≤ 64 ∧ 0 ≤ c.nn.toInt ∧ c.nn.toInt ≤ c.n.toInt - 1 ∧ 0 ≤ c.a.toInt ∧
    c.rItype = t ∧ c.resetThreshold.toInt = 64

/-- The bound on A that mapped values of at most 65536 keep (R29). -/
def RunCtx.Bounded (c : RunCtx) : Prop := c.a.toInt ≤ 1024 + 32768 * (c.n.toInt - 1)

/-- The invariant of the machine's data: both context files, the canonical form of every memory space, the writer's flag
and its queue of at most seven bits. Every instruction keeps it, but for one that raises a fault, after which nothing is
claimed (R237). -/
def State.Inv (s : State) : Prop :=
  (∀ i, (s.reg.get i).Inv) ∧ (∀ t, (s.ri.get t).Inv t) ∧ Memory.wf s = true ∧
    s.bw.flagOk = true ∧ s.bw.wq.length ≤ 7

/-- Every context is within the bound of valid residuals. -/
def State.Bounded (s : State) : Prop := (∀ i, (s.reg.get i).Bounded) ∧ ∀ t, (s.ri.get t).Bounded

/-- Nothing but a command waits to be performed, as with a host that only issues commands (R239). -/
def State.HostLegal (s : State) : Prop := ∀ i, s.issued = some i → i.isCommand = true

/-- The invariant of a machine whose host only issues commands: the position is in the image (R23), a row is open only
below ROWS, and, unless the last scan ended in a fault (R237), the data invariant holds, an encode keeps its contexts
bounded, and the writer is drained and has put no marker into SINK (R107). -/
def State.ScanInv (s : State) : Prop :=
  Memory.wf s = true ∧ s.HostLegal ∧ s.x ≤ s.w ∧ s.y ≤ s.rows ∧
    (s.status ≠ .fault → s.Inv ∧ s.bw.drained = true ∧ markerFree s.bw.sink = true) ∧
    (s.status = .busy → s.mode = .regular ∧ 1 ≤ s.w ∧ (s.rowOpen = true → s.y < s.rows)) ∧
    (s.status = .busy → s.dir = .encode → s.Bounded) ∧
    (s.status = .done → s.dir = .encode → s.bw.wq = [] ∧ s.bw.ffpend = false)

/-- The result an operation returned, where it returns one. -/
def State.result (s : State) : Int := s.ret.headD 0

/-- One operation after another: nothing follows a raised fault or a stop (R70, R237). -/
def thenDo (o : Host.Outcome State Fault Refusal) (f : State → Host.Outcome State Fault Refusal) :
    Host.Outcome State Fault Refusal :=
  match o with
  | .next t => if t.status = .fault then .next t else f t
  | .fault e => .fault e
  | .refused r => .refused r

/-- The operation raises this fault with this information value (R237). -/
def Raises (o : Host.Outcome State Fault Refusal) (kind : FaultKind) (info : Nat) : Prop :=
  ∃ t, o = .next t ∧ t.status = .fault ∧ t.faultKind = kind ∧ t.faultInfo = info

/-- Two outcomes are the same as far as a claim may say: after a raised fault only the status registers count (R237),
and the place of returned results, the model's own, never does. -/
def Agrees : Host.Outcome State Fault Refusal → Host.Outcome State Fault Refusal → Prop
  | .next t, .next u =>
    t.status = u.status ∧ (t.status = .fault → t.faultKind = u.faultKind ∧ t.faultInfo = u.faultInfo) ∧
      (t.status ≠ .fault → t.withRet [] = u.withRet [])
  | .fault e, .fault e' => e = e'
  | .refused r, .refused r' => r = r'
  | _, _ => False

/-- A decoder's state mirrors an encoder's (R217): same parameters, position, contexts, run index and row above, and the
same samples of the row so far, the left border among them. -/
def State.Mirrors (d s : State) : Prop :=
  d.width = s.width ∧ d.rows = s.rows ∧ d.y = s.y ∧ d.x = s.x ∧ d.mode = s.mode ∧ d.rowOpen = s.rowOpen ∧
    d.reg = s.reg ∧ d.ri = s.ri ∧ d.runIndex = s.runIndex ∧
    (∀ i : Int, -1 ≤ i → i ≤ s.w → d.prevAt i = s.prevAt i) ∧ ∀ i : Int, -1 ≤ i → i < s.x → d.curAt i = s.curAt i

end Sys2Proof.Machine
end

