-- ==== Sys2Proof/Certificates/Slice0/Obligations.lean ====
section
/-! DEFINITION. The statements for the provers, from the numbered rules of spec/. Where a statement says what an operation
returns, it says so of the field `ret`, the model's own place for results (notes/assumptions/3.md); where it speaks of an
operation run by name, of the model's way of issuing one (notes/assumptions/2.md). -/

open Sys2Proof Sys2Proof.Machine

/-! ## Encodings -/

/-- Words written out bit by bit from R91 and R95 to R98 decode to the instructions they stand for. -/
def Obligations.CodewordSamples : Prop :=
  decode (.byte false) [false, false, true, true, true, true, true, false] = .ok (.b8 0x3E, []) ∧
    decode (.byte true) [false, true, false, false, false, false, false, false] = .ok (.b7 0x40, []) ∧
    decode (.byte true) [true, true, false, false, false, false, false, false] = .ok (.b7 0x40, []) ∧
    decode (.golomb 10 63) [false, true, true, true, true, true, false, false, true, true, true, true] =
      .ok (.gr 10 63 1 975, []) ∧
    decode (.golomb 0 48) (List.replicate 31 false ++ [true, false, false, false, false, false, false, false, false, false,
      false, false, true, true, true, true, false]) = .ok (.esc 48 30, []) ∧
    decode (.run 3) [false, true, true, true] = .ok (.runterm 3 7, []) ∧
    decode (.run 3) [true] = .ok (.runhit, [])

/-- Every well-formed instruction that has bits is decoded from them, in every context that admits it, and the bits after
them are left (R91, R95 to R98, R101). -/
def Obligations.DecodeInvertsEncode : Prop :=
  ∀ (c : Expect) (i : Instr) (bits rest : Bits), c.admits i = true → i.wf = true → encode i = some bits →
    decode c (bits ++ rest) = .ok (i, rest)

/-- What is decoded was encoded there, but for what R103 tolerates: bit 7 of a `B7` byte, and a unary prefix longer than
that of `ESC`. Nothing else is reserved: bits that do not decode only end too early. -/
def Obligations.DecodedBitsAreAnEncoding : Prop :=
  (∀ (ff : Bool) (s rest : Bits) (i : Instr), decode (.byte ff) s = .ok (i, rest) →
    (Expect.byte ff).admits i = true ∧
      ∃ b w, s = b :: (w ++ rest) ∧ encode i = some ((if ff then false else b) :: w)) ∧
  (∀ (k limit : Nat) (s rest : Bits) (i : Instr), k ≤ 32 → limitOk limit = true →
    decode (.golomb k limit) s = .ok (i, rest) →
    (Expect.golomb k limit).admits i = true ∧ i.wf = true ∧
      ∃ w extra, s = List.replicate extra false ++ w ++ rest ∧ encode i = some w ∧
        (extra ≠ 0 → ∃ v, i = .esc limit v)) ∧
  (∀ (j : Nat) (s rest : Bits) (i : Instr), j ≤ 15 → decode (.run j) s = .ok (i, rest) →
    (Expect.run j).admits i = true ∧ i.wf = true ∧ ∃ w, s = w ++ rest ∧ encode i = some w) ∧
  ∀ (c : Expect) (s : Bits), ∃ more i rest, decode c (s ++ more) = .ok (i, rest)

/-! ## The byte layer, the writer and the reader -/

/-- `Unstuff(Stuff(B))` is B and at most seven zero bits; every 0xFF in `Stuff(B)` is followed by a byte below 0x80, and
the last byte is not 0xFF (the laws R128 and R129 derive). -/
def Obligations.StuffingLaws : Prop :=
  ∀ b : Bits, (∃ p ≤ 7, unstuff (stuff b) = b ++ List.replicate p false) ∧ markerFree (stuff b) = true ∧
    (stuff b).getLast? ≠ some 0xFF

/-- However bits are cut into writes, SINK after `BW.FLUSH` is `Stuff` of all of them (R128, R123). -/
def Obligations.FlushedWriterHoldsStuff : Prop :=
  ∀ (s t : State) (ws : List Bits), s.bw = { wq := [], ffpend := false, sink := [] } →
    exec .bwFlush { s with bw := ws.foldl Writer.put s.bw } = .next t → t.bw.sink = stuff ws.flatten ∧ t.bw.wq = []

/-- The three writes append their bits to the queue and then drain (R120, R121, R122): as written there, and as it shows
in the stream. -/
def Obligations.WritesAppendTheirBits : Prop :=
  ∀ s : State,
    (∀ b, exec (.bwWritebit b) s = exec .bwDrain { s with bw := { s.bw with wq := s.bw.wq ++ [b] } }) ∧
    (∀ v n, n ≤ 32 →
      exec (.bwWritebin v n) s = exec .bwDrain { s with bw := { s.bw with wq := s.bw.wq ++ bitsOf n (v % 2 ^ n) } }) ∧
    (∀ n, exec (.bwWriteunary n) s =
      exec .bwDrain { s with bw := { s.bw with wq := s.bw.wq ++ (List.replicate n false ++ [true]) } }) ∧
    (s.bw.flagOk = true →
      (∀ b, ∃ w, exec (.bwWritebit b) s = .next { s with bw := w } ∧ s.bw.Wrote [b] w) ∧
      (∀ v n, n ≤ 32 → ∃ w, exec (.bwWritebin v n) s = .next { s with bw := w } ∧ s.bw.Wrote (bitsOf n v) w) ∧
      ∀ n, ∃ w, exec (.bwWriteunary n) s = .next { s with bw := w } ∧
        s.bw.Wrote (List.replicate n false ++ [true]) w)

/-- `BW.DRAIN` (R123): with fewer than `need` bits queued it does nothing; otherwise it forms a byte of the first `need`
bits, sets FFPEND by it, and goes on; it ends with fewer than `need` bits queued. -/
def Obligations.DrainFormsBytes : Prop :=
  ∀ s : State,
    (s.bw.wq.length < (if s.bw.ffpend then 7 else 8) → exec .bwDrain s = .next s) ∧
    (∀ (q rest : Bits) (b : Byte), s.bw.wq = q ++ rest → q.length = (if s.bw.ffpend then 7 else 8) →
      b = BitVec.ofNat 8 (valOf q) →
      exec .bwDrain s =
        exec .bwDrain { s with bw := { wq := rest, ffpend := decide (b = 0xFF), sink := s.bw.sink ++ [b] } }) ∧
    ∃ w, exec .bwDrain s = .next { s with bw := w } ∧ w.wq.length < (if w.ffpend then 7 else 8)

/-- `BW.FLUSH` (R124): after `BW.DRAIN`, queued bits are padded with zeros to a byte, or a final 0xFF is followed by 0x00;
the queue is empty, FFPEND is 0, and SINK does not end in 0xFF. -/
def Obligations.FlushPadsAndStuffs : Prop :=
  ∀ s : State, ∃ (d : Writer) (tail : List Byte), exec .bwDrain s = .next { s with bw := d } ∧
    exec .bwFlush s = .next { s with bw := { wq := [], ffpend := false, sink := d.sink ++ tail } } ∧
    (d.wq ≠ [] → tail = [BitVec.ofNat 8
      (valOf (d.wq ++ List.replicate ((if d.ffpend then 7 else 8) - d.wq.length) false))]) ∧
    (d.wq = [] → d.ffpend = true → tail = [0x00]) ∧ (d.wq = [] → d.ffpend = false → tail = []) ∧
    (s.bw.flagOk = true → (d.sink ++ tail).getLast? ≠ some 0xFF)

/-- The pseudo-operations of R106, a long unary code in any split into zeros and a shorter unary code. -/
def Obligations.PseudoOperationsAgree : Prop :=
  ∀ s : State,
    (∀ b, exec (.bwWritebit b) s = exec (.bwWritebin b.toNat 1) s) ∧
    (∀ n, n + 1 ≤ 32 → exec (.bwWriteunary n) s = exec (.bwWritebin 1 (n + 1)) s) ∧
    (∀ n m, m ≤ 32 → m ≤ n → s.status ≠ .fault →
      exec (.bwWriteunary n) s = thenDo (exec (.bwWritebin 0 m) s) (exec (.bwWriteunary (n - m)))) ∧
    exec .brReadbit s = exec (.brReadbin 1) s

/-- The three reads (R125, R126, R127): a fetched bit; the first bit of the next byte, whose bit 7 is dropped after 0xFF;
the fault where no bit is left; a number of n bits; the zeros before the next 1. -/
def Obligations.ReadsTakeTheNextBits : Prop :=
  ∀ s : State,
    (∀ b q, s.br.rq = b :: q →
      exec .brReadbit s = .next { s with br := { s.br with rq := q }, ret := [(b.toNat : Int)] }) ∧
    (∀ (byte : Byte) b q, s.br.rq = [] → s.br.pos < s.size → byte = readCell s.inp s.br.pos →
      (if s.br.ffpend then bitsOf 7 (byte.toNat % 128) else bitsOf 8 byte.toNat) = b :: q →
      exec .brReadbit s = .next { s with
        br := { rq := q, ffpend := decide (byte = 0xFF), pos := s.br.pos + 1 }, ret := [(b.toNat : Int)] }) ∧
    (s.br.rq = [] → s.size ≤ s.br.pos → Raises (exec .brReadbit s) .unexpectedEndOfStream s.br.pos) ∧
    exec (.brReadbin 0) s = .next { s with ret := [0] } ∧
    (∀ (n : Nat) (v rest : Bits), n ≤ 32 → v.length = n → s.pending = v ++ rest →
      ∃ r, exec (.brReadbin n) s = .next { s with br := r, ret := [(valOf v : Int)] } ∧
        r.pending s.inp s.size = rest) ∧
    (∀ n, n ≤ 32 → s.pending.length < n → s.br.pos ≤ s.size →
      Raises (exec (.brReadbin n) s) .unexpectedEndOfStream s.size) ∧
    (∀ (n : Nat) (rest : Bits), s.pending = List.replicate n false ++ true :: rest →
      ∃ r, exec .brReadunary s = .next { s with br := r, ret := [(n : Int)] } ∧ r.pending s.inp s.size = rest) ∧
    (true ∉ s.pending → s.br.pos ≤ s.size → Raises (exec .brReadunary s) .unexpectedEndOfStream s.size)

/-! ## Quantizer and context id -/

/-- `QUANT`, `CTXID` and `CTXSEL` (R141, R143, R144). -/
def Obligations.ContextIdOperations : Prop :=
  ∀ s : State,
    (∀ d : Int, -65535 ≤ d → d ≤ 65535 → ∃ q : Int, exec (.quant d) s = .next { s with ret := [q] } ∧
      (d ≤ -276 → q = -4) ∧ (-276 < d → d ≤ -67 → q = -3) ∧ (-67 < d → d ≤ -18 → q = -2) ∧ (-18 < d → d < 0 → q = -1) ∧
      (d = 0 → q = 0) ∧ (0 < d → d < 18 → q = 1) ∧ (18 ≤ d → d < 67 → q = 2) ∧ (67 ≤ d → d < 276 → q = 3) ∧
      (276 ≤ d → q = 4)) ∧
    (∀ ra rb rc rd : Sample, ∃ q1 q2 q3 : Int,
      exec (.quant ((rd.toNat : Int) - rb.toNat)) s = .next { s with ret := [q1] } ∧
      exec (.quant ((rb.toNat : Int) - rc.toNat)) s = .next { s with ret := [q2] } ∧
      exec (.quant ((rc.toNat : Int) - ra.toNat)) s = .next { s with ret := [q3] } ∧
      exec (.ctxid ra rb rc rd) s =
        .next { s with q := (q1 * 9 + q2) * 9 + q3, ret := [(q1 * 9 + q2) * 9 + q3] }) ∧
    ∀ q : Int, -364 ≤ q → q ≤ 364 → ∃ i : Fin 365, (i.val : Int) = |q| ∧
      exec (.ctxsel q) s = .next { s with
        sign := if q < 0 then .minus else .plus, ci := i, ret := [if q < 0 then -1 else 1, |q|] }

/-- The laws R141, R143 and R145 derive: `QUANT` is odd, non-decreasing and zero only at zero; the context id is in
[-364, 364], tells the three levels apart, and is zero exactly when the four samples are equal; negating the samples
negates the context id and keeps the context index. -/
def Obligations.ContextIdLaws : Prop :=
  (∀ d, quantize (-d) = -quantize d) ∧ (∀ d d', d ≤ d' → quantize d ≤ quantize d') ∧
  (∀ d, quantize d = 0 ↔ d = 0) ∧
  (∀ a b c d : Sample, -364 ≤ contextId a b c d ∧ contextId a b c d ≤ 364 ∧
    (contextId a b c d = 0 ↔ a = b ∧ b = c ∧ c = d)) ∧
  (∀ a b c d a' b' c' d' : Sample, contextId a b c d = contextId a' b' c' d' →
    quantize (sampleInt d - sampleInt b) = quantize (sampleInt d' - sampleInt b') ∧
    quantize (sampleInt b - sampleInt c) = quantize (sampleInt b' - sampleInt c') ∧
    quantize (sampleInt c - sampleInt a) = quantize (sampleInt c' - sampleInt a')) ∧
  ∀ a b c d : Sample, contextId (65535 - a) (65535 - b) (65535 - c) (65535 - d) = -contextId a b c d ∧
    contextIndex (contextId (65535 - a) (65535 - b) (65535 - c) (65535 - d)) = contextIndex (contextId a b c d)

/-! ## Predictor -/

/-- `PREDICT` and `CORRPRED` (R150, R151). -/
def Obligations.PredictAndCorrect : Prop :=
  ∀ s : State,
    (∀ ra rb rc : Sample, ∃ p : Sample, exec (.predict ra rb rc) s = .next { s with ret := [(p.toNat : Int)] } ∧
      (max ra.toNat rb.toNat ≤ rc.toNat → p.toNat = min ra.toNat rb.toNat) ∧
      (rc.toNat < max ra.toNat rb.toNat → rc.toNat ≤ min ra.toNat rb.toNat → p.toNat = max ra.toNat rb.toNat) ∧
      (rc.toNat < max ra.toNat rb.toNat → min ra.toNat rb.toNat < rc.toNat →
        (p.toNat : Int) = ra.toNat + rb.toNat - rc.toNat)) ∧
    ∀ (p : Sample) (c : BitVec 8) (sign : Sign), ∃ px : Sample,
      exec (.corrpred p c sign) s = .next { s with px := px, ret := [(px.toNat : Int)] } ∧
      (px.toNat : Int) = max 0 (min 65535 (p.toNat + sign.toInt * c.toInt))

/-- `MODRANGE`, `ERRVAL` and `RECON` (R152, R153, R154). -/
def Obligations.ResidualAndReconstruction : Prop :=
  ∀ s : State,
    (∀ d : Int, ∃ e : Int, exec (.modrange d) s = .next { s with ret := [e] } ∧ -32768 ≤ e ∧ e ≤ 32767 ∧
      e % 65536 = d % 65536) ∧
    (∀ (x px : Sample) (sign : Sign), ∃ e : Int,
      exec (.modrange (sign.toInt * ((x.toNat : Int) - px.toNat))) s = .next { s with ret := [e] } ∧
      exec (.errval x px sign) s = .next { s with e := e, ret := [e] }) ∧
    ∀ (px : Sample) (e : Int) (sign : Sign), ∃ v : Sample,
      exec (.recon px e sign) s = .next { s with ret := [(v.toNat : Int)] } ∧
      (v.toNat : Int) = (px.toNat + sign.toInt * e) % 65536

/-- Reconstruction inverts the residual, in regular mode and at a run interruption (the laws of R154 and R178). -/
def Obligations.ReconstructionInvertsResidual : Prop :=
  ∀ s : State,
    (∀ (x px : Sample) (sign : Sign), ∃ t u, exec (.errval x px sign) s = .next t ∧ -32768 ≤ t.e ∧ t.e ≤ 32767 ∧
      exec (.recon px t.e sign) t = .next u ∧ u.result = x.toNat) ∧
    ∀ x ra rb : Sample, ∃ t u, exec (.riErrval x ra rb) s = .next t ∧ -32768 ≤ t.e ∧ t.e ≤ 32767 ∧
      (ra = rb → x ≠ ra → t.e ≠ 0) ∧ exec (.riRecon ra rb t.e) t = .next u ∧ u.result = x.toNat

/-! ## The context files -/

/-- `RC.INIT` and `RI.INIT` (R160, R170). -/
def Obligations.InitCreatesContexts : Prop :=
  ∀ s : State,
    (∃ f : Vector RegCtx 365, exec .rcInit s = .next { s with reg := f } ∧ ∀ i : Fin 365,
      (f.get i).a.toInt = 1024 ∧ (f.get i).b.toInt = 0 ∧ (f.get i).c.toInt = 0 ∧ (f.get i).n.toInt = 1) ∧
    ∃ f : Vector RunCtx 2, exec .riInit s = .next { s with ri := f } ∧ ∀ t : Fin 2,
      (f.get t).a.toInt = 1024 ∧ (f.get t).n.toInt = 1 ∧ (f.get t).nn.toInt = 0 ∧ (f.get t).rItype = t ∧
        (f.get t).resetThreshold.toInt = 64

/-- `RC.GETK` and `RI.GETK` (R161, R173) with a count of at least 1 (R256): the least k of their search. -/
def Obligations.GolombParameterIsLeast : Prop :=
  ∀ s : State,
    (∀ i : Fin 365, 1 ≤ (s.reg.get i).n.toInt → ∃ k : Nat,
      exec (.rcGetk i) s = .next { s with k := k, ret := [(k : Int)] } ∧
      (s.reg.get i).a.toInt ≤ (s.reg.get i).n.toInt * 2 ^ k ∧
      ∀ j < k, (s.reg.get i).n.toInt * 2 ^ j < (s.reg.get i).a.toInt) ∧
    ∀ t : Fin 2, 1 ≤ (s.ri.get t).n.toInt → ∃ k : Nat,
      exec (.riGetk t) s = .next { s with k := k, ret := [(k : Int)] } ∧
      (s.ri.get t).a.toInt + (s.ri.get t).n.toInt / 2 * t.val ≤ (s.ri.get t).n.toInt * 2 ^ k ∧
      ∀ j < k, (s.ri.get t).n.toInt * 2 ^ j < (s.ri.get t).a.toInt + (s.ri.get t).n.toInt / 2 * t.val

/-- `RC.GETCORR`, `MAPERR` and `UNMAPERR` (R162, R163, R164). -/
def Obligations.CorrectionAndMapping : Prop :=
  ∀ s : State,
    (∀ (i : Fin 365) (k : Nat), exec (.rcGetcorr i k) s = .next { s with
      ret := [if k ≠ 0 then 0 else if 2 * (s.reg.get i).b.toInt + (s.reg.get i).n.toInt - 1 < 0 then 1 else 0] }) ∧
    (∀ e : Int, exec (.maperr e) s = .next { s with
      m := if 0 ≤ e then 2 * e else -2 * e - 1, ret := [if 0 ≤ e then 2 * e else -2 * e - 1] }) ∧
    ∀ m : Nat, ∃ e : Int, exec (.unmaperr m) s = .next { s with e := e, ret := [e] } ∧
      (m % 2 = 0 → 2 * e = m) ∧ (m % 2 = 1 → 2 * e = -(m + 1 : Int))

/-- `MAPERR` and `UNMAPERR` invert each other, and flipping bit 0 of a mapped value maps −e − 1 (the laws of R164 and
R168); with the correction applied a 16-bit residual still maps into 16 bits. -/
def Obligations.ResidualMappingLaws : Prop :=
  (∀ e, unmapErr (mapErr e) = e) ∧ (∀ m, mapErr (unmapErr m) = m) ∧ (∀ e, mapErr e ^^^ 1 = mapErr (-e - 1)) ∧
    ∀ e c, -32768 ≤ e → e ≤ 32767 → c ≤ 1 → mapErr e ^^^ c ≤ 65535

/-- `RC.UPDATE` (R165), with a count that can still be incremented: the five steps, and the fault where A + abs(e) or B + e
leaves the 32-bit signed range. -/
def Obligations.RcUpdateFiveSteps : Prop :=
  ∀ (s : State) (i : Fin 365) (e a b n : Int),
    1 ≤ (s.reg.get i).n.toInt → (s.reg.get i).n.toInt < 2147483647 →
    a = (if (s.reg.get i).n.toInt = 64 then ((s.reg.get i).a.toInt + |e|) / 2 else (s.reg.get i).a.toInt + |e|) →
    b = (if (s.reg.get i).n.toInt = 64 then ((s.reg.get i).b.toInt + e) / 2 else (s.reg.get i).b.toInt + e) →
    n = (if (s.reg.get i).n.toInt = 64 then (s.reg.get i).n.toInt / 2 + 1 else (s.reg.get i).n.toInt + 1) →
    ((s.reg.get i).a.toInt + |e| ≤ 2147483647 → -2147483648 ≤ (s.reg.get i).b.toInt + e →
      (s.reg.get i).b.toInt + e ≤ 2147483647 →
      ∃ c : RegCtx, exec (.rcUpdate i e) s = .next { s with reg := s.reg.set i c } ∧
        c.a.toInt = a ∧ c.n.toInt = n ∧
        c.b.toInt = (if b + n ≤ 0 then (if b + n ≤ -n then -n + 1 else b + n)
          else if b > 0 then (if b - n > 0 then 0 else b - n) else b) ∧
        c.c.toInt = (if b + n ≤ 0 then max (-128) ((s.reg.get i).c.toInt - 1)
          else if b > 0 then min 127 ((s.reg.get i).c.toInt + 1) else (s.reg.get i).c.toInt)) ∧
    ((s.reg.get i).a.toInt + |e| > 2147483647 ∨ (s.reg.get i).b.toInt + e < -2147483648 ∨
      (s.reg.get i).b.toInt + e > 2147483647 → Raises (exec (.rcUpdate i e) s) .contextOverflow i.val)

/-! ## Run interruption -/

/-- `RI.SELECT`, `RI.ERRVAL` and `RI.RECON` (R171, R172, R178). -/
def Obligations.RunInterruptionResidual : Prop :=
  ∀ (s : State) (ra rb : Sample) (base sg : Int),
    base = (if ra = rb then (ra.toNat : Int) else rb.toNat) → sg = (if rb.toNat < ra.toNat then -1 else 1) →
    exec (.riSelect ra rb) s = .next { s with ret := [if ra = rb then 1 else 0] } ∧
    (∀ x : Sample, ∃ e : Int, exec (.riErrval x ra rb) s = .next { s with e := e, ret := [e, sg] } ∧
      -32768 ≤ e ∧ e ≤ 32767 ∧ e % 65536 = ((x.toNat : Int) - base) * sg % 65536) ∧
    ∀ e : Int, ∃ v : Sample, exec (.riRecon ra rb e) s = .next { s with ret := [(v.toNat : Int)] } ∧
      (v.toNat : Int) = (base + e * sg) % 65536

/-- `RI.MAP`, `RI.EMERR` and `RI.UNMAP` (R174, R175, R176). -/
def Obligations.RunInterruptionMapping : Prop :=
  ∀ (s : State) (t : Fin 2) (k : Nat),
    (∀ e : Int, ∃ map : Int, exec (.riMap t e k) s = .next { s with ret := [map] } ∧
      map = (if k = 0 ∧ e > 0 ∧ 2 * (s.ri.get t).nn.toInt < (s.ri.get t).n.toInt then 1
        else if e < 0 ∧ 2 * (s.ri.get t).nn.toInt ≥ (s.ri.get t).n.toInt then 1 else if e < 0 ∧ k ≠ 0 then 1 else 0) ∧
      exec (.riEmerr t e k) s = .next { s with m := 2 * |e| - t.val - map, ret := [2 * |e| - t.val - map] }) ∧
    ∀ (em temp mp ab c : Nat), temp = em + t.val → mp = temp % 2 → ab = (temp + mp) / 2 →
      c = (if k ≠ 0 ∨ 2 * (s.ri.get t).nn.toInt ≥ (s.ri.get t).n.toInt then 1 else 0) →
      exec (.riUnmap t em k) s = .next { s with
        e := if c = mp then -(ab : Int) else ab, ret := [if c = mp then -(ab : Int) else ab] }

/-- `RI.EMERR` and `RI.UNMAP` are inverse on the same entry and k: a bijection of the integers, the non-zero integers for
t = 1, with the naturals (the law of R179). -/
def Obligations.RunInterruptionMappingIsBijective : Prop :=
  ∀ (s : State) (t : Fin 2) (k : Nat),
    (∀ e : Int, (t = 1 → e ≠ 0) → ∃ (em : Nat) (u v : State), exec (.riEmerr t e k) s = .next u ∧ u.m = em ∧
      exec (.riUnmap t em k) s = .next v ∧ v.e = e) ∧
    ∀ em : Nat, ∃ u v : State, exec (.riUnmap t em k) s = .next u ∧ (t = 1 → u.e ≠ 0) ∧
      exec (.riEmerr t u.e k) s = .next v ∧ v.m = em

/-- `RI.UPDATE` (R177), with counts that can still be incremented. -/
def Obligations.RiUpdateAccumulates : Prop :=
  ∀ (s : State) (t : Fin 2) (e : Int) (em : Nat) (a nn : Int),
    1 ≤ (s.ri.get t).n.toInt → (s.ri.get t).n.toInt < 2147483647 → 0 ≤ (s.ri.get t).nn.toInt →
    (s.ri.get t).nn.toInt < 2147483647 →
    a = (s.ri.get t).a.toInt + ((em : Int) + 1 - t.val) / 2 →
    nn = (s.ri.get t).nn.toInt + (if e < 0 then 1 else 0) →
    (a ≤ 2147483647 → ∃ c : RunCtx, exec (.riUpdate t e em) s = .next { s with ri := s.ri.set t c } ∧
      c.rItype = (s.ri.get t).rItype ∧ c.resetThreshold = (s.ri.get t).resetThreshold ∧
      ((s.ri.get t).n.toInt = (s.ri.get t).resetThreshold.toInt →
        c.a.toInt = a / 2 ∧ c.n.toInt = (s.ri.get t).n.toInt / 2 + 1 ∧ c.nn.toInt = nn / 2) ∧
      ((s.ri.get t).n.toInt ≠ (s.ri.get t).resetThreshold.toInt →
        c.a.toInt = a ∧ c.n.toInt = (s.ri.get t).n.toInt + 1 ∧ c.nn.toInt = nn)) ∧
    (a > 2147483647 → Raises (exec (.riUpdate t e em) s) .contextOverflow (365 + t.val))

/-- The updates keep the invariants R27 and R29 and the bounds of R167 (laws the spec derives): no fault, N in 2..64, A below
2^22; and the Golomb parameter of an entry within them is at most 22. -/
def Obligations.UpdatesKeepContextBounds : Prop :=
  ∀ s : State,
    (∀ (i : Fin 365) (e : Int), (s.reg.get i).Inv → (s.reg.get i).Bounded → |e| ≤ 32768 →
      (∃ k : Nat, exec (.rcGetk i) s = .next { s with k := k, ret := [(k : Int)] } ∧ k ≤ 22) ∧
      ∃ c : RegCtx, exec (.rcUpdate i e) s = .next { s with reg := s.reg.set i c } ∧ c.Inv ∧ c.Bounded ∧
        2 ≤ c.n.toInt ∧ c.a.toInt < 4194304) ∧
    ∀ (t : Fin 2) (e : Int) (em : Nat), (s.ri.get t).Inv t → (s.ri.get t).Bounded → em ≤ 65536 →
      (∃ k : Nat, exec (.riGetk t) s = .next { s with k := k, ret := [(k : Int)] } ∧ k ≤ 22) ∧
      ∃ c : RunCtx, exec (.riUpdate t e em) s = .next { s with ri := s.ri.set t c } ∧ c.Inv t ∧ c.Bounded ∧
        2 ≤ c.n.toInt ∧ c.a.toInt < 4194304

/-- `ContextOverflow` is raised exactly when A + abs(e) or B + e, or A + ((EM + 1 − t) >> 1), leaves the 32-bit range
(R233); of an entry whose counts are in the range of R27 and R29. -/
def Obligations.ContextOverflowExactly : Prop :=
  ∀ s : State, s.status ≠ .fault →
    (∀ (i : Fin 365) (e : Int), 1 ≤ (s.reg.get i).n.toInt → (s.reg.get i).n.toInt ≤ 64 →
      (Raises (exec (.rcUpdate i e) s) .contextOverflow i.val ↔
        ¬((-2147483648 ≤ (s.reg.get i).a.toInt + |e| ∧ (s.reg.get i).a.toInt + |e| ≤ 2147483647) ∧
          -2147483648 ≤ (s.reg.get i).b.toInt + e ∧ (s.reg.get i).b.toInt + e ≤ 2147483647))) ∧
    ∀ (t : Fin 2) (e : Int) (em : Nat), 1 ≤ (s.ri.get t).n.toInt → (s.ri.get t).n.toInt ≤ 64 →
      (Raises (exec (.riUpdate t e em) s) .contextOverflow (365 + t.val) ↔
        ¬(-2147483648 ≤ (s.ri.get t).a.toInt + ((em : Int) + 1 - t.val) / 2 ∧
          (s.ri.get t).a.toInt + ((em : Int) + 1 - t.val) / 2 ≤ 2147483647))

/-! ## Golomb-Rice coding -/

/-- `GR.ENC` (R180): the short form where m >> k is below T, the escape form otherwise. That an m above 65536
runs in the escape form too, its field the low 16 bits of m − 1 as R121 takes them, is read from the pseudocode beyond the
requirement R180 puts on m, the model's choice (notes/assumptions/20.md). -/
def Obligations.GrEncWritesCodeword : Prop :=
  ∀ (s : State) (k m limit : Nat), k ≤ 32 → 48 ≤ limit → limit ≤ 64 →
    (s.status ≠ .fault → m / 2 ^ k < limit - 17 →
      exec (.grEnc k m limit) s = thenDo (exec (.bwWriteunary (m / 2 ^ k)) s) (exec (.bwWritebin (m % 2 ^ k) k))) ∧
    (s.status ≠ .fault → ¬m / 2 ^ k < limit - 17 →
      exec (.grEnc k m limit) s = thenDo (exec (.bwWriteunary (limit - 17)) s) (exec (.bwWritebin (m - 1) 16))) ∧
    (s.bw.flagOk = true → ∃ w, exec (.grEnc k m limit) s = .next { s with bw := w } ∧
      s.bw.Wrote (if m / 2 ^ k < limit - 17 then List.replicate (m / 2 ^ k) false ++ true :: bitsOf k (m % 2 ^ k)
        else List.replicate (limit - 17) false ++ true :: bitsOf 16 (m - 1)) w)

/-- `GR.DEC` (R181): the count of zeros decides the form; a bit that is missing raises the fault. -/
def Obligations.GrDecReadsCodeword : Prop :=
  ∀ (s : State) (k limit : Nat), k ≤ 32 → 48 ≤ limit → limit ≤ 64 →
    (∀ (h : Nat) (v rest : Bits), s.pending = List.replicate h false ++ true :: (v ++ rest) → limit - 17 ≤ h →
      v.length = 16 → ∃ r, exec (.grDec k limit) s = .next { s with
          br := r, m := (valOf v : Int) + 1, ret := [(valOf v : Int) + 1] } ∧ r.pending s.inp s.size = rest) ∧
    (∀ (h : Nat) (v rest : Bits), s.pending = List.replicate h false ++ true :: (v ++ rest) → h < limit - 17 →
      v.length = k → ∃ r, exec (.grDec k limit) s = .next { s with
          br := r, m := (h * 2 ^ k + valOf v : Nat), ret := [((h * 2 ^ k + valOf v : Nat) : Int)] } ∧
        r.pending s.inp s.size = rest) ∧
    (∀ (h : Nat) (short : Bits), s.br.pos ≤ s.size → s.pending = List.replicate h false ++ true :: short →
      short.length < (if limit - 17 ≤ h then 16 else k) →
      Raises (exec (.grDec k limit) s) .unexpectedEndOfStream s.size) ∧
    (s.br.pos ≤ s.size → true ∉ s.pending → Raises (exec (.grDec k limit) s) .unexpectedEndOfStream s.size)

/-- A reader positioned at the bits `GR.ENC` wrote returns their value from `GR.DEC` and is then positioned after them
(the law of R184). -/
def Obligations.GrDecInvertsGrEnc : Prop :=
  ∀ (s t d : State) (k m limit : Nat) (bits rest : Bits), k ≤ 32 → 48 ≤ limit → limit ≤ 64 →
    m / 2 ^ k < limit - 17 ∨ (1 ≤ m ∧ m ≤ 65536) → s.bw.flagOk = true →
    exec (.grEnc k m limit) s = .next t → t.bw.stream = s.bw.stream ++ bits → d.pending = bits ++ rest →
    ∃ r, exec (.grDec k limit) d = .next { d with br := r, m := m, ret := [(m : Int)] } ∧
      r.pending d.inp d.size = rest

/-! ## Byte formats and codewords as instructions (notes/assumptions/5.md) -/

/-- Emitted (DIR = ENCODE), a byte goes to SINK and a codeword's bits to the writer (R91, R95 to R98). That the byte goes
ahead of the bits still queued is the model's choice (notes/assumptions/18.md). -/
def Obligations.EmittedPatterns : Prop :=
  ∀ s : State, s.dir = .encode →
    (∀ b : BitVec 8, exec (.b8 b) s =
      .next { s with bw := { s.bw with sink := s.bw.sink ++ [b], ffpend := decide (b = 0xFF) } }) ∧
    (∀ b : BitVec 7, exec (.b7 b) s =
      .next { s with bw := { s.bw with sink := s.bw.sink ++ [BitVec.ofNat 8 b.toNat], ffpend := false } }) ∧
    (s.bw.flagOk = true →
      (∀ k limit h low, ∃ w, exec (.gr k limit h low) s = .next { s with bw := w } ∧
        s.bw.Wrote (List.replicate h false ++ true :: bitsOf k low) w) ∧
      (∀ limit v, ∃ w, exec (.esc limit v) s = .next { s with bw := w } ∧
        s.bw.Wrote (List.replicate (limit - 17) false ++ true :: bitsOf 16 v.toNat) w) ∧
      (∀ j r, ∃ w, exec (.runterm j r) s = .next { s with bw := w } ∧ s.bw.Wrote (false :: bitsOf j r) w) ∧
      ∃ w, s.bw.Wrote [true] w ∧
        (chunk s.runIndex ≤ s.rem → exec .runhit s = .next { s with
          bw := w, rem := s.rem - chunk s.runIndex, runIndex := indexInc s.runIndex }) ∧
        (s.rem < chunk s.runIndex → exec .runhit s = .next { s with bw := w }))

/-- Parsed (DIR = DECODE), a byte's stream bits join the reader's queue, a Golomb-Rice codeword leaves its value in M, and
a run codeword counts run samples (R91, R95 to R98, R212). That `B7` clears the flag whatever bit 7 was received is the
model's choice (notes/assumptions/17.md), and so is a queue without bound (notes/assumptions/18.md). -/
def Obligations.ParsedPatterns : Prop :=
  ∀ s : State, s.dir = .decode →
    (∀ b : BitVec 8, exec (.b8 b) s =
      .next { s with br := { s.br with rq := s.br.rq ++ bitsOf 8 b.toNat, ffpend := decide (b = 0xFF) } }) ∧
    (∀ b : BitVec 7, exec (.b7 b) s =
      .next { s with br := { s.br with rq := s.br.rq ++ bitsOf 7 b.toNat, ffpend := false } }) ∧
    (∀ k limit h low : Nat, exec (.gr k limit h low) s = .next { s with m := (h * 2 ^ k + low : Nat) }) ∧
    (∀ limit v, exec (.esc limit v) s = .next { s with m := (v.toNat : Int) + 1 }) ∧
    (∀ j r, s.idx + r < s.w - s.x →
      exec (.runterm j r) s = .next { s with idx := s.idx + r, r := s.idx + r, eol := false }) ∧
    (∀ j r, s.w - s.x ≤ s.idx + r → Raises (exec (.runterm j r) s) .invalidRunLength (s.idx + r)) ∧
    (s.idx + chunk s.runIndex < s.w - s.x → exec .runhit s = .next { s with
      idx := s.idx + chunk s.runIndex, runIndex := indexInc s.runIndex }) ∧
    (s.idx + chunk s.runIndex = s.w - s.x → exec .runhit s = .next { s with
      idx := s.w - s.x, runIndex := indexInc s.runIndex, r := s.w - s.x, eol := true }) ∧
    (s.idx ≤ s.w - s.x → s.w - s.x < s.idx + chunk s.runIndex → exec .runhit s = .next { s with
      idx := s.w - s.x, r := s.w - s.x, eol := true })

/-! ## Scan start, rows, scan end -/

/-- `SCAN.INIT` (R251). That it empties the writer and the reader both, whatever DIR is, is the model's choice, from the
table of R38 (notes/assumptions/9.md): R251 has it empty the one or the other. -/
def Obligations.ScanInitRecreatesState : Prop :=
  ∀ s : State, ∃ t : State, exec .scanInit s = .next t ∧
    t = { s with
      status := .busy, reg := t.reg, ri := t.ri, runIndex := 0, prev := t.prev, cur := t.cur,
      bw := { wq := [], ffpend := false, sink := [] }, br := { rq := [], ffpend := false, pos := 0 },
      y := 0, x := 0, mode := .regular, rowOpen := false } ∧
    (∀ i : Fin 365, (t.reg.get i).a.toInt = 1024 ∧ (t.reg.get i).b.toInt = 0 ∧ (t.reg.get i).c.toInt = 0 ∧
      (t.reg.get i).n.toInt = 1) ∧
    (∀ i : Fin 2, (t.ri.get i).a.toInt = 1024 ∧ (t.ri.get i).n.toInt = 1 ∧ (t.ri.get i).nn.toInt = 0 ∧
      (t.ri.get i).rItype = i ∧ (t.ri.get i).resetThreshold.toInt = 64) ∧
    ∀ i : Int, t.prevAt i = 0 ∧ t.curAt i = 0

/-- The two commands latch their operands and run `SCAN.INIT`; while BUSY, or with an illegal WIDTH, they are refused
(R190, R210, U11, U12; that the loops which follow are the driver's is notes/assumptions/4.md). -/
def Obligations.CommandsLatchAndStart : Prop :=
  ∀ (s : State) (width rows size : Nat),
    (s.status ≠ .busy → 1 ≤ width → width ≤ 65535 →
      (exec (.scanEncode width rows) s =
        exec .scanInit { s with dir := .encode, width := BitVec.ofNat 16 width, rows := rows }) ∧
      (exec (.scanDecode width rows size) s =
        exec .scanInit { s with dir := .decode, width := BitVec.ofNat 16 width, rows := rows, size := size }) ∧
      (∃ t, exec (.scanEncode width rows) s = .next t ∧ t.status = .busy ∧ t.dir = .encode ∧ t.w = width ∧
        t.rows = rows ∧ t.src = s.src) ∧
      ∃ t, exec (.scanDecode width rows size) s = .next t ∧ t.status = .busy ∧ t.dir = .decode ∧ t.w = width ∧
        t.rows = rows ∧ t.size = size ∧ t.inp = s.inp) ∧
    (s.status = .busy → exec (.scanEncode width rows) s = .refused .commandWhileBusy ∧
      exec (.scanDecode width rows size) s = .refused .commandWhileBusy) ∧
    (s.status ≠ .busy → width = 0 ∨ 65535 < width → exec (.scanEncode width rows) s = .refused .illegalWidth ∧
      exec (.scanDecode width rows size) s = .refused .illegalWidth)

/-- `ROW.START` (R191): the lines are exchanged cell for cell, then the two border cells are written; nothing but the
lines and the position changes. -/
def Obligations.RowStartExchangesLines : Prop :=
  ∀ s : State, Memory.wf s = true → 1 ≤ s.w → ∃ t : State, exec .rowStart s = .next t ∧
    t = { s with prev := t.prev, cur := t.cur, x := 0, mode := .regular, rowOpen := true } ∧
    (∀ i : Int, -1 ≤ i → t.prevAt i = if i = s.w then s.curAt ((s.w : Int) - 1) else s.curAt i) ∧
    ∀ i : Int, -1 ≤ i → t.curAt i = if i = -1 then s.curAt 0 else s.prevAt i

/-- `NBR.FETCH` (R192). -/
def Obligations.NeighbourFetch : Prop :=
  ∀ s : State, s.x < s.w → exec .nbrFetch s = .next { s with
    ra := s.curAt ((s.x : Int) - 1), rb := s.prevAt s.x, rc := s.prevAt ((s.x : Int) - 1),
    rd := s.prevAt ((s.x : Int) + 1) }

/-- `RUNIDX.INC`, `RUNIDX.DEC`, `ROW.END`, `ENC.END` and `DEC.END` (R197, R199, R200, R216). -/
def Obligations.RunIndexAndEnds : Prop :=
  ∀ s : State,
    (∃ i : Fin 32, exec .runidxInc s = .next { s with runIndex := i } ∧ i.val = min 31 (s.runIndex.val + 1)) ∧
    (∃ i : Fin 32, exec .runidxDec s = .next { s with runIndex := i } ∧ i.val = max 0 (s.runIndex.val - 1)) ∧
    exec .rowEnd s = .next { s with y := s.y + 1, rowOpen := false } ∧
    (∃ w, exec .bwFlush s = .next { s with bw := w } ∧ exec .encEnd s = .next { s with bw := w, status := .done }) ∧
    exec .decEnd s = .next { s with status := .done }

/-! ## Runs -/

/-- `ENC.RUNLEN` (R196): n full chunks, each a 1 that raises RUNINDEX, then what is left below the next chunk: at the end
of the row one more 1 unless nothing is left, otherwise a 0 and the rest in J[RUNINDEX] bits. R196 gives r in [0, WIDTH]; that an r
above WIDTH runs the same way is the model's choice (notes/assumptions/19.md). -/
def Obligations.EncRunlenWritesChunks : Prop :=
  ∀ (s : State) (r : Nat) (eol : Bool), r ≤ 65535 → (eol = true → 1 ≤ r) → s.bw.flagOk = true →
    ∃ (n rem : Nat) (w : Writer), r = chunkSum s.runIndex n + rem ∧ rem < chunk (indexInc^[n] s.runIndex) ∧
      exec (.encRunlen r eol) s = .next { s with bw := w, rem := rem, runIndex := indexInc^[n] s.runIndex } ∧
      s.bw.Wrote (List.replicate n true ++ if eol then (if rem = 0 then [] else [true])
        else false :: bitsOf (jTable (indexInc^[n] s.runIndex)) rem) w

/-- A run of at most 65535 samples that reaches the end of the row takes at most 33 − RUNINDEX bits (R202, property 3);
whatever WIDTH is (notes/assumptions/19.md). -/
def Obligations.RowLongRunIsShort : Prop :=
  ∀ (s t : State) (r : Nat), 1 ≤ r → r ≤ 65535 → s.bw.flagOk = true → exec (.encRunlen r true) s = .next t →
    ∃ n, t.bw.stream = s.bw.stream ++ List.replicate n true ∧ n ≤ 33 - s.runIndex.val

/-- `DEC.RUNLEN` (R212, R232): after n full chunks, a 0 and J[RUNINDEX] bits interrupt the run, or raise
`InvalidRunLength` where no room is left; a 1 that reaches the end of the row ends it, RUNINDEX incremented only by a full
chunk; a bit that is missing raises the fault. -/
def Obligations.DecRunlenReadsChunks : Prop :=
  ∀ (s : State) (rem0 n : Nat), 1 ≤ rem0 → rem0 ≤ 65535 → chunkSum s.runIndex n < rem0 →
    (∀ (v rest : Bits) (idx : Nat), s.pending = List.replicate n true ++ false :: (v ++ rest) →
      v.length = jTable (indexInc^[n] s.runIndex) → idx = chunkSum s.runIndex n + valOf v →
      (idx < rem0 → ∃ b, exec (.decRunlen rem0) s = .next { s with
          br := b, idx := idx, r := idx, eol := false, runIndex := indexInc^[n] s.runIndex, ret := [(idx : Int), 0] } ∧
        b.pending s.inp s.size = rest) ∧
      (rem0 ≤ idx → Raises (exec (.decRunlen rem0) s) .invalidRunLength idx)) ∧
    (∀ rest : Bits, s.pending = List.replicate (n + 1) true ++ rest → rem0 ≤ chunkSum s.runIndex (n + 1) →
      ∃ b, exec (.decRunlen rem0) s = .next { s with
          br := b, idx := rem0, r := rem0, eol := true,
          runIndex := if rem0 = chunkSum s.runIndex (n + 1) then indexInc^[n + 1] s.runIndex else indexInc^[n] s.runIndex,
          ret := [(rem0 : Int), 1] } ∧
        b.pending s.inp s.size = rest) ∧
    (s.br.pos ≤ s.size → s.pending = List.replicate n true →
      Raises (exec (.decRunlen rem0) s) .unexpectedEndOfStream s.size) ∧
    (∀ short : Bits, s.br.pos ≤ s.size → s.pending = List.replicate n true ++ false :: short →
      short.length < jTable (indexInc^[n] s.runIndex) →
      Raises (exec (.decRunlen rem0) s) .unexpectedEndOfStream s.size)

/-! ## The pixel steps -/

/-- `ENC.STEP` and `DEC.STEP` (R193, R211): neighbours, context id, then regular mode or run mode. (What `CTXID` left in
`ret`, the model's own field, is put back.) -/
def Obligations.StepsChooseTheMode : Prop :=
  ∀ s : State, s.status ≠ .fault → s.x < s.w →
    Agrees (exec .encStep s)
      (thenDo (exec .nbrFetch s) fun t => thenDo (exec (.ctxid t.ra t.rb t.rc t.rd) t) fun t =>
        let t := { t with ret := s.ret }
        if t.q ≠ 0 then exec .encRegular t else exec .encRun { t with mode := .run }) ∧
    Agrees (exec .decStep s)
      (thenDo (exec .nbrFetch s) fun t => thenDo (exec (.ctxid t.ra t.rb t.rc t.rd) t) fun t =>
        let t := { t with ret := s.ret }
        if t.q ≠ 0 then exec .decRegular t else exec .decRun { t with mode := .run })

/-- `ENC.REGULAR` (R194) is the operations its rule lists, in that order. -/
def Obligations.EncRegularSteps : Prop :=
  ∀ s : State, s.status ≠ .fault → s.y < s.rows → s.x < s.w → s.q ≠ 0 → -364 ≤ s.q → s.q ≤ 364 →
    Agrees (exec .encRegular s)
      (thenDo (exec (.ctxsel s.q) s) fun s =>
       thenDo (exec (.rcGetk s.ci) s) fun s =>
       thenDo (exec (.predict s.ra s.rb s.rc) s) fun s =>
       thenDo (exec (.corrpred (toSample s.result) (s.reg.get s.ci).c s.sign) s) fun s =>
       thenDo (exec (.errval (s.srcAt s.y s.x) s.px s.sign) s) fun s =>
       thenDo (exec (.rcGetcorr s.ci s.k) s) fun s =>
       let c := s.result.toNat
       thenDo (exec (.maperr s.e) s) fun s =>
       let s := { s with m := (s.m.toNat ^^^ c : Nat) }
       thenDo (exec (.grEnc s.k s.m.toNat 64) s) fun s =>
       thenDo (exec (.rcUpdate s.ci s.e) s) fun s =>
       thenDo (exec (.recon s.px s.e s.sign) s) fun s =>
       .next { s with cur := writeCell s.cur (s.x + 1) (toSample s.result), x := s.x + 1 })

/-- `ENC.RUN` (R195): the run of samples equal to Ra, up to the end of the row, is copied and coded; then, if it did not
reach the end of the row, the interruption sample. -/
def Obligations.EncRunSteps : Prop :=
  ∀ (s : State) (r : Nat), s.status ≠ .fault → s.y < s.rows → s.x < s.w → r ≤ s.w - s.x →
    (∀ i < r, s.srcAt s.y (s.x + i) = s.ra) → (r < s.w - s.x → s.srcAt s.y (s.x + r) ≠ s.ra) →
    Agrees (exec .encRun s)
      (let eol := decide (r = s.w - s.x)
       let s := (List.range r).foldl (fun s i => s.setCur ((s.x + i : Nat) : Int) s.ra) { s with r := r, eol := eol }
       thenDo (exec (.encRunlen r eol) s) fun s =>
       let s := { s with x := s.x + r }
       if eol then .next { s with mode := .regular }
       else thenDo (exec .encRipixel s) fun s => .next { s with mode := .regular })

/-- `ENC.RIPIXEL` (R198) of a sample with a codeword is the operations its rule lists, in that order: of every sample but
one equal to Ra and to PREV[X], which does not interrupt the run (`EncodeStepsComplete` says what happens then). -/
def Obligations.EncRipixelSteps : Prop :=
  ∀ s : State, s.status ≠ .fault → s.y < s.rows → s.x < s.w → ¬(s.srcAt s.y s.x = s.ra ∧ s.prevAt s.x = s.ra) →
    Agrees (exec .encRipixel s)
      (let sample := s.srcAt s.y s.x
       let s := { s with rb := s.prevAt s.x }
       thenDo (exec (.riSelect s.ra s.rb) s) fun s =>
       let t : Fin 2 := if s.result = 1 then 1 else 0
       thenDo (exec (.riErrval sample s.ra s.rb) s) fun s =>
       thenDo (exec (.riGetk t) s) fun s =>
       thenDo (exec (.riEmerr t s.e s.k) s) fun s =>
       thenDo (exec (.grEnc s.k s.m.toNat (64 - jTable s.runIndex - 1)) s) fun s =>
       thenDo (exec (.riUpdate t s.e s.m.toNat) s) fun s =>
       thenDo (exec (.riRecon s.ra s.rb s.e) s) fun s =>
       let s := { s with cur := writeCell s.cur (s.x + 1) (toSample s.result) }
       thenDo (exec .runidxDec s) fun s => .next { s with x := s.x + 1 })

/-- In a machine whose invariants hold, every encode operation of a pixel completes: no fault, no stop; X advances, the
columns it passed hold their source samples (R193, R201), and bits were written. `ENC.RIPIXEL` by name on a sample that did
not interrupt the run completes too, with E = 0 and M = −1 by the formulas of R172 and R175: the bits it writes are a free
value, the model's choice (notes/assumptions/16.md), and every other effect is as its rules say. -/
def Obligations.EncodeStepsComplete : Prop :=
  ∀ s : State, s.Inv → s.Bounded → s.status ≠ .fault → s.y < s.rows → s.x < s.w →
    (∀ i, i = .encStep ∨ (i = .encRegular ∧ s.q ≠ 0 ∧ -364 ≤ s.q ∧ s.q ≤ 364) ∨ i = .encRun ∨
        (i = .encRipixel ∧ ¬(s.srcAt s.y s.x = s.ra ∧ s.prevAt s.x = s.ra)) →
      ∃ t w, exec i s = .next t ∧ t.status = s.status ∧ s.x < t.x ∧ t.x ≤ s.w ∧ t.bw = w ∧
        (∃ bits, bits ≠ [] ∧ s.bw.Wrote bits w) ∧
        (∀ x : Nat, s.x ≤ x → x < t.x → t.curAt x = s.srcAt s.y x) ∧
        (∀ x : Int, -1 ≤ x → x < s.x → t.curAt x = s.curAt x) ∧ t.prev = s.prev ∧ t.y = s.y ∧
        (i = .encStep ∧ s.mode = .regular ∨ i = .encRun → t.mode = .regular) ∧ t.Inv ∧ t.Bounded) ∧
    (s.srcAt s.y s.x = s.ra → s.prevAt s.x = s.ra → ∃ (k : Nat) (c : RunCtx) (w : Writer) (bits : Bits),
      exec .encRipixel s = .next { s with
        rb := s.ra, e := 0, k := k, m := -1, bw := w, ri := s.ri.set 1 c, cur := writeCell s.cur (s.x + 1) s.ra,
        runIndex := indexDec s.runIndex, x := s.x + 1 } ∧
      s.bw.Wrote bits w ∧
      (s.ri.get 1).a.toInt + (s.ri.get 1).n.toInt / 2 ≤ (s.ri.get 1).n.toInt * 2 ^ k ∧
      (∀ j < k, (s.ri.get 1).n.toInt * 2 ^ j < (s.ri.get 1).a.toInt + (s.ri.get 1).n.toInt / 2) ∧
      c.rItype = 1 ∧ c.resetThreshold.toInt = 64 ∧
      ((s.ri.get 1).n.toInt = 64 → c.a.toInt = ((s.ri.get 1).a.toInt - 1) / 2 ∧ c.n.toInt = 33 ∧
        c.nn.toInt = (s.ri.get 1).nn.toInt / 2) ∧
      ((s.ri.get 1).n.toInt ≠ 64 → c.a.toInt = (s.ri.get 1).a.toInt - 1 ∧ c.n.toInt = (s.ri.get 1).n.toInt + 1 ∧
        c.nn.toInt = (s.ri.get 1).nn.toInt))

/-- `DEC.REGULAR` (R213) is the operations its rule lists, in that order; it completes where the next bits are a codeword
of its context, with a mapped value of 16 bits, and the entry is within its bounds. -/
def Obligations.DecRegularSteps : Prop :=
  ∀ s : State, s.status ≠ .fault → s.y < s.rows → s.x < s.w → s.q ≠ 0 → -364 ≤ s.q → s.q ≤ 364 →
    Agrees (exec .decRegular s)
      (thenDo (exec (.ctxsel s.q) s) fun s =>
       thenDo (exec (.rcGetk s.ci) s) fun s =>
       thenDo (exec (.predict s.ra s.rb s.rc) s) fun s =>
       thenDo (exec (.corrpred (toSample s.result) (s.reg.get s.ci).c s.sign) s) fun s =>
       thenDo (exec (.rcGetcorr s.ci s.k) s) fun s =>
       let c := s.result.toNat
       thenDo (exec (.grDec s.k 64) s) fun s =>
       thenDo (exec (.unmaperr (s.m.toNat ^^^ c)) s) fun s =>
       thenDo (exec (.rcUpdate s.ci s.e) s) fun s =>
       thenDo (exec (.recon s.px s.e s.sign) s) fun s =>
       .next { s with
         cur := writeCell s.cur (s.x + 1) (toSample s.result),
         out := writeCell s.out (sampleAddr s.y s.x) (toSample s.result), x := s.x + 1 }) ∧
    ∀ (k : Nat) (i : Instr) (rest : Bits), Memory.wf s = true → (s.reg.get (contextIndex s.q)).Inv →
      (s.reg.get (contextIndex s.q)).Bounded →
      (s.reg.get (contextIndex s.q)).a.toInt ≤ (s.reg.get (contextIndex s.q)).n.toInt * 2 ^ k →
      (∀ j < k, (s.reg.get (contextIndex s.q)).n.toInt * 2 ^ j < (s.reg.get (contextIndex s.q)).a.toInt) →
      decode (.golomb k 64) s.pending = .ok (i, rest) → golombValue i ≤ 65535 →
      ∃ t, exec .decRegular s = .next t ∧ t.status = s.status ∧ t.x = s.x + 1 ∧ t.k = k ∧ t.m = golombValue i ∧
        t.curAt s.x = t.outAt s.y s.x ∧ t.pending = rest

/-- `DEC.RUN` (R214) is the operations its rule lists, in that order; it completes where the next bits take the run to the
end of the row. (What `DEC.RUNLEN` left in `ret`, the model's own field, is put back.) -/
def Obligations.DecRunSteps : Prop :=
  ∀ s : State, s.status ≠ .fault → s.y < s.rows → s.x < s.w →
    Agrees (exec .decRun s)
      (let ret := s.ret
       thenDo (exec (.decRunlen (s.w - s.x)) s) fun s =>
       let s := (List.range s.r).foldl
         (fun s i => (s.setCur ((s.x + i : Nat) : Int) s.ra).setOut s.y (s.x + i) s.ra) s
       let s := { s with x := s.x + s.r }
       if s.eol then .next { s with mode := .regular }
       else thenDo (exec .decRipixel { s with ret := ret }) fun s => .next { s with mode := .regular }) ∧
    ∀ (n : Nat) (rest : Bits), Memory.wf s = true → chunkSum s.runIndex n < s.w - s.x →
      s.w - s.x ≤ chunkSum s.runIndex (n + 1) → s.pending = List.replicate (n + 1) true ++ rest →
      ∃ t, exec .decRun s = .next t ∧ t.status = s.status ∧ t.x = s.w ∧ t.mode = .regular ∧ t.pending = rest ∧
        ∀ x : Nat, s.x ≤ x → x < s.w → t.curAt x = s.ra ∧ t.outAt s.y x = s.ra

/-- `DEC.RIPIXEL` (R215) is the operations its rule lists, in that order; it completes where the next bits are a codeword
of its context, with a mapped value an encoder can send, and the entry is within its bounds. -/
def Obligations.DecRipixelSteps : Prop :=
  ∀ s : State, s.status ≠ .fault → s.y < s.rows → s.x < s.w →
    Agrees (exec .decRipixel s)
      (let s := { s with rb := s.prevAt s.x }
       thenDo (exec (.riSelect s.ra s.rb) s) fun s =>
       let t : Fin 2 := if s.result = 1 then 1 else 0
       thenDo (exec (.riGetk t) s) fun s =>
       thenDo (exec (.grDec s.k (64 - jTable s.runIndex - 1)) s) fun s =>
       thenDo (exec (.riUnmap t s.m.toNat s.k) s) fun s =>
       thenDo (exec (.riUpdate t s.e s.m.toNat) s) fun s =>
       thenDo (exec (.riRecon s.ra s.rb s.e) s) fun s =>
       let s := { s with
         cur := writeCell s.cur (s.x + 1) (toSample s.result),
         out := writeCell s.out (sampleAddr s.y s.x) (toSample s.result) }
       thenDo (exec .runidxDec s) fun s => .next { s with x := s.x + 1 }) ∧
    ∀ (t : Fin 2) (k : Nat) (i : Instr) (rest : Bits), Memory.wf s = true → (s.ri.get t).Inv t → (s.ri.get t).Bounded →
      t = (if s.ra = s.prevAt s.x then 1 else 0) →
      (s.ri.get t).a.toInt + (s.ri.get t).n.toInt / 2 * t.val ≤ (s.ri.get t).n.toInt * 2 ^ k →
      (∀ j < k, (s.ri.get t).n.toInt * 2 ^ j < (s.ri.get t).a.toInt + (s.ri.get t).n.toInt / 2 * t.val) →
      decode (.golomb k (64 - jTable s.runIndex - 1)) s.pending = .ok (i, rest) → golombValue i ≤ 65536 →
      ∃ u, exec .decRipixel s = .next u ∧ u.status = s.status ∧ u.x = s.x + 1 ∧ u.k = k ∧ u.m = golombValue i ∧
        u.curAt s.x = u.outAt s.y s.x ∧ u.pending = rest

/-- `DEC.STEP` completes (R211): off a flat neighbourhood, where the next bits are a codeword of the context it selects, with
a mapped value of 16 bits, and the entry is within its bounds; on a flat one, where the next bits take the run to the end of
the row. -/
def Obligations.DecodeStepCompletes : Prop :=
  ∀ (s : State) (ra : Sample) (q : Int), s.status ≠ .fault → s.y < s.rows → s.x < s.w → Memory.wf s = true →
    ra = s.curAt ((s.x : Int) - 1) →
    q = contextId ra (s.prevAt s.x) (s.prevAt ((s.x : Int) - 1)) (s.prevAt ((s.x : Int) + 1)) →
    (∀ (k : Nat) (i : Instr) (rest : Bits), q ≠ 0 → (s.reg.get (contextIndex q)).Inv →
      (s.reg.get (contextIndex q)).Bounded →
      (s.reg.get (contextIndex q)).a.toInt ≤ (s.reg.get (contextIndex q)).n.toInt * 2 ^ k →
      (∀ j < k, (s.reg.get (contextIndex q)).n.toInt * 2 ^ j < (s.reg.get (contextIndex q)).a.toInt) →
      decode (.golomb k 64) s.pending = .ok (i, rest) → golombValue i ≤ 65535 →
      ∃ u, exec .decStep s = .next u ∧ u.status = s.status ∧ u.q = q ∧ u.x = s.x + 1 ∧ u.k = k ∧ u.m = golombValue i ∧
        u.curAt s.x = u.outAt s.y s.x ∧ u.pending = rest) ∧
    ∀ (n : Nat) (rest : Bits), q = 0 → chunkSum s.runIndex n < s.w - s.x →
      s.w - s.x ≤ chunkSum s.runIndex (n + 1) → s.pending = List.replicate (n + 1) true ++ rest →
      ∃ u, exec .decStep s = .next u ∧ u.status = s.status ∧ u.q = 0 ∧ u.x = s.w ∧ u.mode = .regular ∧ u.pending = rest ∧
        ∀ x : Nat, s.x ≤ x → x < s.w → u.curAt x = ra ∧ u.outAt s.y x = ra

/-- Where the machine stops by name: a sample position that does not exist, a line-buffer index that does not exist, and a
search for k that does not end, because N = 0 and A > 0. That the machine stops there, and the names `sampleIndex`,
`lineIndex` and `searchStuck`, are the model's choice (notes/assumptions/11.md): R35, R60 and R66 give those cells no
existence, and U5 of spec/93_implementation_defined.md calls the search stuck. -/
def Obligations.StopsByName : Prop :=
  ∀ s : State,
    (∀ i : Fin 365, (s.reg.get i).n.toInt = 0 → 0 < (s.reg.get i).a.toInt →
      exec (.rcGetk i) s = .fault .searchStuck ∧ ∀ k : Nat, (s.reg.get i).n.toInt * 2 ^ k < (s.reg.get i).a.toInt) ∧
    (∀ t : Fin 2, (s.ri.get t).n.toInt = 0 → 0 < (s.ri.get t).a.toInt → exec (.riGetk t) s = .fault .searchStuck) ∧
    (¬(s.y < s.rows ∧ s.x < s.w) → exec .encRegular s = .fault .sampleIndex ∧ exec .encRipixel s = .fault .sampleIndex ∧
      exec .decRegular s = .fault .sampleIndex ∧ exec .decRipixel s = .fault .sampleIndex) ∧
    (s.rows ≤ s.y → s.x < s.w → exec .encRun s = .fault .sampleIndex) ∧
    (∀ t, s.status ≠ .fault → s.rows ≤ s.y → s.x < s.w → exec (.decRunlen (s.w - s.x)) s = .next t →
      t.status ≠ .fault → exec .decRun s = .fault .sampleIndex) ∧
    (s.w ≤ s.x → exec .nbrFetch s = .fault .lineIndex ∧ exec .encStep s = .fault .lineIndex ∧
      exec .decStep s = .fault .lineIndex)

/-! ## The whole machine -/

/-- Power-on (R250): STATUS is IDLE, the constant tables hold their content, and the block does nothing until a command
arrives. -/
def Obligations.PowerOnIsIdle : Prop :=
  State.reset.status = .idle ∧ step State.reset = .next State.reset ∧
    Config.J.toList = [0, 0, 0, 0, 1, 1, 1, 1, 2, 2, 2, 2, 3, 3, 3, 3, 4, 4, 5, 5, 6, 6, 7, 7, 8, 9, 10, 11, 12, 13, 14, 15] ∧
    ∀ i : Int, -129 ≤ i → i ≤ 128 → (tableC i).toInt = max (-128) (min 127 i)

/-- A step performs the operation issued by name, refused where an operand is outside its rule's range, or else the next
of the scan driver's loops (R190, R210); a table word placed by `withFetchWord` is the instruction it decodes to. -/
def Obligations.StepRunsIssuedOrDriver : Prop :=
  ∀ s : State,
    (∀ i, s.issued = some i → i.wf = true → step s = exec i { s with issued := none }) ∧
    (∀ i, s.issued = some i → i.wf = false → step s = .refused (.operandRange i.mnemonic)) ∧
    (s.issued = none → s.status ≠ .busy → step s = .next s) ∧
    (s.issued = none → s.status = .busy →
      (s.rowOpen = true → s.x < s.w → s.dir = .encode → step s = exec .encStep s) ∧
      (s.rowOpen = true → s.x < s.w → s.dir = .decode → step s = exec .decStep s) ∧
      (s.rowOpen = true → s.w ≤ s.x → step s = exec .rowEnd s) ∧
      (s.rowOpen = false → s.y < s.rows → step s = exec .rowStart s) ∧
      (s.rowOpen = false → s.rows ≤ s.y → s.dir = .encode → step s = exec .encEnd s) ∧
      (s.rowOpen = false → s.rows ≤ s.y → s.dir = .decode → step s = exec .decEnd s)) ∧
    ∀ nbits w i, decodeTableWord nbits w = some i → i.wf = true →
      step (s.withFetchWord nbits w) = exec i { s with issued := none }

/-- A raised fault ends the scan (R237): no further operation of it is executed. There is no return (R238): STATUS = FAULT
is left only by a command. -/
def Obligations.FaultEndsTheScan : Prop :=
  (∀ (s : State) (kind : FaultKind) (info : Nat),
    s.raise kind info = { s with faultKind := kind, faultInfo := info, status := .fault }) ∧
  (∀ s t : State, s.issued = none → step s = .next t → t.status = .fault → step t = .next t) ∧
  ∀ s t : State, s.HostLegal → s.status = .fault → step s = .next t →
    (s.issued = none ∧ t = s) ∨
      ((∃ width rows size, s.issued = some (.scanEncode width rows) ∨ s.issued = some (.scanDecode width rows size)) ∧
        t.status = .busy)

/-- The scan parameters are written only by a command and constant for the whole scan (R21); SRC and IN are read only. -/
def Obligations.ParametersAreConstant : Prop :=
  ∀ s t : State, step s = .next t → t.src = s.src ∧ t.inp = s.inp ∧
    ((∀ i, s.issued = some i → i.isCommand = false) →
      t.dir = s.dir ∧ t.width = s.width ∧ t.rows = s.rows ∧ t.size = s.size)

/-- STATUS is written only by the scan driver (R22): BUSY at the start of a scan, DONE when its last operation completes,
FAULT when a fault is raised. -/
def Obligations.StatusIsTheDrivers : Prop :=
  ∀ s t : State, s.HostLegal → step s = .next t → t.status ≠ s.status →
    (t.status = .busy ∧ s.status ≠ .busy ∧ ∃ i, s.issued = some i) ∨
    (t.status = .done ∧ s.status = .busy ∧ s.issued = none ∧ s.rowOpen = false ∧ s.rows ≤ s.y) ∨
    (t.status = .fault ∧ s.status = .busy ∧ s.issued = none ∧ s.rowOpen = true ∧ s.x < s.w)

/-- At reset the invariants hold; the values they rest on are the model's where the spec leaves them unspecified
(notes/assumptions/1.md). -/
def Obligations.ResetMeetsInvariants : Prop :=
  State.reset.Inv ∧ State.reset.Bounded ∧ State.reset.ScanInv ∧ Memory.wf State.reset = true

/-- Every step, whatever operation it performs, keeps the data invariant, unless it leaves STATUS = FAULT; with one
exception, in which all but RI[1].A keep it: `ENC.RIPIXEL` issued by name on a sample that did not interrupt the run, with
RI[1].A = 0, takes it to −1 (M is −1, outside the range R29 presupposes). -/
def Obligations.StepKeepsInv : Prop :=
  ∀ s t : State, s.Inv → step s = .next t → t.status ≠ .fault →
    t.Inv ∨ (s.issued = some .encRipixel ∧ s.srcAt s.y s.x = s.ra ∧ s.prevAt s.x = s.ra ∧ (s.ri.get 1).a.toInt = 0 ∧
      (t.ri.get 1).a.toInt = -1 ∧ (t.withRi 1 { t.ri.get 1 with a := 0 }).Inv)

/-- Every step of a machine whose host only issues commands keeps the scan invariant. -/
def Obligations.StepKeepsScanInv : Prop :=
  ∀ s t : State, s.ScanInv → step s = .next t → t.ScanInv

/-- A scan always ends (R193, R218): it reaches DONE or FAULT without a stop, and an encode reaches DONE (R230: no fault can
be raised in the encode direction). -/
def Obligations.ScanTerminates : Prop :=
  ∀ s : State, s.ScanInv → s.status = .busy → s.issued = none →
    ∃ (n : Nat) (t : State), core.run n s = .next t ∧ (t.status = .done ∨ t.status = .fault) ∧
      (s.dir = .encode → t.status = .done)

/-- The mirror law at one step (R217): a decoder that mirrors the encoder and has before it the bits the encoder's step
writes takes the step, mirrors the encoder after it, has consumed exactly those bits, and has put out the source samples
the encoder passed. -/
def Obligations.DecodeStepMirrorsEncodeStep : Prop :=
  ∀ (s t d : State) (bits rest : Bits), s.Inv → s.Bounded → s.status ≠ .fault → s.y < s.rows → s.x < s.w →
    s.mode = .regular → exec .encStep s = .next t → t.bw.stream = s.bw.stream ++ bits →
    d.Mirrors s → Memory.wf d = true → d.status ≠ .fault → d.pending = bits ++ rest →
    ∃ u, exec .decStep d = .next u ∧ u.Mirrors t ∧ u.pending = rest ∧ u.status = d.status ∧ u.mode = .regular ∧
      (∀ x : Nat, s.x ≤ x → x < t.x → u.outAt s.y x = s.srcAt s.y x) ∧
      ∀ y x : Nat, x < 65536 → ¬(y = s.y ∧ s.x ≤ x ∧ x < t.x) → u.outAt y x = d.outAt y x

/-- Property 1 (R217): the bytes of a finished encode, and any bytes after them, decode to the source samples, and the
context files and the run index end equal. -/
def Obligations.DecodedScanEqualsSource : Prop :=
  ∀ (s s₀ t d d₀ : State) (width rows size n : Nat), 1 ≤ width → width ≤ 65535 →
    Memory.wf s = true → exec (.scanEncode width rows) s = .next s₀ → s.issued = none →
    core.run n s₀ = .next t → t.status = .done →
    Memory.wf d = true → t.bw.sink.length ≤ size → (∀ i (h : i < t.bw.sink.length), readCell d.inp i = t.bw.sink[i]) →
    exec (.scanDecode width rows size) d = .next d₀ → d.issued = none →
    ∃ (m : Nat) (u : State), core.run m d₀ = .next u ∧ u.status = .done ∧
      (∀ y x : Nat, y < rows → x < width → u.outAt y x = s.srcAt y x) ∧
      u.reg = t.reg ∧ u.ri = t.ri ∧ u.runIndex = t.runIndex
end

