-- ==== Sys2Proof/Laws/Outcome.lean ====
section
/-! SUPPORT. How parts of an operation follow one another: one lemma per case of `Res.bind` and `Res.outcome`, and their
inversions. -/

namespace Sys2Proof.Machine

@[simp] theorem Res.bind_ok {α β : Type} (a : α) (s : State) (f : α → State → Res β) :
    (Res.ok a s).bind f = f a s := rfl

@[simp] theorem Res.bind_raised {α β : Type} (s : State) (f : α → State → Res β) :
    (Res.raised s).bind f = .raised s := rfl

@[simp] theorem Res.bind_stop {α β : Type} (e : Fault) (f : α → State → Res β) :
    (Res.stop e : Res α).bind f = .stop e := rfl

@[simp] theorem Res.outcome_ok {α : Type} (a : α) (s : State) (f : α → State → State) :
    (Res.ok a s).outcome f = .next (f a s) := rfl

@[simp] theorem Res.outcome_raised {α : Type} (s : State) (f : α → State → State) :
    (Res.raised s).outcome f = .next s := rfl

@[simp] theorem Res.outcome_stop {α : Type} (e : Fault) (f : α → State → State) :
    (Res.stop e : Res α).outcome f = .fault e := rfl

/-- A sequence that finishes has both parts finish. -/
theorem Res.bind_eq_ok {α β : Type} {r : Res α} {f : α → State → Res β} {b : β} {t : State}
    (h : r.bind f = .ok b t) : ∃ a s, r = .ok a s ∧ f a s = .ok b t := by
  cases r with
  | ok a s => exact ⟨a, s, rfl, h⟩
  | raised s => exact absurd h (by simp)
  | stop e => exact absurd h (by simp)

/-- A sequence that raises a fault does so in its first part or, that finished, in its second. -/
theorem Res.bind_eq_raised {α β : Type} {r : Res α} {f : α → State → Res β} {t : State}
    (h : r.bind f = .raised t) : r = .raised t ∨ ∃ a s, r = .ok a s ∧ f a s = .raised t := by
  cases r with
  | ok a s => exact .inr ⟨a, s, rfl, h⟩
  | raised s => exact .inl (by simpa using h)
  | stop e => exact absurd h (by simp)

/-- A next state is that of the whole operation or of a raised fault. -/
theorem Res.outcome_eq_next {α : Type} {r : Res α} {f : α → State → State} {t : State}
    (h : r.outcome f = .next t) : (∃ a s, r = .ok a s ∧ f a s = t) ∨ r = .raised t := by
  cases r with
  | ok a s => exact .inl ⟨a, s, rfl, by simpa using h⟩
  | raised s => exact .inr (by simpa using h)
  | stop e => exact absurd h (by simp)

theorem State.reads_of_ok {α : Type} {s : State} {f : Space 8 → Nat → Reader → Except Reader (α × Reader)} {a : α}
    {r : Reader} (h : f s.inp s.size s.br = .ok (a, r)) : s.reads f = .ok a (s.withBr r) := by
  unfold State.reads
  rw [h]

theorem State.reads_of_error {α : Type} {s : State} {f : Space 8 → Nat → Reader → Except Reader (α × Reader)}
    {r : Reader} (h : f s.inp s.size s.br = .error r) :
    s.reads f = .raised ((s.withBr r).raise .unexpectedEndOfStream r.pos) := by
  unfold State.reads
  rw [h]

/-- A read either finishes, the reader replaced, or raises UnexpectedEndOfStream with the position as information. -/
theorem State.reads_cases {α : Type} (s : State) (f : Space 8 → Nat → Reader → Except Reader (α × Reader)) :
    (∃ a r, f s.inp s.size s.br = .ok (a, r) ∧ s.reads f = .ok a (s.withBr r)) ∨
    ∃ r, f s.inp s.size s.br = .error r ∧
      s.reads f = .raised ((s.withBr r).raise .unexpectedEndOfStream r.pos) := by
  unfold State.reads
  cases h : f s.inp s.size s.br with
  | ok p => exact .inl ⟨p.1, p.2, rfl, rfl⟩
  | error r => exact .inr ⟨r, rfl, rfl⟩

/-- After an operation that raised no fault the next one follows. -/
theorem thenDo_next {t : State} {f : State → Host.Outcome State Fault Refusal} (h : t.status ≠ .fault) :
    thenDo (.next t) f = f t := if_neg h

/-- After a raised fault nothing follows (R237). -/
theorem thenDo_fault {t : State} {f : State → Host.Outcome State Fault Refusal} (h : t.status = .fault) :
    thenDo (.next t) f = .next t := if_pos h

theorem agrees_refl (o : Host.Outcome State Fault Refusal) : Agrees o o := by
  cases o with
  | next t => exact ⟨rfl, fun _ => ⟨rfl, rfl⟩, fun _ => rfl⟩
  | fault e => rfl
  | refused r => rfl

end Sys2Proof.Machine
end

