-- ==== Sys2Proof/Laws/Words.lean ====
section
/-! SUPPORT. Small laws of bit sequences, samples and fields. -/

namespace Sys2Proof

@[simp] theorem bitsOf_length (n v : Nat) : (bitsOf n v).length = n := by
  induction n with
  | zero => rfl
  | succ n ih => simp [bitsOf, ih]

@[simp] theorem unary_length (n : Nat) : (unary n).length = n + 1 := by simp [unary]

theorem valOf_foldl (s : Bits) (v : Nat) :
    s.foldl (fun v b => 2 * v + b.toNat) v = v * 2 ^ s.length + valOf s := by
  induction s generalizing v with
  | nil => simp [valOf]
  | cons b s ih =>
    have h : valOf (b :: s) = s.foldl (fun v b => 2 * v + b.toNat) b.toNat := by simp [valOf]
    rw [List.foldl_cons, ih, h, ih b.toNat, List.length_cons]
    ring

@[simp] theorem valOf_nil : valOf [] = 0 := rfl

theorem valOf_cons (b : Bool) (s : Bits) : valOf (b :: s) = b.toNat * 2 ^ s.length + valOf s := by
  simp only [valOf, List.foldl_cons]
  rw [valOf_foldl]
  simp [valOf]

theorem valOf_append (s t : Bits) : valOf (s ++ t) = valOf s * 2 ^ t.length + valOf t := by
  simp only [valOf, List.foldl_append]
  rw [valOf_foldl]
  rfl

theorem valOf_lt (s : Bits) : valOf s < 2 ^ s.length := by
  induction s with
  | nil => simp
  | cons b s ih =>
    rw [valOf_cons, List.length_cons, pow_succ]
    cases b <;> simp <;> omega

theorem valOf_replicate_false (n : Nat) : valOf (List.replicate n false) = 0 := by
  induction n with
  | zero => rfl
  | succ n ih => simp [List.replicate_succ, valOf_cons, ih]

theorem valOf_bitsOf (n v : Nat) : valOf (bitsOf n v) = v % 2 ^ n := by
  induction n with
  | zero => simp [bitsOf, Nat.mod_one]
  | succ n ih =>
    rw [bitsOf, valOf_cons, ih, bitsOf_length, pow_succ, Nat.mod_mul, Nat.testBit_eq_decide_div_mod_eq]
    rcases Nat.mod_two_eq_zero_or_one (v / 2 ^ n) with h | h <;> (simp [h]; try ring)

theorem valOf_bitsOf_of_lt {n v : Nat} (h : v < 2 ^ n) : valOf (bitsOf n v) = v := by
  rw [valOf_bitsOf, Nat.mod_eq_of_lt h]

theorem bitsOf_mod (n v : Nat) : bitsOf n (v % 2 ^ n) = bitsOf n v := by
  suffices h : ∀ m, m ≤ n → bitsOf m (v % 2 ^ n) = bitsOf m v from h n le_rfl
  intro m
  induction m with
  | zero => intro _; rfl
  | succ m ih =>
    intro h
    rw [bitsOf, bitsOf, ih (by omega), Nat.testBit_mod_two_pow]
    simp [show m < n by omega]

theorem bitsOf_valOf (s : Bits) : bitsOf s.length (valOf s) = s := by
  induction s with
  | nil => rfl
  | cons b s ih =>
    have hl := valOf_lt s
    rw [List.length_cons, bitsOf, valOf_cons]
    congr 1
    · cases b
      · simpa using Nat.testBit_lt_two_pow hl
      · rw [Bool.toNat_true, one_mul, Nat.testBit_two_pow_add_eq, Nat.testBit_lt_two_pow hl]; rfl
    · rw [← bitsOf_mod, Nat.mul_add_mod_of_lt' hl, ih]
  where
    Nat.mul_add_mod_of_lt' {a b c : Nat} (h : c < b) : (a * b + c) % b = c := by
      rw [Nat.add_comm, Nat.add_mul_mod_self_right, Nat.mod_eq_of_lt h]

namespace Machine

@[simp] theorem sampleInt_toSample {v : Int} (h : 0 ≤ v) (h' : v ≤ 65535) : sampleInt (toSample v) = v := by
  simp only [sampleInt, toSample, BitVec.toNat_ofInt]
  norm_num
  omega

theorem sampleInt_nonneg (v : Sample) : 0 ≤ sampleInt v := by simp [sampleInt]

theorem sampleInt_le (v : Sample) : sampleInt v ≤ 65535 := by
  have := v.isLt
  simp only [sampleInt]
  omega

theorem sampleInt_inj {u v : Sample} : sampleInt u = sampleInt v ↔ u = v := by
  simp only [sampleInt, Nat.cast_inj]
  exact BitVec.toNat_inj

/-- A sample reconstructed from an integer is that integer modulo 65536. -/
theorem sampleInt_toSample_mod (v : Int) : sampleInt (toSample v) = v % 65536 := by
  simp only [sampleInt, toSample, BitVec.toNat_ofInt]
  norm_num
  omega

theorem toInt_ofInt_of_fits {v : Int} (h : fits32 v = true) : (BitVec.ofInt 32 v).toInt = v := by
  simp only [fits32, Bool.and_eq_true, decide_eq_true_eq] at h
  rw [BitVec.toInt_ofInt, Int.bmod_eq_of_le] <;> norm_num <;> omega

theorem fits32_toInt (c : Word32) : fits32 c.toInt = true := by
  have h1 := c.toInt_lt
  have h2 := c.le_toInt
  simp only [fits32, Bool.and_eq_true, decide_eq_true_eq]
  norm_num at h1 h2 ⊢
  omega

theorem toInt_storeCounter {v : Int} (h : fits32 v = true) : (storeCounter v).toInt = v := by
  simp only [storeCounter, h, if_true, toInt_ofInt_of_fits]

theorem toInt_tableC (i : Int) : (tableC i).toInt = clamp i (-128) 127 := by
  have h1 : -128 ≤ clamp i (-128) 127 := by simp only [clamp]; omega
  have h2 : clamp i (-128) 127 ≤ 127 := by simp only [clamp]; omega
  rw [tableC, show Config.cMin = -128 from rfl, show Config.cMax = 127 from rfl, BitVec.toInt_ofInt,
    Int.bmod_eq_of_le] <;> norm_num <;> omega

theorem asr_one (v : Int) : asr v 1 = v / 2 := by simp [asr]

theorem jTable_le (i : Fin 32) : jTable i ≤ 15 := by revert i; decide

theorem chunk_pos (i : Fin 32) : 1 ≤ chunk i := Nat.one_le_two_pow

theorem runLimit_bounds (i : Fin 32) : 48 ≤ runLimit i ∧ runLimit i ≤ 63 := by revert i; decide

@[simp] theorem indexInc_val (i : Fin 32) : (indexInc i).val = min 31 (i.val + 1) := rfl

@[simp] theorem indexDec_val (i : Fin 32) : (indexDec i).val = i.val - 1 := rfl

end Machine

end Sys2Proof
end

