-- ==== Sys2Proof/Laws/Reader.lean ====
section
/-! SUPPORT. The bit reader: every read answers what the decoder answers on the bits still pending, and leaves the rest
pending; where bits are missing it ends at the end of IN. -/

namespace Sys2Proof.Machine

theorem unstuffByte_length (ff : Bool) (b : Byte) : (unstuffByte ff b).length = needBits ff := by
  cases ff <;> simp [unstuffByte, needBits]

theorem Reader.unread_of_ge {inp : Space 8} {size : Nat} {r : Reader} (h : size ≤ r.pos) : r.unread inp size = [] := by
  simp [Reader.unread, Nat.sub_eq_zero_of_le h]

theorem Reader.unread_of_lt {inp : Space 8} {size : Nat} {r : Reader} (h : r.pos < size) :
    r.unread inp size = readCell inp r.pos :: ({ r with pos := r.pos + 1 } : Reader).unread inp size := by
  obtain ⟨n, hn⟩ : ∃ n, size - r.pos = n + 1 := ⟨size - r.pos - 1, by omega⟩
  simp only [Reader.unread, hn, show size - (r.pos + 1) = n by omega, List.range'_succ, List.map_cons]

/-- `BR.READBIT` gives the first pending bit (R125). -/
theorem readBit_of_pending {inp : Space 8} {size : Nat} {r : Reader} {b : Bool} {rest : Bits}
    (h : r.pending inp size = b :: rest) :
    ∃ r', readBit inp size r = .ok (b, r') ∧ r'.pending inp size = rest ∧ (r.pos ≤ size → r'.pos ≤ size) := by
  unfold readBit
  cases hq : r.rq with
  | cons c q =>
    simp only [Reader.pending, hq, List.cons_append, List.cons.injEq] at h
    exact ⟨{ r with rq := q }, by rw [h.1], h.2, id⟩
  | nil =>
    by_cases hp : r.pos ≥ size
    · rw [Reader.pending, hq, Reader.unread_of_ge hp] at h
      simp [unstuffFrom] at h
    · simp only [hp, if_false]
      have hlt : r.pos < size := by omega
      rw [Reader.pending, hq, Reader.unread_of_lt hlt, unstuffFrom, List.nil_append] at h
      have hne := unstuffByte_length r.ffpend (readCell inp r.pos)
      simp only [Reader.receive, List.nil_append]
      cases hu : unstuffByte r.ffpend (readCell inp r.pos) with
      | nil => rw [hu] at hne; have := (by cases r.ffpend <;> decide : 7 ≤ needBits r.ffpend); simp at hne; omega
      | cons c q =>
        rw [hu, List.cons_append, List.cons.injEq] at h
        refine ⟨{ rq := q, ffpend := ffAfter (readCell inp r.pos), pos := r.pos + 1 }, by rw [← h.1], ?_, fun _ => hlt⟩
        rw [← h.2]
        rfl

/-- With no bit pending `BR.READBIT` finds no byte left, and has changed nothing (R125). -/
theorem readBit_of_pending_nil {inp : Space 8} {size : Nat} {r : Reader} (h : r.pending inp size = []) :
    readBit inp size r = .error r ∧ size ≤ r.pos := by
  simp only [Reader.pending, List.append_eq_nil_iff] at h
  unfold readBit
  rw [h.1]
  by_cases hp : r.pos ≥ size
  · simp [hp]
  · rw [Reader.unread_of_lt (by omega), unstuffFrom, List.append_eq_nil_iff] at h
    have hne := unstuffByte_length r.ffpend (readCell inp r.pos)
    rw [h.2.1] at hne
    cases hf : r.ffpend <;> simp [hf, needBits] at hne

theorem readBinFrom_of_pending {inp : Space 8} {size n v : Nat} {r : Reader} {s rest : Bits}
    (h : r.pending inp size = s ++ rest) (hs : s.length = n) :
    ∃ r', readBinFrom inp size n v r = .ok (v * 2 ^ n + valOf s, r') ∧ r'.pending inp size = rest ∧
      (r.pos ≤ size → r'.pos ≤ size) := by
  induction n generalizing v r s with
  | zero =>
    obtain rfl := List.length_eq_zero_iff.mp hs
    exact ⟨r, by simp [readBinFrom], h, id⟩
  | succ n ih =>
    cases s with
    | nil => simp at hs
    | cons b s =>
      obtain ⟨r1, h1, h2, h3⟩ := readBit_of_pending (rest := s ++ rest) h
      obtain ⟨r2, h4, h5, h6⟩ := ih (v := 2 * v + b.toNat) h2 (by simpa using hs)
      refine ⟨r2, ?_, h5, fun hr => h6 (h3 hr)⟩
      simp only [readBinFrom, h1, h4, valOf_cons]
      rw [show s.length = n by simpa using hs]
      congr 2
      ring

theorem readBinFrom_of_short {inp : Space 8} {size n v : Nat} {r : Reader} (h : (r.pending inp size).length < n) :
    ∃ r', readBinFrom inp size n v r = .error r' ∧ (r.pos ≤ size → r'.pos = size) := by
  induction n generalizing v r with
  | zero => omega
  | succ n ih =>
    cases hp : r.pending inp size with
    | nil =>
      obtain ⟨h1, h2⟩ := readBit_of_pending_nil hp
      exact ⟨r, by simp only [readBinFrom, h1], fun _ => by omega⟩
    | cons b rest =>
      obtain ⟨r1, h1, h2, h3⟩ := readBit_of_pending hp
      obtain ⟨r2, h4, h5⟩ := ih (v := 2 * v + b.toNat) (r := r1) (by rw [hp] at h; rw [h2]; simpa using h)
      exact ⟨r2, by simp only [readBinFrom, h1, h4], fun hr => h5 (h3 hr)⟩

/-- `BR.READBIN n` gives the value of the first n pending bits (R126). -/
theorem readBin_of_pending {inp : Space 8} {size n : Nat} {r : Reader} {s rest : Bits}
    (h : r.pending inp size = s ++ rest) (hs : s.length = n) :
    ∃ r', readBin inp size n r = .ok (valOf s, r') ∧ r'.pending inp size = rest ∧ (r.pos ≤ size → r'.pos ≤ size) := by
  simpa [readBin] using readBinFrom_of_pending (v := 0) h hs

/-- `BR.READBIN n` with fewer than n bits pending ends at the end of IN (R126). -/
theorem readBin_of_short {inp : Space 8} {size n : Nat} {r : Reader} (h : (r.pending inp size).length < n) :
    ∃ r', readBin inp size n r = .error r' ∧ (r.pos ≤ size → r'.pos = size) :=
  readBinFrom_of_short h

theorem Reader.pending_length_le (inp : Space 8) (size : Nat) (r : Reader) :
    (r.pending inp size).length ≤ r.left size := by
  have key : ∀ (l : List Byte) (ff : Bool), (unstuffFrom ff l).length ≤ 8 * l.length := by
    intro l
    induction l with
    | nil => simp [unstuffFrom]
    | cons b l ih =>
      intro ff
      have h1 := ih (decide (b = 0xFF))
      have h2 : needBits ff ≤ 8 := by cases ff <;> decide
      rw [unstuffFrom, List.length_append, unstuffByte_length, List.length_cons]
      omega
  have := key (r.unread inp size) r.ffpend
  simp only [Reader.unread, List.length_map, List.length_range'] at this
  simp only [Reader.pending, Reader.left, List.length_append, Reader.unread]
  omega

theorem readUnaryFrom_of_takeUnary {inp : Space 8} {size fuel n m : Nat} {r : Reader} {rest : Bits}
    (h : takeUnary (r.pending inp size) = .ok (m, rest)) (hf : (r.pending inp size).length < fuel) :
    ∃ r', readUnaryFrom inp size fuel n r = .ok (n + m, r') ∧ r'.pending inp size = rest ∧
      (r.pos ≤ size → r'.pos ≤ size) := by
  induction fuel generalizing n m r with
  | zero => omega
  | succ fuel ih =>
    cases hp : r.pending inp size with
    | nil => rw [hp] at h; simp [takeUnary] at h
    | cons b q =>
      obtain ⟨r1, h1, h2, h3⟩ := readBit_of_pending hp
      rw [hp, takeUnary] at h
      simp only [readUnaryFrom, h1]
      by_cases hb : b = Config.unaryStop
      · rw [if_pos hb] at h ⊢
        simp only [Except.ok.injEq, Prod.mk.injEq] at h
        exact ⟨r1, by rw [← h.1, Nat.add_zero], by rw [h2, h.2], h3⟩
      · rw [if_neg hb] at h ⊢
        cases ht : takeUnary q with
        | error e => rw [ht] at h; simp at h
        | ok p =>
          rw [ht] at h
          simp only [Except.ok.injEq, Prod.mk.injEq] at h
          obtain ⟨r2, h4, h5, h6⟩ := ih (n := n + 1) (m := p.1) (r := r1) (by rw [h2, ht, ← h.2])
            (by rw [hp] at hf; rw [h2]; simpa using hf)
          exact ⟨r2, by rw [h4, ← h.1, Nat.add_assoc, Nat.add_comm 1], h5, fun hr => h6 (h3 hr)⟩

theorem readUnaryFrom_of_error {inp : Space 8} {size fuel n : Nat} {r : Reader} {e : DecodeError}
    (h : takeUnary (r.pending inp size) = .error e) (hf : (r.pending inp size).length < fuel) :
    ∃ r', readUnaryFrom inp size fuel n r = .error r' ∧ (r.pos ≤ size → r'.pos = size) := by
  induction fuel generalizing n r with
  | zero => omega
  | succ fuel ih =>
    cases hp : r.pending inp size with
    | nil =>
      obtain ⟨h1, h2⟩ := readBit_of_pending_nil hp
      exact ⟨r, by simp only [readUnaryFrom, h1], fun _ => by omega⟩
    | cons b q =>
      obtain ⟨r1, h1, h2, h3⟩ := readBit_of_pending hp
      rw [hp, takeUnary] at h
      by_cases hb : b = Config.unaryStop
      · rw [if_pos hb] at h; simp at h
      · rw [if_neg hb] at h
        cases ht : takeUnary q with
        | ok p => rw [ht] at h; simp at h
        | error e' =>
          obtain ⟨r2, h4, h5⟩ := ih (n := n + 1) (r := r1) (by rw [h2, ht])
            (by rw [hp] at hf; rw [h2]; simpa using hf)
          exact ⟨r2, by simp only [readUnaryFrom, h1, if_neg hb, h4], fun hr => h5 (h3 hr)⟩

/-- `BR.READUNARY` counts as the decoder does (R127). -/
theorem readUnary_of_takeUnary {inp : Space 8} {size m : Nat} {r : Reader} {rest : Bits}
    (h : takeUnary (r.pending inp size) = .ok (m, rest)) :
    ∃ r', readUnary inp size r = .ok (m, r') ∧ r'.pending inp size = rest ∧ (r.pos ≤ size → r'.pos ≤ size) := by
  simpa [readUnary] using
    readUnaryFrom_of_takeUnary (n := 0) h (Nat.lt_succ_of_le (r.pending_length_le inp size))

/-- `BR.READUNARY` with no stop bit pending ends at the end of IN (R127). -/
theorem readUnary_of_error {inp : Space 8} {size : Nat} {r : Reader} {e : DecodeError}
    (h : takeUnary (r.pending inp size) = .error e) :
    ∃ r', readUnary inp size r = .error r' ∧ (r.pos ≤ size → r'.pos = size) :=
  readUnaryFrom_of_error h (Nat.lt_succ_of_le (r.pending_length_le inp size))

theorem takeBits_eq_ok {n : Nat} {s p rest : Bits} (h : takeBits n s = .ok (p, rest)) :
    s = p ++ rest ∧ p.length = n := by
  unfold takeBits at h
  split_ifs at h with hl
  simp only [Except.ok.injEq, Prod.mk.injEq] at h
  obtain ⟨rfl, rfl⟩ := h
  exact ⟨(List.take_append_drop n s).symm, by rw [List.length_take]; omega⟩

theorem takeBits_append {n : Nat} {p rest : Bits} (h : p.length = n) : takeBits n (p ++ rest) = .ok (p, rest) := by
  unfold takeBits
  rw [if_neg (by simp [h]), List.take_left' h, List.drop_left' h]

theorem takeBits_eq_error {n : Nat} {s : Bits} {e : DecodeError} (h : takeBits n s = .error e) : s.length < n := by
  unfold takeBits at h
  split_ifs at h with hl
  exact hl

theorem takeUnary_append (n : Nat) (rest : Bits) : takeUnary (unary n ++ rest) = .ok (n, rest) := by
  induction n with
  | zero => simp [unary, takeUnary]
  | succ n ih =>
    rw [show unary (n + 1) ++ rest = (!Config.unaryStop) :: (unary n ++ rest) from rfl, takeUnary, ih]
    simp [Config.unaryStop]

/-- What is counted as a unary code is one. -/
theorem takeUnary_eq_ok {n : Nat} {s rest : Bits} (h : takeUnary s = .ok (n, rest)) : s = unary n ++ rest := by
  induction s generalizing n with
  | nil => cases h
  | cons b s ih =>
    unfold takeUnary at h
    split_ifs at h with hb
    · cases h
      rw [hb]
      rfl
    · cases ht : takeUnary s with
      | error e => rw [ht] at h; cases h
      | ok p =>
        rw [ht] at h
        cases h
        rw [ih ht]
        cases b with
        | false => rfl
        | true => exact absurd rfl hb

/-- `GR.DEC` reads the codeword the decoder decodes from the pending bits, and answers its value (R181). -/
theorem readGolomb_of_decode {inp : Space 8} {size k limit : Nat} {r : Reader} {i : Instr} {rest : Bits}
    (h : decode (.golomb k limit) (r.pending inp size) = .ok (i, rest)) :
    ∃ r', readGolomb inp size k limit r = .ok (golombValue i, r') ∧ r'.pending inp size = rest ∧
      (r.pos ≤ size → r'.pos ≤ size) := by
  simp only [decode, decodeGolomb] at h
  cases hu : takeUnary (r.pending inp size) with
  | error e => rw [hu] at h; simp at h
  | ok p =>
    rw [hu] at h
    obtain ⟨r1, h1, h2, h3⟩ := readUnary_of_takeUnary hu
    simp only [readGolomb, h1]
    by_cases hlt : p.1 < escThreshold limit
    · simp only [hlt, if_true] at h
      rw [if_neg (by omega)]
      cases ht : takeBits k p.2 with
      | error e => rw [ht] at h; simp at h
      | ok q =>
        rw [ht] at h
        simp only [Except.ok.injEq, Prod.mk.injEq] at h
        obtain ⟨h4, h5⟩ := takeBits_eq_ok ht
        obtain ⟨r2, h6, h7, h8⟩ := readBin_of_pending (h2.trans h4) h5
        exact ⟨r2, by rw [h6, ← h.1, golombValue, Nat.shiftLeft_eq], by rw [h7, h.2], fun hr => h8 (h3 hr)⟩
    · simp only [hlt, if_false] at h
      rw [if_pos (by omega)]
      cases ht : takeBits Config.qbpp p.2 with
      | error e => rw [ht] at h; simp at h
      | ok q =>
        rw [ht] at h
        simp only [Except.ok.injEq, Prod.mk.injEq] at h
        obtain ⟨h4, h5⟩ := takeBits_eq_ok ht
        obtain ⟨r2, h6, h7, h8⟩ := readBin_of_pending (h2.trans h4) h5
        refine ⟨r2, ?_, by rw [h7, h.2], fun hr => h8 (h3 hr)⟩
        have := valOf_lt q.1
        rw [h5, Config.qbpp] at this
        rw [h6, ← h.1]
        simp only [golombValue, BitVec.toNat_ofNat]
        rw [Nat.mod_eq_of_lt this]

/-- `GR.DEC` on bits that end inside the codeword ends at the end of IN (R181). -/
theorem readGolomb_of_error {inp : Space 8} {size k limit : Nat} {r : Reader} {e : DecodeError}
    (h : decode (.golomb k limit) (r.pending inp size) = .error e) :
    ∃ r', readGolomb inp size k limit r = .error r' ∧ (r.pos ≤ size → r'.pos = size) := by
  simp only [decode, decodeGolomb] at h
  cases hu : takeUnary (r.pending inp size) with
  | error e =>
    obtain ⟨r1, h1, h2⟩ := readUnary_of_error hu
    exact ⟨r1, by simp only [readGolomb, h1], h2⟩
  | ok p =>
    rw [hu] at h
    obtain ⟨r1, h1, h2, h3⟩ := readUnary_of_takeUnary hu
    simp only [readGolomb, h1]
    by_cases hlt : p.1 < escThreshold limit
    · simp only [hlt, if_true] at h
      rw [if_neg (by omega)]
      cases ht : takeBits k p.2 with
      | ok q => rw [ht] at h; simp at h
      | error e' =>
        obtain ⟨r2, h4, h5⟩ := readBin_of_short (r := r1) (n := k) (by rw [h2]; exact takeBits_eq_error ht)
        exact ⟨r2, by rw [h4], fun hr => h5 (h3 hr)⟩
    · simp only [hlt, if_false] at h
      rw [if_pos (by omega)]
      cases ht : takeBits Config.qbpp p.2 with
      | ok q => rw [ht] at h; simp at h
      | error e' =>
        obtain ⟨r2, h4, h5⟩ := readBin_of_short (r := r1) (n := Config.qbpp) (by rw [h2]; exact takeBits_eq_error ht)
        exact ⟨r2, by rw [h4], fun hr => h5 (h3 hr)⟩

/-- More bytes carry more bits after the same ones. -/
theorem unstuffFrom_prefix (ff : Bool) (l m : List Byte) : ∃ r, unstuffFrom ff (l ++ m) = unstuffFrom ff l ++ r := by
  induction l generalizing ff with
  | nil => exact ⟨_, rfl⟩
  | cons b l ih =>
    obtain ⟨r, hr⟩ := ih (b = 0xFF)
    exact ⟨r, by rw [List.cons_append, unstuffFrom, unstuffFrom, hr, List.append_assoc]⟩

/-- A reader at the start of bytes that begin with those of a list has these before it. -/
theorem Reader.unread_of_bytes {inp : Space 8} {size : Nat} {l : List Byte} (hl : l.length ≤ size)
    (h : ∀ i (h : i < l.length), readCell inp i = l[i]) :
    ∃ m, Reader.unread inp size { rq := [], ffpend := false, pos := 0 } = l ++ m := by
  obtain ⟨k, rfl⟩ := Nat.exists_eq_add_of_le hl
  refine ⟨(List.range' l.length k).map (readCell inp), ?_⟩
  unfold Reader.unread
  simp only [Nat.sub_zero]
  rw [← List.range'_append, List.map_append]
  simp only [Nat.zero_add, Nat.one_mul]
  congr 1
  apply List.ext_getElem
  · simp
  · intro i h1 h2
    simpa using h i h2

end Sys2Proof.Machine
end

