-- ==== Sys2Proof/Laws/Writer.lean ====
section
/-! SUPPORT. The bit writer: what draining, writing and flushing do to the bits written so far, to the flag, to the queue
and to SINK. -/

namespace Sys2Proof

theorem unstuffFrom_append (ff : Bool) (l : List Byte) (b : Byte) :
    unstuffFrom ff (l ++ [b]) =
      unstuffFrom ff l ++ unstuffByte (match l.getLast? with | some a => a = 0xFF | none => ff) b := by
  induction l generalizing ff with
  | nil => simp [unstuffFrom]
  | cons a l ih =>
    rw [List.cons_append, unstuffFrom, unstuffFrom, ih, List.append_assoc]
    cases l with
    | nil => simp
    | cons c l => simp [List.getLast?_cons]

/-- A byte formed of the bits its format takes gives those bits back. -/
theorem unstuffByte_valOf {ff : Bool} {s : Bits} (h : s.length = if ff then 7 else 8) :
    unstuffByte ff (.ofNat 8 (valOf s)) = s := by
  have hl := valOf_lt s
  have hb := bitsOf_valOf s
  cases ff
  · simp only [Bool.false_eq_true, if_false] at h
    rw [h] at hl hb
    simp only [unstuffByte, Bool.false_eq_true, if_false, BitVec.toNat_ofNat]
    rw [Nat.mod_eq_of_lt hl, hb]
  · simp only [if_true] at h
    rw [h] at hl hb
    simp only [unstuffByte, if_true, BitVec.toNat_ofNat]
    rw [Nat.mod_eq_of_lt (a := valOf s) (by omega), Nat.mod_eq_of_lt (by omega), hb]

namespace Machine

theorem needBits_pos (ff : Bool) : 7 ≤ needBits ff ∧ needBits ff ≤ 8 := by cases ff <;> decide

/-- The pass of `BW.DRAIN` (R123): the queue's first bits leave as a byte. -/
def Writer.formByte (w : Writer) : Writer :=
  { w with wq := w.wq.drop (needBits w.ffpend) }.emit (.ofNat 8 (valOf (w.wq.take (needBits w.ffpend))))

theorem drainLoop_succ (fuel : Nat) (w : Writer) :
    drainLoop (fuel + 1) w = if w.wq.length < needBits w.ffpend then w else drainLoop fuel w.formByte := rfl

theorem drainLoop_of_short {w : Writer} (h : w.wq.length < needBits w.ffpend) (fuel : Nat) : drainLoop fuel w = w := by
  cases fuel with
  | zero => rfl
  | succ n => rw [drainLoop_succ, if_pos h]

@[simp] theorem Writer.formByte_wq (w : Writer) : w.formByte.wq = w.wq.drop (needBits w.ffpend) := rfl

theorem drainLoop_fuel {f g : Nat} {w : Writer} (hf : w.wq.length ≤ f) (hg : w.wq.length ≤ g) :
    drainLoop f w = drainLoop g w := by
  induction f generalizing g w with
  | zero =>
    rw [drainLoop_of_short (by have := (needBits_pos w.ffpend).1; omega), drainLoop_of_short (by have := (needBits_pos w.ffpend).1; omega)]
  | succ f ih =>
    by_cases h : w.wq.length < needBits w.ffpend
    · rw [drainLoop_of_short h, drainLoop_of_short h]
    · have hp := (needBits_pos w.ffpend).1
      cases g with
      | zero => omega
      | succ g =>
        rw [drainLoop_succ, drainLoop_succ, if_neg h, if_neg h]
        exact ih (by rw [Writer.formByte_wq, List.length_drop]; omega) (by rw [Writer.formByte_wq, List.length_drop]; omega)

/-- `BW.DRAIN`, one pass at a time (R123). -/
theorem Writer.drain_eq (w : Writer) :
    w.drain = if w.wq.length < needBits w.ffpend then w else w.formByte.drain := by
  unfold Writer.drain
  by_cases h : w.wq.length < needBits w.ffpend
  · rw [if_pos h, drainLoop_of_short h]
  · rw [if_neg h]
    have hp := (needBits_pos w.ffpend).1
    obtain ⟨n, hn⟩ : ∃ n, w.wq.length = n + 1 := ⟨w.wq.length - 1, by omega⟩
    rw [hn, drainLoop_succ, if_neg h]
    exact drainLoop_fuel (by rw [Writer.formByte_wq, List.length_drop]; omega) le_rfl

/-- A property that one pass keeps, draining keeps. -/
theorem Writer.drain_induction {P : Writer → Prop} (step : ∀ w : Writer, needBits w.ffpend ≤ w.wq.length → P w → P w.formByte)
    {w : Writer} (h : P w) : P w.drain := by
  suffices H : ∀ n (w : Writer), w.wq.length ≤ n → P w → P w.drain from H _ w le_rfl h
  intro n
  induction n with
  | zero =>
    intro w hn hw
    rw [Writer.drain_eq, if_pos (by have := (needBits_pos w.ffpend).1; omega)]
    exact hw
  | succ n ih =>
    intro w hn hw
    rw [Writer.drain_eq]
    split_ifs with hs
    · exact hw
    · have hp := (needBits_pos w.ffpend).1
      exact ih _ (by rw [Writer.formByte_wq, List.length_drop]; omega) (step w (by omega) hw)

/-- After draining nothing drainable is queued (R123). -/
theorem Writer.drained_drain (w : Writer) : w.drain.drained = true := by
  suffices H : ∀ n (w : Writer), w.wq.length ≤ n → w.drain.drained = true from H _ w le_rfl
  intro n
  induction n with
  | zero =>
    intro w hn
    have hp := (needBits_pos w.ffpend).1
    rw [Writer.drain_eq, if_pos (by omega)]
    simp only [Writer.drained, decide_eq_true_eq]
    omega
  | succ n ih =>
    intro w hn
    rw [Writer.drain_eq]
    split_ifs with hs
    · simpa [Writer.drained] using hs
    · have hp := (needBits_pos w.ffpend).1
      exact ih _ (by rw [Writer.formByte_wq, List.length_drop]; omega)

theorem Writer.drain_of_drained {w : Writer} (h : w.drained = true) : w.drain = w := by
  rw [Writer.drain_eq, if_pos (by simpa [Writer.drained] using h)]

theorem Writer.wq_length_le_of_drained {w : Writer} (h : w.drained = true) : w.wq.length ≤ 7 := by
  have h1 := (needBits_pos w.ffpend).2
  simp only [Writer.drained, decide_eq_true_eq] at h
  omega

@[simp] theorem Writer.flagOk_emit (w : Writer) (b : Byte) : (w.emit b).flagOk = true := by
  simp [Writer.flagOk, Writer.emit, ffAfter]

@[simp] theorem Writer.flagOk_formByte (w : Writer) : w.formByte.flagOk = true := Writer.flagOk_emit _ _

theorem Writer.flagOk_drain {w : Writer} (h : w.flagOk = true) : w.drain.flagOk = true :=
  Writer.drain_induction (P := fun w => w.flagOk = true) (fun w _ _ => w.flagOk_formByte) h

/-- A byte appended to SINK carries its stream bits after those before it. -/
theorem Writer.unstuff_append {w : Writer} (h : w.flagOk = true) (b : Byte) :
    unstuff (w.sink ++ [b]) = unstuff w.sink ++ unstuffByte w.ffpend b := by
  rw [unstuff, unstuffFrom_append, unstuff]
  congr 2
  simp only [Writer.flagOk, decide_eq_true_eq] at h
  cases hl : w.sink.getLast? with
  | none => simp [hl] at h; simp [h]
  | some a => rw [hl] at h; simp only [Option.some.injEq] at h; simp only [eq_iff_iff] at h; cases hf : w.ffpend <;> simp_all

theorem Writer.stream_formByte {w : Writer} (h : w.flagOk = true) (hn : needBits w.ffpend ≤ w.wq.length) :
    w.formByte.stream = w.stream := by
  have hlen : (w.wq.take (needBits w.ffpend)).length = if w.ffpend then 7 else 8 := by
    rw [List.length_take, Nat.min_eq_left hn, needBits]
  show unstuff (w.sink ++ [_]) ++ w.wq.drop (needBits w.ffpend) = unstuff w.sink ++ w.wq
  rw [Writer.unstuff_append h, unstuffByte_valOf hlen, List.append_assoc, List.take_append_drop]

/-- Draining loses no bit (R123). -/
theorem Writer.stream_drain {w : Writer} (h : w.flagOk = true) : w.drain.stream = w.stream :=
  (Writer.drain_induction (P := fun v => v.flagOk = true ∧ v.stream = w.stream)
    (fun v hv hp => ⟨v.flagOk_formByte, (Writer.stream_formByte hp.1 hv).trans hp.2⟩) ⟨h, rfl⟩).2

/-- Writing appends exactly the bits written (R120 to R122). -/
theorem Writer.stream_put {w : Writer} (h : w.flagOk = true) (s : Bits) : (w.put s).stream = w.stream ++ s := by
  rw [Writer.put, Writer.stream_drain (by simpa [Writer.flagOk] using h)]
  simp [Writer.stream]

theorem Writer.flagOk_put {w : Writer} (h : w.flagOk = true) (s : Bits) : (w.put s).flagOk = true :=
  Writer.flagOk_drain (by simpa [Writer.flagOk] using h)

theorem Writer.drained_put (w : Writer) (s : Bits) : (w.put s).drained = true := Writer.drained_drain _

theorem Writer.formByte_append {w : Writer} (h : needBits w.ffpend ≤ w.wq.length) (s : Bits) :
    ({ w with wq := w.wq ++ s } : Writer).formByte = { w.formByte with wq := w.formByte.wq ++ s } := by
  simp only [Writer.formByte, Writer.emit, List.drop_append_of_le_length h, List.take_append_of_le_length h]

/-- Bits queued behind a queue that is drained first are bits queued before draining. -/
theorem Writer.drain_append_drain (w : Writer) (s : Bits) :
    ({ w.drain with wq := w.drain.wq ++ s } : Writer).drain = ({ w with wq := w.wq ++ s } : Writer).drain := by
  suffices H : ∀ n (w : Writer), w.wq.length ≤ n →
      ({ w.drain with wq := w.drain.wq ++ s } : Writer).drain = ({ w with wq := w.wq ++ s } : Writer).drain from
    H _ w le_rfl
  intro n
  induction n with
  | zero =>
    intro w hn
    rw [Writer.drain_of_drained (w := w) (by have := (needBits_pos w.ffpend).1; simp only [Writer.drained, decide_eq_true_eq]; omega)]
  | succ n ih =>
    intro w hn
    by_cases hs : w.wq.length < needBits w.ffpend
    · rw [Writer.drain_of_drained (w := w) (by simpa [Writer.drained] using hs)]
    · have hp := (needBits_pos w.ffpend).1
      rw [Writer.drain_eq w, if_neg hs, ih _ (by rw [Writer.formByte_wq, List.length_drop]; omega),
        Writer.drain_eq { w with wq := w.wq ++ s }, if_neg (by simp only [List.length_append]; omega),
        Writer.formByte_append (by omega)]

/-- Writing two bit sequences is writing their concatenation: the schedule of the drain is not observable (R123, D21). -/
theorem Writer.put_put (w : Writer) (s t : Bits) : (w.put s).put t = w.put (s ++ t) := by
  unfold Writer.put
  rw [Writer.drain_append_drain]
  simp

/-- `BW.WRITEBIT b` is `BW.WRITEBIN b, 1` (R106, R120). -/
theorem Writer.writeBit_eq (w : Writer) (b : Bool) : w.writeBit b = w.writeBin b.toNat 1 := by
  cases b <;> rfl

/-- `GR.ENC` writes one codeword (R95, R96, R180). -/
theorem Writer.writeGolomb_eq (w : Writer) (k m limit : Nat) :
    w.writeGolomb k m limit =
      w.put (if m >>> k < escThreshold limit then unary (m >>> k) ++ bitsOf k (m % 2 ^ k)
        else unary (escThreshold limit) ++ bitsOf 16 ((m - 1) % 2 ^ 16)) := by
  unfold Writer.writeGolomb Writer.writeUnary Writer.writeBin
  split_ifs <;> simp [Writer.put_put, bitsOf_mod, Config.qbpp]

/-- A natural mapped value is written as `GR.ENC` writes it (R180). -/
theorem Writer.writeMapped_natCast (w : Writer) (k m limit : Nat) :
    w.writeMapped k m limit = w.writeGolomb k m limit :=
  if_pos (Int.natCast_nonneg m)

/-- A negative mapped value is written as a free codeword (notes/assumptions/16.md). -/
theorem Writer.writeMapped_neg {w : Writer} {k : Nat} {m : Int} {limit : Nat} (h : m < 0) :
    w.writeMapped k m limit = w.put (Config.freeCodeword k m limit) :=
  if_neg (Int.not_le.mpr h)

/-! SINK. -/

theorem markerFree_append {l : List Byte} {b : Byte} (h : markerFree l = true)
    (hb : l.getLast? = some 0xFF → b.toNat < 128) : markerFree (l ++ [b]) = true := by
  induction l with
  | nil => rfl
  | cons a l ih =>
    cases l with
    | nil =>
      simp only [List.getLast?_singleton, Option.some.injEq] at hb
      simp only [List.cons_append, List.nil_append, markerFree, Bool.and_true, Bool.or_eq_true, decide_eq_true_eq,
        ne_eq]
      by_cases ha : a = 0xFF
      · exact .inr (hb ha)
      · exact .inl ha
    | cons c l =>
      simp only [markerFree, Bool.and_eq_true, List.cons_append] at h ⊢
      exact ⟨h.1, ih h.2 (by simpa [List.getLast?_cons] using hb)⟩

theorem Writer.markerFree_formByte {w : Writer} (h : w.flagOk = true) (hn : needBits w.ffpend ≤ w.wq.length)
    (hm : markerFree w.sink = true) : markerFree w.formByte.sink = true := by
  refine markerFree_append hm fun hl => ?_
  simp only [Writer.flagOk, hl, decide_eq_true_eq, eq_iff_iff, iff_true] at h
  have := valOf_lt (w.wq.take (needBits w.ffpend))
  rw [List.length_take, Nat.min_eq_left hn, h, needBits] at this
  rw [h, BitVec.toNat_ofNat, needBits]
  exact lt_of_le_of_lt (Nat.mod_le _ _) (by simpa using this)

theorem Writer.markerFree_drain {w : Writer} (h : w.flagOk = true) (hm : markerFree w.sink = true) :
    markerFree w.drain.sink = true :=
  (Writer.drain_induction (P := fun v => v.flagOk = true ∧ markerFree v.sink = true)
    (fun v hv hp => ⟨v.flagOk_formByte, Writer.markerFree_formByte hp.1 hv hp.2⟩) ⟨h, hm⟩).2

theorem Writer.markerFree_put {w : Writer} (h : w.flagOk = true) (hm : markerFree w.sink = true) (s : Bits) :
    markerFree (w.put s).sink = true :=
  Writer.markerFree_drain (by simpa [Writer.flagOk] using h) hm

/-- SINK only grows at its end (R60). -/
theorem Writer.sink_prefix_drain (w : Writer) : w.sink <+: w.drain.sink :=
  Writer.drain_induction (P := fun v => w.sink <+: v.sink)
    (fun _ _ hp => hp.trans (List.prefix_append _ _)) (List.prefix_refl _)

theorem Writer.sink_prefix_put (w : Writer) (s : Bits) : w.sink <+: (w.put s).sink :=
  Writer.sink_prefix_drain { w with wq := w.wq ++ s }

/-! Flush. -/

@[simp] theorem Writer.wq_pad (w : Writer) : w.pad.wq = [] := by
  unfold Writer.pad
  split_ifs with h1 h2
  · rfl
  · simpa using h1
  · simpa using h1

@[simp] theorem Writer.ffpend_pad (w : Writer) : w.pad.ffpend = false := by
  unfold Writer.pad
  split_ifs with h1 h2
  · rfl
  · rfl
  · simpa using h2

/-- A partial byte padded with zeros: below 0x80 after a 0xFF, and never 0xFF itself (R124). -/
theorem padded_byte {ff : Bool} {q : Bits} (h : q.length < needBits ff) :
    (BitVec.ofNat 8 (valOf (q ++ List.replicate (needBits ff - q.length) false)) : Byte) ≠ 0xFF ∧
      (ff = true → (BitVec.ofNat 8 (valOf (q ++ List.replicate (needBits ff - q.length) false)) : Byte).toNat < 128) ∧
      unstuffByte ff (.ofNat 8 (valOf (q ++ List.replicate (needBits ff - q.length) false))) =
        q ++ List.replicate (needBits ff - q.length) false := by
  have hn := (needBits_pos ff).2
  have hlen : (q ++ List.replicate (needBits ff - q.length) false).length = needBits ff := by simp; omega
  have hlt := valOf_lt (q ++ List.replicate (needBits ff - q.length) false)
  rw [hlen] at hlt
  have h8 : valOf (q ++ List.replicate (needBits ff - q.length) false) < 256 :=
    lt_of_lt_of_le hlt (by cases ff <;> decide)
  have heven : valOf (q ++ List.replicate (needBits ff - q.length) false) % 2 = 0 := by
    obtain ⟨m, hm⟩ : ∃ m, needBits ff - q.length = m + 1 := ⟨needBits ff - q.length - 1, by omega⟩
    rw [hm, List.replicate_succ', ← List.append_assoc, valOf_append]
    simp [valOf]
  refine ⟨fun hff => ?_, fun hff => ?_, unstuffByte_valOf (by rw [hlen, needBits])⟩
  · have := congrArg BitVec.toNat hff
    rw [BitVec.toNat_ofNat, Nat.mod_eq_of_lt (by omega)] at this
    rw [this] at heven
    simp at heven
  · subst hff
    rw [BitVec.toNat_ofNat, Nat.mod_eq_of_lt (by omega)]
    simpa [needBits] using hlt

/-- What the padding of `BW.FLUSH` does to a drained writer (R124): at most seven zero bits are added, SINK does not end
in 0xFF, and no marker appears. -/
theorem Writer.pad_spec {w : Writer} (h : w.flagOk = true) (hd : w.drained = true) :
    (∃ p ≤ 7, unstuff w.pad.sink = w.stream ++ List.replicate p false) ∧ w.pad.sink.getLast? ≠ some 0xFF ∧
      w.pad.flagOk = true ∧ (markerFree w.sink = true → markerFree w.pad.sink = true) ∧ w.sink <+: w.pad.sink := by
  simp only [Writer.drained, decide_eq_true_eq] at hd
  have hflag := h
  simp only [Writer.flagOk, decide_eq_true_eq] at hflag
  by_cases h1 : w.wq.length > 0
  · have hp : w.pad = ⟨[], false, w.sink ++ [.ofNat 8 (valOf (w.wq ++ List.replicate (needBits w.ffpend - w.wq.length) false))]⟩ := by
      rw [Writer.pad, if_pos h1]
    obtain ⟨e1, e2, e3⟩ := padded_byte hd
    have hn := (needBits_pos w.ffpend).2
    rw [hp]
    refine ⟨⟨needBits w.ffpend - w.wq.length, by omega, ?_⟩, by simpa using e1, by simpa [Writer.flagOk] using e1,
      fun hm => markerFree_append hm fun hl => e2 ?_, List.prefix_append _ _⟩
    · rw [Writer.unstuff_append h, e3, Writer.stream, List.append_assoc]
    · simpa [hl] using hflag
  · have hq : w.wq = [] := List.length_eq_zero_iff.mp (by omega)
    by_cases h2 : w.ffpend = true
    · have hp : w.pad = { w with sink := w.sink ++ [0x00], ffpend := false } := by
        rw [Writer.pad, if_neg h1, if_pos h2]
      rw [hp]
      refine ⟨⟨7, le_rfl, ?_⟩, by simp, by simp [Writer.flagOk], fun hm => markerFree_append hm fun _ => by decide,
        List.prefix_append _ _⟩
      show unstuff (w.sink ++ [0x00]) = _
      rw [Writer.unstuff_append h, h2, Writer.stream, hq, List.append_nil]
      rfl
    · have hp : w.pad = w := by rw [Writer.pad, if_neg h1, if_neg h2]
      rw [hp]
      refine ⟨⟨0, by omega, by simp [Writer.stream, hq]⟩, fun hl => h2 (by simpa [hl] using hflag), h, id,
        List.prefix_refl _⟩

/-- What `BW.FLUSH` appends to SINK is `go` of the queued bits (R124, R128). -/
theorem Writer.flush_sink (w : Writer) : w.flush.sink = w.sink ++ stuffFrom (w.wq.length + 1) w.wq w.ffpend := by
  suffices H : ∀ n (w : Writer), w.wq.length < n → w.flush.sink = w.sink ++ stuffFrom n w.wq w.ffpend from
    H _ w (Nat.lt_succ_self _)
  intro n
  induction n with
  | zero => intro w hn; omega
  | succ n ih =>
    intro w hn
    have hp := needBits_pos w.ffpend
    rw [Writer.flush, Writer.drain_eq, stuffFrom]
    simp only [show (if w.ffpend = true then 7 else 8) = needBits w.ffpend from rfl]
    by_cases hs : w.wq.length < needBits w.ffpend
    · rw [if_pos hs, Writer.pad]
      by_cases h0 : w.wq.length = 0
      · rw [if_neg (by omega), if_pos h0]
        cases hf : w.ffpend <;> simp
      · rw [if_pos (by omega), if_neg h0, if_pos hs]
    · rw [if_neg hs, if_neg (by omega)]
      have := ih w.formByte (by rw [Writer.formByte_wq, List.length_drop]; omega)
      rw [Writer.flush] at this
      rw [this]
      simp only [Writer.formByte, Writer.emit, ffAfter, List.append_assoc, List.cons_append, List.nil_append]
      rw [if_neg hs]

end Machine

end Sys2Proof
end

