-- ==== Sys2Proof/Laws/Codewords.lean ====
section
/-! SUPPORT. The bits of a Golomb-Rice codeword, as the encoder writes and the decoder reads them. -/

namespace Sys2Proof

/-- The bits `GR.ENC k, m, limit` writes (R95, R96, R180). -/
def golombBits (k m limit : Nat) : Bits :=
  if m / 2 ^ k < escThreshold limit then unary (m / 2 ^ k) ++ bitsOf k (m % 2 ^ k)
  else unary (escThreshold limit) ++ bitsOf 16 (m - 1)

/-- What `GR.ENC` may be given: a short form, or an escape whose value fits the field (R180). -/
def golombOk (k m limit : Nat) : Prop := m / 2 ^ k < escThreshold limit ∨ (1 ≤ m ∧ m ≤ 65536)

theorem golombBits_ne_nil (k m limit : Nat) : golombBits k m limit ≠ [] := by
  unfold golombBits unary
  split_ifs <;> simp

namespace Machine

/-- Decoding a short form. -/
theorem decodeGolomb_short {k limit h : Nat} {v : Bits} (rest : Bits) (hh : h < escThreshold limit) (hv : v.length = k) :
    decode (.golomb k limit) (unary h ++ v ++ rest) = .ok (.gr k limit h (valOf v), rest) := by
  simp only [decode, decodeGolomb]
  rw [List.append_assoc, takeUnary_append]
  simp only [hh, if_true]
  rw [takeBits_append hv]

/-- Decoding an escape, its prefix at least as long as the encoder's. -/
theorem decodeGolomb_escape {k limit h : Nat} {v : Bits} (rest : Bits) (hh : escThreshold limit ≤ h) (hv : v.length = 16) :
    decode (.golomb k limit) (unary h ++ v ++ rest) = .ok (.esc limit (.ofNat 16 (valOf v)), rest) := by
  simp only [decode, decodeGolomb]
  rw [List.append_assoc, takeUnary_append]
  simp only [Nat.not_lt.mpr hh, if_false]
  rw [takeBits_append (show v.length = Config.qbpp from hv)]

theorem golombValue_gr (k limit h low : Nat) : golombValue (.gr k limit h low) = h * 2 ^ k + low := rfl

theorem golombValue_esc (limit : Nat) (v : BitVec 16) : golombValue (.esc limit v) = v.toNat + 1 := rfl

/-- The decoder reads back the value `GR.ENC` was given, and stands after its bits. -/
theorem decode_golombBits {k m limit : Nat} (rest : Bits) (h : golombOk k m limit) :
    ∃ i, decode (.golomb k limit) (golombBits k m limit ++ rest) = .ok (i, rest) ∧ golombValue i = m := by
  unfold golombBits
  by_cases hs : m / 2 ^ k < escThreshold limit
  · rw [if_pos hs]
    refine ⟨_, decodeGolomb_short rest hs (bitsOf_length _ _), ?_⟩
    rw [golombValue_gr, valOf_bitsOf, Nat.mod_mod]
    exact Nat.div_add_mod' m (2 ^ k)
  · obtain ⟨h1, h2⟩ := h.resolve_left hs
    rw [if_neg hs]
    refine ⟨_, decodeGolomb_escape rest (by omega) (bitsOf_length _ _), ?_⟩
    rw [golombValue_esc, BitVec.toNat_ofNat, valOf_bitsOf]
    omega

/-- `GR.ENC` writes its codeword in one (R180). -/
theorem Writer.writeGolomb_put {w : Writer} {k m limit : Nat} (h : golombOk k m limit) :
    w.writeGolomb k m limit = w.put (golombBits k m limit) := by
  rw [Writer.writeGolomb_eq, Nat.shiftRight_eq_div_pow]
  unfold golombBits
  by_cases hs : m / 2 ^ k < escThreshold limit
  · simp only [hs, if_true]
  · obtain ⟨h1, h2⟩ := h.resolve_left hs
    simp only [hs, if_false]
    rw [Nat.mod_eq_of_lt (by omega)]

/-- In regular mode every mapped value may be sent (R183). -/
theorem golombOk_regular {k m : Nat} (h : m ≤ 65535) : golombOk k m 64 := by
  unfold golombOk
  by_cases h0 : m = 0
  · subst h0
    exact .inl (by rw [Nat.zero_div]; decide)
  · exact .inr ⟨by omega, by omega⟩

/-- At a run interruption every mapped value may be sent (R182, R183). -/
theorem golombOk_run {k m : Nat} (i : Fin 32) (h : m ≤ 65536) : golombOk k m (runLimit i) := by
  unfold golombOk
  by_cases h0 : m = 0
  · subst h0
    refine .inl ?_
    have := runLimit_bounds i
    rw [Nat.zero_div, escThreshold, show Config.qbpp + 1 = 17 from rfl]
    omega
  · exact .inr ⟨by omega, h⟩

end Machine

end Sys2Proof
end

