-- ==== Sys2Proof/Laws/Contexts.lean ====
section
/-! SUPPORT. The context files: the Golomb parameter search, and what the two updates do to an entry. -/

namespace Sys2Proof.Machine

/-- The search ends at the least k with `n << k >= target` (R161, R173). -/
theorem leastShift_eq_some {n target : Int} {k : Nat} (h : leastShift n target = some k) :
    target ≤ n * 2 ^ k ∧ (∀ j < k, n * 2 ^ j < target) ∧ k ≤ 33 := by
  obtain ⟨h1, h2, h3⟩ := List.find?_range_eq_some.mp h
  refine ⟨by simpa using h1, fun j hj => ?_, by have := List.mem_range.mp h2; omega⟩
  simpa using h3 j hj

/-- The search ends when n is at least 1 and the target has at most 33 bits (R256). -/
theorem leastShift_isSome {n target : Int} (hn : 1 ≤ n) (ht : target ≤ 2 ^ 33) : ∃ k, leastShift n target = some k := by
  cases h : leastShift n target with
  | some k => exact ⟨k, rfl⟩
  | none =>
    have := List.find?_eq_none.mp h 33 (by decide)
    simp only [decide_eq_true_eq] at this
    omega

/-- The search does not end when n is below 1 and below the target (U5). -/
theorem leastShift_eq_none {n target : Int} (hn : n ≤ 0) (ht : n < target) : leastShift n target = none := by
  refine List.find?_eq_none.mpr fun k _ => ?_
  have h1 : (1 : Int) ≤ 2 ^ k := one_le_pow₀ (by norm_num)
  simp only [decide_eq_true_eq, not_le]
  nlinarith

theorem RegCtx.getK_isSome {c : RegCtx} (h : c.Inv) : ∃ k, c.getK = some k := by
  have := fits32_toInt c.a
  simp only [fits32, Bool.and_eq_true, decide_eq_true_eq] at this
  exact leastShift_isSome h.1 (by omega)

theorem RunCtx.getK_isSome {c : RunCtx} {t : Fin 2} (h : c.Inv t) : ∃ k, c.getK t = some k := by
  have h1 := fits32_toInt c.a
  simp only [fits32, Bool.and_eq_true, decide_eq_true_eq] at h1
  have h2 := h.2.1
  refine leastShift_isSome h.1 ?_
  rw [asr_one]
  have ht : ((t.val : Int)) = 0 ∨ ((t.val : Int)) = 1 := by have := t.isLt; omega
  rcases ht with ht | ht <;> rw [ht] <;> omega

theorem fits32_iff {v : Int} : fits32 v = true ↔ -2147483648 ≤ v ∧ v ≤ 2147483647 := by simp [fits32]

/-- Step 4 and 5 of `RC.UPDATE` with a count of at least 1: it always stores, and the new entry's fields are the working
copies (R165). -/
theorem RegCtx.bias_spec (c : RegCtx) {a b n : Int} (ha : fits32 a = true) (hb : fits32 b = true) (hn : 1 ≤ n)
    (hn' : n ≤ 2147483647) :
    ∃ c', c.bias a b n = some c' ∧ c'.a.toInt = a ∧ c'.n.toInt = n ∧
      c'.b.toInt = (if b + n ≤ 0 then max (b + n) (-n + 1) else if b > 0 then min (b - n) 0 else b) ∧
      c'.c.toInt = (if b + n ≤ 0 then max (-128) (c.c.toInt - 1)
        else if b > 0 then min 127 (c.c.toInt + 1) else c.c.toInt) := by
  have hfn : fits32 n = true := fits32_iff.mpr ⟨by omega, hn'⟩
  obtain ⟨hb1, hb2⟩ := fits32_iff.mp hb
  have hc1 := c.c.toInt_lt
  have hc2 := c.c.le_toInt
  norm_num at hc1 hc2
  unfold RegCtx.bias
  by_cases h1 : b + n ≤ 0
  · rw [if_pos h1, if_pos (fits32_iff.mpr ⟨by omega, by omega⟩)]
    refine ⟨_, rfl, toInt_ofInt_of_fits ha, toInt_storeCounter hfn, ?_, ?_⟩
    · rw [if_pos h1, toInt_ofInt_of_fits]
      · split_ifs <;> omega
      · split_ifs <;> exact fits32_iff.mpr ⟨by omega, by omega⟩
    · rw [if_pos h1, toInt_tableC, clamp]
      omega
  · rw [if_neg h1]
    by_cases h2 : b > 0
    · rw [if_pos h2, if_pos (fits32_iff.mpr ⟨by omega, by omega⟩)]
      refine ⟨_, rfl, toInt_ofInt_of_fits ha, toInt_storeCounter hfn, ?_, ?_⟩
      · rw [if_neg h1, if_pos h2, toInt_ofInt_of_fits]
        · split_ifs <;> omega
        · split_ifs <;> exact fits32_iff.mpr ⟨by omega, by omega⟩
      · rw [if_neg h1, if_pos h2, toInt_tableC, clamp]
        omega
    · rw [if_neg h2]
      exact ⟨_, rfl, toInt_ofInt_of_fits ha, toInt_storeCounter hfn,
        by rw [if_neg h1, if_neg h2, toInt_ofInt_of_fits hb], by rw [if_neg h1, if_neg h2]⟩

/-- `RC.UPDATE` overflows exactly when A + abs(e) or B + e leaves the 32-bit range (R233). -/
theorem RegCtx.update_eq_none {c : RegCtx} {e : Int}
    (h : ¬ (fits32 (c.a.toInt + |e|) = true ∧ fits32 (c.b.toInt + e) = true)) : c.update e = none := by
  unfold RegCtx.update
  rw [if_neg (by simpa using h)]

/-- What `RC.UPDATE` leaves of a well-kept entry (R165): the invariant (R27), and the fields A and N. -/
theorem RegCtx.update_inv {c : RegCtx} {e : Int} (h : c.Inv) (ha : fits32 (c.a.toInt + |e|) = true)
    (hb : fits32 (c.b.toInt + e) = true) :
    ∃ c', c.update e = some c' ∧ c'.Inv ∧
      c'.n.toInt = (if c.n.toInt = 64 then 33 else c.n.toInt + 1) ∧
      c'.a.toInt = (if c.n.toInt = 64 then (c.a.toInt + |e|) / 2 else c.a.toInt + |e|) := by
  obtain ⟨h1, h2, h3, h4, h5⟩ := h
  have habs := abs_nonneg e
  obtain ⟨ha1, ha2⟩ := fits32_iff.mp ha
  obtain ⟨hb1, hb2⟩ := fits32_iff.mp hb
  unfold RegCtx.update
  rw [if_pos (by simp [ha, hb]), show Config.reset = 64 from rfl, asr_one, asr_one, asr_one]
  by_cases hn : c.n.toInt = 64
  · rw [if_pos hn, hn]
    obtain ⟨c', he, e1, e2, e3, _⟩ := c.bias_spec (a := (c.a.toInt + |e|) / 2) (b := (c.b.toInt + e) / 2)
      (n := 64 / 2 + 1) (fits32_iff.mpr ⟨by omega, by omega⟩) (fits32_iff.mpr ⟨by omega, by omega⟩) (by omega) (by omega)
    refine ⟨c', he, ⟨by omega, by omega, ?_, ?_, by omega⟩, by simpa using e2, by simpa using e1⟩ <;>
      (rw [e3]; split_ifs <;> omega)
  · rw [if_neg hn]
    obtain ⟨c', he, e1, e2, e3, _⟩ := c.bias_spec (a := c.a.toInt + |e|) (b := c.b.toInt + e)
      (n := c.n.toInt + 1) ha hb (by omega) (by omega)
    refine ⟨c', he, ⟨by omega, by omega, ?_, ?_, by omega⟩, by rw [if_neg hn, e2], by rw [if_neg hn, e1]⟩ <;>
      (rw [e3]; split_ifs <;> omega)

/-- A residual of magnitude at most 32768 neither overflows a bounded entry nor takes it out of its bound (R167). -/
theorem RegCtx.update_bounded {c : RegCtx} {e : Int} (h : c.Inv) (hb : c.Bounded) (he : |e| ≤ 32768) :
    ∃ c', c.update e = some c' ∧ c'.Inv ∧ c'.Bounded := by
  obtain ⟨h1, h2, h3, h4, h5⟩ := h
  have habs := abs_nonneg e
  have hle := abs_le.mp he
  simp only [RegCtx.Bounded] at hb
  obtain ⟨c', hu, hi, hn, ha⟩ := RegCtx.update_inv (e := e) ⟨h1, h2, h3, h4, h5⟩ (fits32_iff.mpr ⟨by omega, by omega⟩)
    (fits32_iff.mpr ⟨by omega, by omega⟩)
  refine ⟨c', hu, hi, ?_⟩
  simp only [RegCtx.Bounded]
  rw [hn, ha]
  split_ifs <;> omega

/-- What `RI.UPDATE` leaves in the fields of an entry whose counts are well kept, whatever the new A is (R177). -/
theorem RunCtx.accumulate_fields {c : RunCtx} {t : Fin 2} {e a : Int} (h : c.Inv t) (ha : fits32 a = true) :
    ((c.countNegative e).accumulate a).n.toInt = (if c.n.toInt = 64 then 33 else c.n.toInt + 1) ∧
      ((c.countNegative e).accumulate a).a.toInt = (if c.n.toInt = 64 then a / 2 else a) ∧
      ((c.countNegative e).accumulate a).nn.toInt =
        (if c.n.toInt = 64 then (c.nn.toInt + if e < 0 then 1 else 0) / 2 else c.nn.toInt + if e < 0 then 1 else 0) ∧
      ((c.countNegative e).accumulate a).rItype = t ∧ ((c.countNegative e).accumulate a).resetThreshold.toInt = 64 := by
  obtain ⟨h1, h2, h3, h4, h5, h6, h7⟩ := h
  obtain ⟨ha1, ha2⟩ := fits32_iff.mp ha
  have hnn : (c.countNegative e).nn.toInt = c.nn.toInt + if e < 0 then 1 else 0 := by
    unfold RunCtx.countNegative
    split_ifs with he
    · exact toInt_storeCounter (fits32_iff.mpr ⟨by omega, by omega⟩)
    · simp
  have hn : (c.countNegative e).n = c.n := by unfold RunCtx.countNegative; split_ifs <;> rfl
  have ht : (c.countNegative e).rItype = c.rItype := by unfold RunCtx.countNegative; split_ifs <;> rfl
  have hr : (c.countNegative e).resetThreshold = c.resetThreshold := by unfold RunCtx.countNegative; split_ifs <;> rfl
  have hk : (0 : Int) ≤ (if e < 0 then 1 else 0) ∧ (if e < 0 then (1 : Int) else 0) ≤ 1 := by split_ifs <;> omega
  unfold RunCtx.accumulate
  rw [hn, hr, h7, asr_one, asr_one, asr_one, hnn]
  generalize (if e < 0 then (1 : Int) else 0) = d at hk hnn ⊢
  by_cases h64 : c.n.toInt = 64
  · simp only [h64, if_true]
    have e1 : (storeCounter (64 / 2 + 1)).toInt = 33 := toInt_storeCounter (by decide)
    have e2 : (BitVec.ofInt 32 ((c.nn.toInt + d) / 2)).toInt = (c.nn.toInt + d) / 2 :=
      toInt_ofInt_of_fits (fits32_iff.mpr ⟨by omega, by omega⟩)
    have e3 : (BitVec.ofInt 32 (a / 2)).toInt = a / 2 := toInt_ofInt_of_fits (fits32_iff.mpr ⟨by omega, by omega⟩)
    exact ⟨e1, e3, e2, ht.trans h6, hr ▸ h7⟩
  · simp only [h64, if_false]
    have e1 : (storeCounter (c.n.toInt + 1)).toInt = c.n.toInt + 1 :=
      toInt_storeCounter (fits32_iff.mpr ⟨by omega, by omega⟩)
    exact ⟨e1, toInt_ofInt_of_fits ha, hnn, ht.trans h6, hr ▸ h7⟩

/-- `RI.UPDATE` keeps the invariant (R29) where the new A is not negative. -/
theorem RunCtx.accumulate_inv {c : RunCtx} {t : Fin 2} {e a : Int} (h : c.Inv t) (ha : fits32 a = true) (ha0 : 0 ≤ a) :
    ((c.countNegative e).accumulate a).Inv t := by
  obtain ⟨h1, h2, h3, h4, h5⟩ := RunCtx.accumulate_fields (e := e) h ha
  obtain ⟨k1, k2, k3, k4, -⟩ := h
  have hk : (0 : Int) ≤ (if e < 0 then 1 else 0) ∧ (if e < 0 then (1 : Int) else 0) ≤ 1 := by split_ifs <;> omega
  generalize (if e < 0 then (1 : Int) else 0) = d at hk h3
  simp only [RunCtx.Inv, h1, h2, h3]
  refine ⟨?_, ?_, ?_, ?_, ?_, h4, h5⟩ <;> split_ifs <;> omega

end Sys2Proof.Machine
end

