-- ==== Sys2Proof/Laws/Memory.lean ====
section
/-! SUPPORT. Memory spaces: a read after a write, and that every write keeps the canonical form. -/

namespace Sys2Proof.Machine

theorem wfFrom_mono {w : Nat} {lo lo' : Nat} {m : Space w} (h : lo' ≤ lo) (hm : wfFrom lo m = true) :
    wfFrom lo' m = true := by
  cases m with
  | nil => rfl
  | cons p m =>
    simp only [wfFrom, Bool.and_eq_true, decide_eq_true_eq] at hm ⊢
    exact ⟨⟨by omega, hm.1.2⟩, hm.2⟩

/-- Below the first listed address nothing is listed. -/
theorem readCell_eq_zero_of_lt {w : Nat} {lo a : Nat} {m : Space w} (hm : wfFrom lo m = true) (h : a < lo) :
    readCell m a = 0 := by
  induction m generalizing lo with
  | nil => rfl
  | cons p m ih =>
    simp only [wfFrom, Bool.and_eq_true, decide_eq_true_eq] at hm
    rw [readCell, if_neg (by omega), ih hm.2 (by omega)]

theorem readCell_writeCell {w : Nat} {lo a b : Nat} {v : BitVec w} {m : Space w} (hm : wfFrom lo m = true) :
    readCell (writeCell m a v) b = if b = a then v else readCell m b := by
  induction m generalizing lo with
  | nil =>
    by_cases hv : v = 0
    · rw [writeCell, if_pos hv]
      by_cases hb : b = a
      · rw [if_pos hb, readCell, hv]
      · rw [if_neg hb]
    · rw [writeCell, if_neg hv]
      rfl
  | cons p m ih =>
    simp only [wfFrom, Bool.and_eq_true, decide_eq_true_eq] at hm
    have hz := fun h => readCell_eq_zero_of_lt hm.2 (a := b) h
    simp only [writeCell]
    by_cases h1 : a < p.1
    · rw [if_pos h1]
      by_cases hv : v = 0
      · rw [if_pos hv]
        by_cases hb : b = a
        · rw [if_pos hb, readCell, if_neg (by omega), hz (by omega), hv]
        · rw [if_neg hb]
      · rw [if_neg hv, readCell]
    · rw [if_neg h1]
      by_cases h2 : a = p.1
      · rw [if_pos h2]
        by_cases hv : v = 0
        · rw [if_pos hv]
          by_cases hb : b = a
          · rw [if_pos hb, hz (by omega), hv]
          · rw [if_neg hb, readCell, if_neg (by omega)]
        · rw [if_neg hv, readCell]
          by_cases hb : b = a
          · rw [if_pos hb, if_pos hb]
          · rw [if_neg hb, if_neg hb, readCell, if_neg (by omega)]
      · rw [if_neg h2, readCell, ih hm.2]
        by_cases hb : b = a
        · rw [if_pos hb, if_pos hb, if_neg (by omega)]
        · rw [if_neg hb, if_neg hb, readCell]

@[simp] theorem readCell_writeCell_same {w : Nat} {a : Nat} {v : BitVec w} {m : Space w} (hm : spaceWf m = true) :
    readCell (writeCell m a v) a = v := by
  rw [readCell_writeCell hm, if_pos rfl]

theorem readCell_writeCell_other {w : Nat} {a b : Nat} {v : BitVec w} {m : Space w} (hm : spaceWf m = true)
    (h : b ≠ a) : readCell (writeCell m a v) b = readCell m b := by
  rw [readCell_writeCell hm, if_neg h]

theorem wfFrom_writeCell {w : Nat} {lo a : Nat} {v : BitVec w} {m : Space w} (hm : wfFrom lo m = true)
    (h : lo ≤ a) : wfFrom lo (writeCell m a v) = true := by
  induction m generalizing lo with
  | nil =>
    rw [writeCell]
    split_ifs with hv
    · rfl
    · simp only [wfFrom, Bool.and_eq_true, decide_eq_true_eq, ne_eq]
      exact ⟨⟨h, hv⟩, trivial⟩
  | cons p m ih =>
    have hm' := hm
    simp only [wfFrom, Bool.and_eq_true, decide_eq_true_eq, ne_eq] at hm
    simp only [writeCell]
    split_ifs with h1 h2 h3 h4
    · exact hm'
    · simp only [wfFrom, Bool.and_eq_true, decide_eq_true_eq, ne_eq]
      exact ⟨⟨h, h2⟩, ⟨by omega, hm.1.2⟩, hm.2⟩
    · exact wfFrom_mono (by omega) hm.2
    · simp only [wfFrom, Bool.and_eq_true, decide_eq_true_eq, ne_eq]
      exact ⟨⟨h, h4⟩, by rw [h3]; exact hm.2⟩
    · simp only [wfFrom, Bool.and_eq_true, decide_eq_true_eq, ne_eq]
      exact ⟨hm.1, ih hm.2 (by omega)⟩

/-- Every write keeps the canonical form. -/
@[simp] theorem spaceWf_writeCell {w : Nat} {a : Nat} {v : BitVec w} {m : Space w} (hm : spaceWf m = true) :
    spaceWf (writeCell m a v) = true :=
  wfFrom_writeCell hm (Nat.zero_le a)

@[simp] theorem spaceWf_nil {w : Nat} : spaceWf ([] : Space w) = true := rfl

/-- Two spaces in canonical form that read the same everywhere are the same list. -/
theorem space_ext {w : Nat} {lo : Nat} {m n : Space w} (hm : wfFrom lo m = true) (hn : wfFrom lo n = true)
    (h : ∀ a, readCell m a = readCell n a) : m = n := by
  induction m generalizing lo n with
  | nil =>
    cases n with
    | nil => rfl
    | cons q n =>
      have hn' := hn
      simp only [wfFrom, Bool.and_eq_true, decide_eq_true_eq, ne_eq] at hn
      have := h q.1
      rw [readCell, readCell, if_pos rfl] at this
      exact absurd this.symm hn.1.2
  | cons p m ih =>
    have hm' := hm
    simp only [wfFrom, Bool.and_eq_true, decide_eq_true_eq, ne_eq] at hm
    cases n with
    | nil =>
      have := h p.1
      rw [readCell, readCell, if_pos rfl] at this
      exact absurd this hm.1.2
    | cons q n =>
      have hn' := hn
      simp only [wfFrom, Bool.and_eq_true, decide_eq_true_eq, ne_eq] at hn
      have hpq : p.1 = q.1 := by
        rcases lt_trichotomy p.1 q.1 with hlt | heq | hgt
        · have := h p.1
          rw [readCell, if_pos rfl, readCell, if_neg (by omega), readCell_eq_zero_of_lt hn.2 (by omega)] at this
          exact absurd this hm.1.2
        · exact heq
        · have := h q.1
          rw [readCell, if_neg (by omega), readCell_eq_zero_of_lt hm.2 (by omega), readCell, if_pos rfl] at this
          exact absurd this.symm hn.1.2
      have hv : p.2 = q.2 := by
        have := h p.1
        rwa [readCell, if_pos rfl, readCell, if_pos hpq] at this
      have ht : m = n := by
        refine ih hm.2 (by rw [hpq]; exact hn.2) fun a => ?_
        by_cases ha : a ≤ p.1
        · rw [readCell_eq_zero_of_lt hm.2 (by omega), readCell_eq_zero_of_lt hn.2 (by omega)]
        · have := h a
          rwa [readCell, if_neg (by omega), readCell, if_neg (by omega)] at this
      rw [ht, Prod.ext hpq hv]

theorem lineAddr_inj {i j : Int} (hi : -1 ≤ i) (hj : -1 ≤ j) (h : lineAddr i = lineAddr j) : i = j := by
  simp only [lineAddr] at h
  omega

/-- Distinct samples of a scan have distinct addresses. -/
theorem sampleAddr_inj {y x y' x' : Nat} (hx : x < 65536) (hx' : x' < 65536)
    (h : sampleAddr y x = sampleAddr y' x') : y = y' ∧ x = x' := by
  simp only [sampleAddr] at h
  omega

end Sys2Proof.Machine
end

