-- ==== Sys2Proof/Laws/State.lean ====
section
/-! SUPPORT. One lemma per field per update of the state: what each named update writes, and that it leaves every other
field alone. -/

namespace Sys2Proof.Machine

variable (s : State)

/-! `State.raise` -/

@[simp] theorem State.dir_raise (f : FaultKind) (n : Nat) : (s.raise f n).dir = s.dir := rfl
@[simp] theorem State.width_raise (f : FaultKind) (n : Nat) : (s.raise f n).width = s.width := rfl
@[simp] theorem State.rows_raise (f : FaultKind) (n : Nat) : (s.raise f n).rows = s.rows := rfl
@[simp] theorem State.size_raise (f : FaultKind) (n : Nat) : (s.raise f n).size = s.size := rfl
@[simp] theorem State.status_raise (f : FaultKind) (n : Nat) : (s.raise f n).status = .fault := rfl
@[simp] theorem State.faultKind_raise (f : FaultKind) (n : Nat) : (s.raise f n).faultKind = f := rfl
@[simp] theorem State.faultInfo_raise (f : FaultKind) (n : Nat) : (s.raise f n).faultInfo = n := rfl
@[simp] theorem State.y_raise (f : FaultKind) (n : Nat) : (s.raise f n).y = s.y := rfl
@[simp] theorem State.x_raise (f : FaultKind) (n : Nat) : (s.raise f n).x = s.x := rfl
@[simp] theorem State.mode_raise (f : FaultKind) (n : Nat) : (s.raise f n).mode = s.mode := rfl
@[simp] theorem State.ra_raise (f : FaultKind) (n : Nat) : (s.raise f n).ra = s.ra := rfl
@[simp] theorem State.rb_raise (f : FaultKind) (n : Nat) : (s.raise f n).rb = s.rb := rfl
@[simp] theorem State.rc_raise (f : FaultKind) (n : Nat) : (s.raise f n).rc = s.rc := rfl
@[simp] theorem State.rd_raise (f : FaultKind) (n : Nat) : (s.raise f n).rd = s.rd := rfl
@[simp] theorem State.q_raise (f : FaultKind) (n : Nat) : (s.raise f n).q = s.q := rfl
@[simp] theorem State.sign_raise (f : FaultKind) (n : Nat) : (s.raise f n).sign = s.sign := rfl
@[simp] theorem State.ci_raise (f : FaultKind) (n : Nat) : (s.raise f n).ci = s.ci := rfl
@[simp] theorem State.k_raise (f : FaultKind) (n : Nat) : (s.raise f n).k = s.k := rfl
@[simp] theorem State.px_raise (f : FaultKind) (n : Nat) : (s.raise f n).px = s.px := rfl
@[simp] theorem State.e_raise (f : FaultKind) (n : Nat) : (s.raise f n).e = s.e := rfl
@[simp] theorem State.m_raise (f : FaultKind) (n : Nat) : (s.raise f n).m = s.m := rfl
@[simp] theorem State.r_raise (f : FaultKind) (n : Nat) : (s.raise f n).r = s.r := rfl
@[simp] theorem State.rem_raise (f : FaultKind) (n : Nat) : (s.raise f n).rem = s.rem := rfl
@[simp] theorem State.eol_raise (f : FaultKind) (n : Nat) : (s.raise f n).eol = s.eol := rfl
@[simp] theorem State.idx_raise (f : FaultKind) (n : Nat) : (s.raise f n).idx = s.idx := rfl
@[simp] theorem State.reg_raise (f : FaultKind) (n : Nat) : (s.raise f n).reg = s.reg := rfl
@[simp] theorem State.ri_raise (f : FaultKind) (n : Nat) : (s.raise f n).ri = s.ri := rfl
@[simp] theorem State.runIndex_raise (f : FaultKind) (n : Nat) : (s.raise f n).runIndex = s.runIndex := rfl
@[simp] theorem State.prev_raise (f : FaultKind) (n : Nat) : (s.raise f n).prev = s.prev := rfl
@[simp] theorem State.cur_raise (f : FaultKind) (n : Nat) : (s.raise f n).cur = s.cur := rfl
@[simp] theorem State.bw_raise (f : FaultKind) (n : Nat) : (s.raise f n).bw = s.bw := rfl
@[simp] theorem State.br_raise (f : FaultKind) (n : Nat) : (s.raise f n).br = s.br := rfl
@[simp] theorem State.inp_raise (f : FaultKind) (n : Nat) : (s.raise f n).inp = s.inp := rfl
@[simp] theorem State.src_raise (f : FaultKind) (n : Nat) : (s.raise f n).src = s.src := rfl
@[simp] theorem State.out_raise (f : FaultKind) (n : Nat) : (s.raise f n).out = s.out := rfl
@[simp] theorem State.rowOpen_raise (f : FaultKind) (n : Nat) : (s.raise f n).rowOpen = s.rowOpen := rfl
@[simp] theorem State.issued_raise (f : FaultKind) (n : Nat) : (s.raise f n).issued = s.issued := rfl
@[simp] theorem State.ret_raise (f : FaultKind) (n : Nat) : (s.raise f n).ret = s.ret := rfl
@[simp] theorem State.w_raise (f : FaultKind) (n : Nat) : (s.raise f n).w = s.w := rfl

/-! `State.withRet` -/

@[simp] theorem State.dir_withRet (l : List Int) : (s.withRet l).dir = s.dir := rfl
@[simp] theorem State.width_withRet (l : List Int) : (s.withRet l).width = s.width := rfl
@[simp] theorem State.rows_withRet (l : List Int) : (s.withRet l).rows = s.rows := rfl
@[simp] theorem State.size_withRet (l : List Int) : (s.withRet l).size = s.size := rfl
@[simp] theorem State.status_withRet (l : List Int) : (s.withRet l).status = s.status := rfl
@[simp] theorem State.faultKind_withRet (l : List Int) : (s.withRet l).faultKind = s.faultKind := rfl
@[simp] theorem State.faultInfo_withRet (l : List Int) : (s.withRet l).faultInfo = s.faultInfo := rfl
@[simp] theorem State.y_withRet (l : List Int) : (s.withRet l).y = s.y := rfl
@[simp] theorem State.x_withRet (l : List Int) : (s.withRet l).x = s.x := rfl
@[simp] theorem State.mode_withRet (l : List Int) : (s.withRet l).mode = s.mode := rfl
@[simp] theorem State.ra_withRet (l : List Int) : (s.withRet l).ra = s.ra := rfl
@[simp] theorem State.rb_withRet (l : List Int) : (s.withRet l).rb = s.rb := rfl
@[simp] theorem State.rc_withRet (l : List Int) : (s.withRet l).rc = s.rc := rfl
@[simp] theorem State.rd_withRet (l : List Int) : (s.withRet l).rd = s.rd := rfl
@[simp] theorem State.q_withRet (l : List Int) : (s.withRet l).q = s.q := rfl
@[simp] theorem State.sign_withRet (l : List Int) : (s.withRet l).sign = s.sign := rfl
@[simp] theorem State.ci_withRet (l : List Int) : (s.withRet l).ci = s.ci := rfl
@[simp] theorem State.k_withRet (l : List Int) : (s.withRet l).k = s.k := rfl
@[simp] theorem State.px_withRet (l : List Int) : (s.withRet l).px = s.px := rfl
@[simp] theorem State.e_withRet (l : List Int) : (s.withRet l).e = s.e := rfl
@[simp] theorem State.m_withRet (l : List Int) : (s.withRet l).m = s.m := rfl
@[simp] theorem State.r_withRet (l : List Int) : (s.withRet l).r = s.r := rfl
@[simp] theorem State.rem_withRet (l : List Int) : (s.withRet l).rem = s.rem := rfl
@[simp] theorem State.eol_withRet (l : List Int) : (s.withRet l).eol = s.eol := rfl
@[simp] theorem State.idx_withRet (l : List Int) : (s.withRet l).idx = s.idx := rfl
@[simp] theorem State.reg_withRet (l : List Int) : (s.withRet l).reg = s.reg := rfl
@[simp] theorem State.ri_withRet (l : List Int) : (s.withRet l).ri = s.ri := rfl
@[simp] theorem State.runIndex_withRet (l : List Int) : (s.withRet l).runIndex = s.runIndex := rfl
@[simp] theorem State.prev_withRet (l : List Int) : (s.withRet l).prev = s.prev := rfl
@[simp] theorem State.cur_withRet (l : List Int) : (s.withRet l).cur = s.cur := rfl
@[simp] theorem State.bw_withRet (l : List Int) : (s.withRet l).bw = s.bw := rfl
@[simp] theorem State.br_withRet (l : List Int) : (s.withRet l).br = s.br := rfl
@[simp] theorem State.inp_withRet (l : List Int) : (s.withRet l).inp = s.inp := rfl
@[simp] theorem State.src_withRet (l : List Int) : (s.withRet l).src = s.src := rfl
@[simp] theorem State.out_withRet (l : List Int) : (s.withRet l).out = s.out := rfl
@[simp] theorem State.rowOpen_withRet (l : List Int) : (s.withRet l).rowOpen = s.rowOpen := rfl
@[simp] theorem State.issued_withRet (l : List Int) : (s.withRet l).issued = s.issued := rfl
@[simp] theorem State.ret_withRet (l : List Int) : (s.withRet l).ret = l := rfl
@[simp] theorem State.w_withRet (l : List Int) : (s.withRet l).w = s.w := rfl

/-! `State.withReg` -/

@[simp] theorem State.dir_withReg (i : Fin Config.nctx) (c : RegCtx) : (s.withReg i c).dir = s.dir := rfl
@[simp] theorem State.width_withReg (i : Fin Config.nctx) (c : RegCtx) : (s.withReg i c).width = s.width := rfl
@[simp] theorem State.rows_withReg (i : Fin Config.nctx) (c : RegCtx) : (s.withReg i c).rows = s.rows := rfl
@[simp] theorem State.size_withReg (i : Fin Config.nctx) (c : RegCtx) : (s.withReg i c).size = s.size := rfl
@[simp] theorem State.status_withReg (i : Fin Config.nctx) (c : RegCtx) : (s.withReg i c).status = s.status := rfl
@[simp] theorem State.faultKind_withReg (i : Fin Config.nctx) (c : RegCtx) : (s.withReg i c).faultKind = s.faultKind := rfl
@[simp] theorem State.faultInfo_withReg (i : Fin Config.nctx) (c : RegCtx) : (s.withReg i c).faultInfo = s.faultInfo := rfl
@[simp] theorem State.y_withReg (i : Fin Config.nctx) (c : RegCtx) : (s.withReg i c).y = s.y := rfl
@[simp] theorem State.x_withReg (i : Fin Config.nctx) (c : RegCtx) : (s.withReg i c).x = s.x := rfl
@[simp] theorem State.mode_withReg (i : Fin Config.nctx) (c : RegCtx) : (s.withReg i c).mode = s.mode := rfl
@[simp] theorem State.ra_withReg (i : Fin Config.nctx) (c : RegCtx) : (s.withReg i c).ra = s.ra := rfl
@[simp] theorem State.rb_withReg (i : Fin Config.nctx) (c : RegCtx) : (s.withReg i c).rb = s.rb := rfl
@[simp] theorem State.rc_withReg (i : Fin Config.nctx) (c : RegCtx) : (s.withReg i c).rc = s.rc := rfl
@[simp] theorem State.rd_withReg (i : Fin Config.nctx) (c : RegCtx) : (s.withReg i c).rd = s.rd := rfl
@[simp] theorem State.q_withReg (i : Fin Config.nctx) (c : RegCtx) : (s.withReg i c).q = s.q := rfl
@[simp] theorem State.sign_withReg (i : Fin Config.nctx) (c : RegCtx) : (s.withReg i c).sign = s.sign := rfl
@[simp] theorem State.ci_withReg (i : Fin Config.nctx) (c : RegCtx) : (s.withReg i c).ci = s.ci := rfl
@[simp] theorem State.k_withReg (i : Fin Config.nctx) (c : RegCtx) : (s.withReg i c).k = s.k := rfl
@[simp] theorem State.px_withReg (i : Fin Config.nctx) (c : RegCtx) : (s.withReg i c).px = s.px := rfl
@[simp] theorem State.e_withReg (i : Fin Config.nctx) (c : RegCtx) : (s.withReg i c).e = s.e := rfl
@[simp] theorem State.m_withReg (i : Fin Config.nctx) (c : RegCtx) : (s.withReg i c).m = s.m := rfl
@[simp] theorem State.r_withReg (i : Fin Config.nctx) (c : RegCtx) : (s.withReg i c).r = s.r := rfl
@[simp] theorem State.rem_withReg (i : Fin Config.nctx) (c : RegCtx) : (s.withReg i c).rem = s.rem := rfl
@[simp] theorem State.eol_withReg (i : Fin Config.nctx) (c : RegCtx) : (s.withReg i c).eol = s.eol := rfl
@[simp] theorem State.idx_withReg (i : Fin Config.nctx) (c : RegCtx) : (s.withReg i c).idx = s.idx := rfl
@[simp] theorem State.reg_withReg (i : Fin Config.nctx) (c : RegCtx) : (s.withReg i c).reg = s.reg.set i c := rfl
@[simp] theorem State.ri_withReg (i : Fin Config.nctx) (c : RegCtx) : (s.withReg i c).ri = s.ri := rfl
@[simp] theorem State.runIndex_withReg (i : Fin Config.nctx) (c : RegCtx) : (s.withReg i c).runIndex = s.runIndex := rfl
@[simp] theorem State.prev_withReg (i : Fin Config.nctx) (c : RegCtx) : (s.withReg i c).prev = s.prev := rfl
@[simp] theorem State.cur_withReg (i : Fin Config.nctx) (c : RegCtx) : (s.withReg i c).cur = s.cur := rfl
@[simp] theorem State.bw_withReg (i : Fin Config.nctx) (c : RegCtx) : (s.withReg i c).bw = s.bw := rfl
@[simp] theorem State.br_withReg (i : Fin Config.nctx) (c : RegCtx) : (s.withReg i c).br = s.br := rfl
@[simp] theorem State.inp_withReg (i : Fin Config.nctx) (c : RegCtx) : (s.withReg i c).inp = s.inp := rfl
@[simp] theorem State.src_withReg (i : Fin Config.nctx) (c : RegCtx) : (s.withReg i c).src = s.src := rfl
@[simp] theorem State.out_withReg (i : Fin Config.nctx) (c : RegCtx) : (s.withReg i c).out = s.out := rfl
@[simp] theorem State.rowOpen_withReg (i : Fin Config.nctx) (c : RegCtx) : (s.withReg i c).rowOpen = s.rowOpen := rfl
@[simp] theorem State.issued_withReg (i : Fin Config.nctx) (c : RegCtx) : (s.withReg i c).issued = s.issued := rfl
@[simp] theorem State.ret_withReg (i : Fin Config.nctx) (c : RegCtx) : (s.withReg i c).ret = s.ret := rfl
@[simp] theorem State.w_withReg (i : Fin Config.nctx) (c : RegCtx) : (s.withReg i c).w = s.w := rfl

/-! `State.withRi` -/

@[simp] theorem State.dir_withRi (t : Fin Config.nri) (c : RunCtx) : (s.withRi t c).dir = s.dir := rfl
@[simp] theorem State.width_withRi (t : Fin Config.nri) (c : RunCtx) : (s.withRi t c).width = s.width := rfl
@[simp] theorem State.rows_withRi (t : Fin Config.nri) (c : RunCtx) : (s.withRi t c).rows = s.rows := rfl
@[simp] theorem State.size_withRi (t : Fin Config.nri) (c : RunCtx) : (s.withRi t c).size = s.size := rfl
@[simp] theorem State.status_withRi (t : Fin Config.nri) (c : RunCtx) : (s.withRi t c).status = s.status := rfl
@[simp] theorem State.faultKind_withRi (t : Fin Config.nri) (c : RunCtx) : (s.withRi t c).faultKind = s.faultKind := rfl
@[simp] theorem State.faultInfo_withRi (t : Fin Config.nri) (c : RunCtx) : (s.withRi t c).faultInfo = s.faultInfo := rfl
@[simp] theorem State.y_withRi (t : Fin Config.nri) (c : RunCtx) : (s.withRi t c).y = s.y := rfl
@[simp] theorem State.x_withRi (t : Fin Config.nri) (c : RunCtx) : (s.withRi t c).x = s.x := rfl
@[simp] theorem State.mode_withRi (t : Fin Config.nri) (c : RunCtx) : (s.withRi t c).mode = s.mode := rfl
@[simp] theorem State.ra_withRi (t : Fin Config.nri) (c : RunCtx) : (s.withRi t c).ra = s.ra := rfl
@[simp] theorem State.rb_withRi (t : Fin Config.nri) (c : RunCtx) : (s.withRi t c).rb = s.rb := rfl
@[simp] theorem State.rc_withRi (t : Fin Config.nri) (c : RunCtx) : (s.withRi t c).rc = s.rc := rfl
@[simp] theorem State.rd_withRi (t : Fin Config.nri) (c : RunCtx) : (s.withRi t c).rd = s.rd := rfl
@[simp] theorem State.q_withRi (t : Fin Config.nri) (c : RunCtx) : (s.withRi t c).q = s.q := rfl
@[simp] theorem State.sign_withRi (t : Fin Config.nri) (c : RunCtx) : (s.withRi t c).sign = s.sign := rfl
@[simp] theorem State.ci_withRi (t : Fin Config.nri) (c : RunCtx) : (s.withRi t c).ci = s.ci := rfl
@[simp] theorem State.k_withRi (t : Fin Config.nri) (c : RunCtx) : (s.withRi t c).k = s.k := rfl
@[simp] theorem State.px_withRi (t : Fin Config.nri) (c : RunCtx) : (s.withRi t c).px = s.px := rfl
@[simp] theorem State.e_withRi (t : Fin Config.nri) (c : RunCtx) : (s.withRi t c).e = s.e := rfl
@[simp] theorem State.m_withRi (t : Fin Config.nri) (c : RunCtx) : (s.withRi t c).m = s.m := rfl
@[simp] theorem State.r_withRi (t : Fin Config.nri) (c : RunCtx) : (s.withRi t c).r = s.r := rfl
@[simp] theorem State.rem_withRi (t : Fin Config.nri) (c : RunCtx) : (s.withRi t c).rem = s.rem := rfl
@[simp] theorem State.eol_withRi (t : Fin Config.nri) (c : RunCtx) : (s.withRi t c).eol = s.eol := rfl
@[simp] theorem State.idx_withRi (t : Fin Config.nri) (c : RunCtx) : (s.withRi t c).idx = s.idx := rfl
@[simp] theorem State.reg_withRi (t : Fin Config.nri) (c : RunCtx) : (s.withRi t c).reg = s.reg := rfl
@[simp] theorem State.ri_withRi (t : Fin Config.nri) (c : RunCtx) : (s.withRi t c).ri = s.ri.set t c := rfl
@[simp] theorem State.runIndex_withRi (t : Fin Config.nri) (c : RunCtx) : (s.withRi t c).runIndex = s.runIndex := rfl
@[simp] theorem State.prev_withRi (t : Fin Config.nri) (c : RunCtx) : (s.withRi t c).prev = s.prev := rfl
@[simp] theorem State.cur_withRi (t : Fin Config.nri) (c : RunCtx) : (s.withRi t c).cur = s.cur := rfl
@[simp] theorem State.bw_withRi (t : Fin Config.nri) (c : RunCtx) : (s.withRi t c).bw = s.bw := rfl
@[simp] theorem State.br_withRi (t : Fin Config.nri) (c : RunCtx) : (s.withRi t c).br = s.br := rfl
@[simp] theorem State.inp_withRi (t : Fin Config.nri) (c : RunCtx) : (s.withRi t c).inp = s.inp := rfl
@[simp] theorem State.src_withRi (t : Fin Config.nri) (c : RunCtx) : (s.withRi t c).src = s.src := rfl
@[simp] theorem State.out_withRi (t : Fin Config.nri) (c : RunCtx) : (s.withRi t c).out = s.out := rfl
@[simp] theorem State.rowOpen_withRi (t : Fin Config.nri) (c : RunCtx) : (s.withRi t c).rowOpen = s.rowOpen := rfl
@[simp] theorem State.issued_withRi (t : Fin Config.nri) (c : RunCtx) : (s.withRi t c).issued = s.issued := rfl
@[simp] theorem State.ret_withRi (t : Fin Config.nri) (c : RunCtx) : (s.withRi t c).ret = s.ret := rfl
@[simp] theorem State.w_withRi (t : Fin Config.nri) (c : RunCtx) : (s.withRi t c).w = s.w := rfl

/-! `State.withRunIndex` -/

@[simp] theorem State.dir_withRunIndex (i : Fin 32) : (s.withRunIndex i).dir = s.dir := rfl
@[simp] theorem State.width_withRunIndex (i : Fin 32) : (s.withRunIndex i).width = s.width := rfl
@[simp] theorem State.rows_withRunIndex (i : Fin 32) : (s.withRunIndex i).rows = s.rows := rfl
@[simp] theorem State.size_withRunIndex (i : Fin 32) : (s.withRunIndex i).size = s.size := rfl
@[simp] theorem State.status_withRunIndex (i : Fin 32) : (s.withRunIndex i).status = s.status := rfl
@[simp] theorem State.faultKind_withRunIndex (i : Fin 32) : (s.withRunIndex i).faultKind = s.faultKind := rfl
@[simp] theorem State.faultInfo_withRunIndex (i : Fin 32) : (s.withRunIndex i).faultInfo = s.faultInfo := rfl
@[simp] theorem State.y_withRunIndex (i : Fin 32) : (s.withRunIndex i).y = s.y := rfl
@[simp] theorem State.x_withRunIndex (i : Fin 32) : (s.withRunIndex i).x = s.x := rfl
@[simp] theorem State.mode_withRunIndex (i : Fin 32) : (s.withRunIndex i).mode = s.mode := rfl
@[simp] theorem State.ra_withRunIndex (i : Fin 32) : (s.withRunIndex i).ra = s.ra := rfl
@[simp] theorem State.rb_withRunIndex (i : Fin 32) : (s.withRunIndex i).rb = s.rb := rfl
@[simp] theorem State.rc_withRunIndex (i : Fin 32) : (s.withRunIndex i).rc = s.rc := rfl
@[simp] theorem State.rd_withRunIndex (i : Fin 32) : (s.withRunIndex i).rd = s.rd := rfl
@[simp] theorem State.q_withRunIndex (i : Fin 32) : (s.withRunIndex i).q = s.q := rfl
@[simp] theorem State.sign_withRunIndex (i : Fin 32) : (s.withRunIndex i).sign = s.sign := rfl
@[simp] theorem State.ci_withRunIndex (i : Fin 32) : (s.withRunIndex i).ci = s.ci := rfl
@[simp] theorem State.k_withRunIndex (i : Fin 32) : (s.withRunIndex i).k = s.k := rfl
@[simp] theorem State.px_withRunIndex (i : Fin 32) : (s.withRunIndex i).px = s.px := rfl
@[simp] theorem State.e_withRunIndex (i : Fin 32) : (s.withRunIndex i).e = s.e := rfl
@[simp] theorem State.m_withRunIndex (i : Fin 32) : (s.withRunIndex i).m = s.m := rfl
@[simp] theorem State.r_withRunIndex (i : Fin 32) : (s.withRunIndex i).r = s.r := rfl
@[simp] theorem State.rem_withRunIndex (i : Fin 32) : (s.withRunIndex i).rem = s.rem := rfl
@[simp] theorem State.eol_withRunIndex (i : Fin 32) : (s.withRunIndex i).eol = s.eol := rfl
@[simp] theorem State.idx_withRunIndex (i : Fin 32) : (s.withRunIndex i).idx = s.idx := rfl
@[simp] theorem State.reg_withRunIndex (i : Fin 32) : (s.withRunIndex i).reg = s.reg := rfl
@[simp] theorem State.ri_withRunIndex (i : Fin 32) : (s.withRunIndex i).ri = s.ri := rfl
@[simp] theorem State.runIndex_withRunIndex (i : Fin 32) : (s.withRunIndex i).runIndex = i := rfl
@[simp] theorem State.prev_withRunIndex (i : Fin 32) : (s.withRunIndex i).prev = s.prev := rfl
@[simp] theorem State.cur_withRunIndex (i : Fin 32) : (s.withRunIndex i).cur = s.cur := rfl
@[simp] theorem State.bw_withRunIndex (i : Fin 32) : (s.withRunIndex i).bw = s.bw := rfl
@[simp] theorem State.br_withRunIndex (i : Fin 32) : (s.withRunIndex i).br = s.br := rfl
@[simp] theorem State.inp_withRunIndex (i : Fin 32) : (s.withRunIndex i).inp = s.inp := rfl
@[simp] theorem State.src_withRunIndex (i : Fin 32) : (s.withRunIndex i).src = s.src := rfl
@[simp] theorem State.out_withRunIndex (i : Fin 32) : (s.withRunIndex i).out = s.out := rfl
@[simp] theorem State.rowOpen_withRunIndex (i : Fin 32) : (s.withRunIndex i).rowOpen = s.rowOpen := rfl
@[simp] theorem State.issued_withRunIndex (i : Fin 32) : (s.withRunIndex i).issued = s.issued := rfl
@[simp] theorem State.ret_withRunIndex (i : Fin 32) : (s.withRunIndex i).ret = s.ret := rfl
@[simp] theorem State.w_withRunIndex (i : Fin 32) : (s.withRunIndex i).w = s.w := rfl

/-! `State.withBw` -/

@[simp] theorem State.dir_withBw (w : Writer) : (s.withBw w).dir = s.dir := rfl
@[simp] theorem State.width_withBw (w : Writer) : (s.withBw w).width = s.width := rfl
@[simp] theorem State.rows_withBw (w : Writer) : (s.withBw w).rows = s.rows := rfl
@[simp] theorem State.size_withBw (w : Writer) : (s.withBw w).size = s.size := rfl
@[simp] theorem State.status_withBw (w : Writer) : (s.withBw w).status = s.status := rfl
@[simp] theorem State.faultKind_withBw (w : Writer) : (s.withBw w).faultKind = s.faultKind := rfl
@[simp] theorem State.faultInfo_withBw (w : Writer) : (s.withBw w).faultInfo = s.faultInfo := rfl
@[simp] theorem State.y_withBw (w : Writer) : (s.withBw w).y = s.y := rfl
@[simp] theorem State.x_withBw (w : Writer) : (s.withBw w).x = s.x := rfl
@[simp] theorem State.mode_withBw (w : Writer) : (s.withBw w).mode = s.mode := rfl
@[simp] theorem State.ra_withBw (w : Writer) : (s.withBw w).ra = s.ra := rfl
@[simp] theorem State.rb_withBw (w : Writer) : (s.withBw w).rb = s.rb := rfl
@[simp] theorem State.rc_withBw (w : Writer) : (s.withBw w).rc = s.rc := rfl
@[simp] theorem State.rd_withBw (w : Writer) : (s.withBw w).rd = s.rd := rfl
@[simp] theorem State.q_withBw (w : Writer) : (s.withBw w).q = s.q := rfl
@[simp] theorem State.sign_withBw (w : Writer) : (s.withBw w).sign = s.sign := rfl
@[simp] theorem State.ci_withBw (w : Writer) : (s.withBw w).ci = s.ci := rfl
@[simp] theorem State.k_withBw (w : Writer) : (s.withBw w).k = s.k := rfl
@[simp] theorem State.px_withBw (w : Writer) : (s.withBw w).px = s.px := rfl
@[simp] theorem State.e_withBw (w : Writer) : (s.withBw w).e = s.e := rfl
@[simp] theorem State.m_withBw (w : Writer) : (s.withBw w).m = s.m := rfl
@[simp] theorem State.r_withBw (w : Writer) : (s.withBw w).r = s.r := rfl
@[simp] theorem State.rem_withBw (w : Writer) : (s.withBw w).rem = s.rem := rfl
@[simp] theorem State.eol_withBw (w : Writer) : (s.withBw w).eol = s.eol := rfl
@[simp] theorem State.idx_withBw (w : Writer) : (s.withBw w).idx = s.idx := rfl
@[simp] theorem State.reg_withBw (w : Writer) : (s.withBw w).reg = s.reg := rfl
@[simp] theorem State.ri_withBw (w : Writer) : (s.withBw w).ri = s.ri := rfl
@[simp] theorem State.runIndex_withBw (w : Writer) : (s.withBw w).runIndex = s.runIndex := rfl
@[simp] theorem State.prev_withBw (w : Writer) : (s.withBw w).prev = s.prev := rfl
@[simp] theorem State.cur_withBw (w : Writer) : (s.withBw w).cur = s.cur := rfl
@[simp] theorem State.bw_withBw (w : Writer) : (s.withBw w).bw = w := rfl
@[simp] theorem State.br_withBw (w : Writer) : (s.withBw w).br = s.br := rfl
@[simp] theorem State.inp_withBw (w : Writer) : (s.withBw w).inp = s.inp := rfl
@[simp] theorem State.src_withBw (w : Writer) : (s.withBw w).src = s.src := rfl
@[simp] theorem State.out_withBw (w : Writer) : (s.withBw w).out = s.out := rfl
@[simp] theorem State.rowOpen_withBw (w : Writer) : (s.withBw w).rowOpen = s.rowOpen := rfl
@[simp] theorem State.issued_withBw (w : Writer) : (s.withBw w).issued = s.issued := rfl
@[simp] theorem State.ret_withBw (w : Writer) : (s.withBw w).ret = s.ret := rfl
@[simp] theorem State.w_withBw (w : Writer) : (s.withBw w).w = s.w := rfl

/-! `State.withBr` -/

@[simp] theorem State.dir_withBr (r : Reader) : (s.withBr r).dir = s.dir := rfl
@[simp] theorem State.width_withBr (r : Reader) : (s.withBr r).width = s.width := rfl
@[simp] theorem State.rows_withBr (r : Reader) : (s.withBr r).rows = s.rows := rfl
@[simp] theorem State.size_withBr (r : Reader) : (s.withBr r).size = s.size := rfl
@[simp] theorem State.status_withBr (r : Reader) : (s.withBr r).status = s.status := rfl
@[simp] theorem State.faultKind_withBr (r : Reader) : (s.withBr r).faultKind = s.faultKind := rfl
@[simp] theorem State.faultInfo_withBr (r : Reader) : (s.withBr r).faultInfo = s.faultInfo := rfl
@[simp] theorem State.y_withBr (r : Reader) : (s.withBr r).y = s.y := rfl
@[simp] theorem State.x_withBr (r : Reader) : (s.withBr r).x = s.x := rfl
@[simp] theorem State.mode_withBr (r : Reader) : (s.withBr r).mode = s.mode := rfl
@[simp] theorem State.ra_withBr (r : Reader) : (s.withBr r).ra = s.ra := rfl
@[simp] theorem State.rb_withBr (r : Reader) : (s.withBr r).rb = s.rb := rfl
@[simp] theorem State.rc_withBr (r : Reader) : (s.withBr r).rc = s.rc := rfl
@[simp] theorem State.rd_withBr (r : Reader) : (s.withBr r).rd = s.rd := rfl
@[simp] theorem State.q_withBr (r : Reader) : (s.withBr r).q = s.q := rfl
@[simp] theorem State.sign_withBr (r : Reader) : (s.withBr r).sign = s.sign := rfl
@[simp] theorem State.ci_withBr (r : Reader) : (s.withBr r).ci = s.ci := rfl
@[simp] theorem State.k_withBr (r : Reader) : (s.withBr r).k = s.k := rfl
@[simp] theorem State.px_withBr (r : Reader) : (s.withBr r).px = s.px := rfl
@[simp] theorem State.e_withBr (r : Reader) : (s.withBr r).e = s.e := rfl
@[simp] theorem State.m_withBr (r : Reader) : (s.withBr r).m = s.m := rfl
@[simp] theorem State.r_withBr (r : Reader) : (s.withBr r).r = s.r := rfl
@[simp] theorem State.rem_withBr (r : Reader) : (s.withBr r).rem = s.rem := rfl
@[simp] theorem State.eol_withBr (r : Reader) : (s.withBr r).eol = s.eol := rfl
@[simp] theorem State.idx_withBr (r : Reader) : (s.withBr r).idx = s.idx := rfl
@[simp] theorem State.reg_withBr (r : Reader) : (s.withBr r).reg = s.reg := rfl
@[simp] theorem State.ri_withBr (r : Reader) : (s.withBr r).ri = s.ri := rfl
@[simp] theorem State.runIndex_withBr (r : Reader) : (s.withBr r).runIndex = s.runIndex := rfl
@[simp] theorem State.prev_withBr (r : Reader) : (s.withBr r).prev = s.prev := rfl
@[simp] theorem State.cur_withBr (r : Reader) : (s.withBr r).cur = s.cur := rfl
@[simp] theorem State.bw_withBr (r : Reader) : (s.withBr r).bw = s.bw := rfl
@[simp] theorem State.br_withBr (r : Reader) : (s.withBr r).br = r := rfl
@[simp] theorem State.inp_withBr (r : Reader) : (s.withBr r).inp = s.inp := rfl
@[simp] theorem State.src_withBr (r : Reader) : (s.withBr r).src = s.src := rfl
@[simp] theorem State.out_withBr (r : Reader) : (s.withBr r).out = s.out := rfl
@[simp] theorem State.rowOpen_withBr (r : Reader) : (s.withBr r).rowOpen = s.rowOpen := rfl
@[simp] theorem State.issued_withBr (r : Reader) : (s.withBr r).issued = s.issued := rfl
@[simp] theorem State.ret_withBr (r : Reader) : (s.withBr r).ret = s.ret := rfl
@[simp] theorem State.w_withBr (r : Reader) : (s.withBr r).w = s.w := rfl

/-! `State.setPrev` -/

@[simp] theorem State.dir_setPrev (i : Int) (v : Sample) : (s.setPrev i v).dir = s.dir := rfl
@[simp] theorem State.width_setPrev (i : Int) (v : Sample) : (s.setPrev i v).width = s.width := rfl
@[simp] theorem State.rows_setPrev (i : Int) (v : Sample) : (s.setPrev i v).rows = s.rows := rfl
@[simp] theorem State.size_setPrev (i : Int) (v : Sample) : (s.setPrev i v).size = s.size := rfl
@[simp] theorem State.status_setPrev (i : Int) (v : Sample) : (s.setPrev i v).status = s.status := rfl
@[simp] theorem State.faultKind_setPrev (i : Int) (v : Sample) : (s.setPrev i v).faultKind = s.faultKind := rfl
@[simp] theorem State.faultInfo_setPrev (i : Int) (v : Sample) : (s.setPrev i v).faultInfo = s.faultInfo := rfl
@[simp] theorem State.y_setPrev (i : Int) (v : Sample) : (s.setPrev i v).y = s.y := rfl
@[simp] theorem State.x_setPrev (i : Int) (v : Sample) : (s.setPrev i v).x = s.x := rfl
@[simp] theorem State.mode_setPrev (i : Int) (v : Sample) : (s.setPrev i v).mode = s.mode := rfl
@[simp] theorem State.ra_setPrev (i : Int) (v : Sample) : (s.setPrev i v).ra = s.ra := rfl
@[simp] theorem State.rb_setPrev (i : Int) (v : Sample) : (s.setPrev i v).rb = s.rb := rfl
@[simp] theorem State.rc_setPrev (i : Int) (v : Sample) : (s.setPrev i v).rc = s.rc := rfl
@[simp] theorem State.rd_setPrev (i : Int) (v : Sample) : (s.setPrev i v).rd = s.rd := rfl
@[simp] theorem State.q_setPrev (i : Int) (v : Sample) : (s.setPrev i v).q = s.q := rfl
@[simp] theorem State.sign_setPrev (i : Int) (v : Sample) : (s.setPrev i v).sign = s.sign := rfl
@[simp] theorem State.ci_setPrev (i : Int) (v : Sample) : (s.setPrev i v).ci = s.ci := rfl
@[simp] theorem State.k_setPrev (i : Int) (v : Sample) : (s.setPrev i v).k = s.k := rfl
@[simp] theorem State.px_setPrev (i : Int) (v : Sample) : (s.setPrev i v).px = s.px := rfl
@[simp] theorem State.e_setPrev (i : Int) (v : Sample) : (s.setPrev i v).e = s.e := rfl
@[simp] theorem State.m_setPrev (i : Int) (v : Sample) : (s.setPrev i v).m = s.m := rfl
@[simp] theorem State.r_setPrev (i : Int) (v : Sample) : (s.setPrev i v).r = s.r := rfl
@[simp] theorem State.rem_setPrev (i : Int) (v : Sample) : (s.setPrev i v).rem = s.rem := rfl
@[simp] theorem State.eol_setPrev (i : Int) (v : Sample) : (s.setPrev i v).eol = s.eol := rfl
@[simp] theorem State.idx_setPrev (i : Int) (v : Sample) : (s.setPrev i v).idx = s.idx := rfl
@[simp] theorem State.reg_setPrev (i : Int) (v : Sample) : (s.setPrev i v).reg = s.reg := rfl
@[simp] theorem State.ri_setPrev (i : Int) (v : Sample) : (s.setPrev i v).ri = s.ri := rfl
@[simp] theorem State.runIndex_setPrev (i : Int) (v : Sample) : (s.setPrev i v).runIndex = s.runIndex := rfl
@[simp] theorem State.prev_setPrev (i : Int) (v : Sample) : (s.setPrev i v).prev = writeCell s.prev (lineAddr i) v := rfl
@[simp] theorem State.cur_setPrev (i : Int) (v : Sample) : (s.setPrev i v).cur = s.cur := rfl
@[simp] theorem State.bw_setPrev (i : Int) (v : Sample) : (s.setPrev i v).bw = s.bw := rfl
@[simp] theorem State.br_setPrev (i : Int) (v : Sample) : (s.setPrev i v).br = s.br := rfl
@[simp] theorem State.inp_setPrev (i : Int) (v : Sample) : (s.setPrev i v).inp = s.inp := rfl
@[simp] theorem State.src_setPrev (i : Int) (v : Sample) : (s.setPrev i v).src = s.src := rfl
@[simp] theorem State.out_setPrev (i : Int) (v : Sample) : (s.setPrev i v).out = s.out := rfl
@[simp] theorem State.rowOpen_setPrev (i : Int) (v : Sample) : (s.setPrev i v).rowOpen = s.rowOpen := rfl
@[simp] theorem State.issued_setPrev (i : Int) (v : Sample) : (s.setPrev i v).issued = s.issued := rfl
@[simp] theorem State.ret_setPrev (i : Int) (v : Sample) : (s.setPrev i v).ret = s.ret := rfl
@[simp] theorem State.w_setPrev (i : Int) (v : Sample) : (s.setPrev i v).w = s.w := rfl

/-! `State.setCur` -/

@[simp] theorem State.dir_setCur (i : Int) (v : Sample) : (s.setCur i v).dir = s.dir := rfl
@[simp] theorem State.width_setCur (i : Int) (v : Sample) : (s.setCur i v).width = s.width := rfl
@[simp] theorem State.rows_setCur (i : Int) (v : Sample) : (s.setCur i v).rows = s.rows := rfl
@[simp] theorem State.size_setCur (i : Int) (v : Sample) : (s.setCur i v).size = s.size := rfl
@[simp] theorem State.status_setCur (i : Int) (v : Sample) : (s.setCur i v).status = s.status := rfl
@[simp] theorem State.faultKind_setCur (i : Int) (v : Sample) : (s.setCur i v).faultKind = s.faultKind := rfl
@[simp] theorem State.faultInfo_setCur (i : Int) (v : Sample) : (s.setCur i v).faultInfo = s.faultInfo := rfl
@[simp] theorem State.y_setCur (i : Int) (v : Sample) : (s.setCur i v).y = s.y := rfl
@[simp] theorem State.x_setCur (i : Int) (v : Sample) : (s.setCur i v).x = s.x := rfl
@[simp] theorem State.mode_setCur (i : Int) (v : Sample) : (s.setCur i v).mode = s.mode := rfl
@[simp] theorem State.ra_setCur (i : Int) (v : Sample) : (s.setCur i v).ra = s.ra := rfl
@[simp] theorem State.rb_setCur (i : Int) (v : Sample) : (s.setCur i v).rb = s.rb := rfl
@[simp] theorem State.rc_setCur (i : Int) (v : Sample) : (s.setCur i v).rc = s.rc := rfl
@[simp] theorem State.rd_setCur (i : Int) (v : Sample) : (s.setCur i v).rd = s.rd := rfl
@[simp] theorem State.q_setCur (i : Int) (v : Sample) : (s.setCur i v).q = s.q := rfl
@[simp] theorem State.sign_setCur (i : Int) (v : Sample) : (s.setCur i v).sign = s.sign := rfl
@[simp] theorem State.ci_setCur (i : Int) (v : Sample) : (s.setCur i v).ci = s.ci := rfl
@[simp] theorem State.k_setCur (i : Int) (v : Sample) : (s.setCur i v).k = s.k := rfl
@[simp] theorem State.px_setCur (i : Int) (v : Sample) : (s.setCur i v).px = s.px := rfl
@[simp] theorem State.e_setCur (i : Int) (v : Sample) : (s.setCur i v).e = s.e := rfl
@[simp] theorem State.m_setCur (i : Int) (v : Sample) : (s.setCur i v).m = s.m := rfl
@[simp] theorem State.r_setCur (i : Int) (v : Sample) : (s.setCur i v).r = s.r := rfl
@[simp] theorem State.rem_setCur (i : Int) (v : Sample) : (s.setCur i v).rem = s.rem := rfl
@[simp] theorem State.eol_setCur (i : Int) (v : Sample) : (s.setCur i v).eol = s.eol := rfl
@[simp] theorem State.idx_setCur (i : Int) (v : Sample) : (s.setCur i v).idx = s.idx := rfl
@[simp] theorem State.reg_setCur (i : Int) (v : Sample) : (s.setCur i v).reg = s.reg := rfl
@[simp] theorem State.ri_setCur (i : Int) (v : Sample) : (s.setCur i v).ri = s.ri := rfl
@[simp] theorem State.runIndex_setCur (i : Int) (v : Sample) : (s.setCur i v).runIndex = s.runIndex := rfl
@[simp] theorem State.prev_setCur (i : Int) (v : Sample) : (s.setCur i v).prev = s.prev := rfl
@[simp] theorem State.cur_setCur (i : Int) (v : Sample) : (s.setCur i v).cur = writeCell s.cur (lineAddr i) v := rfl
@[simp] theorem State.bw_setCur (i : Int) (v : Sample) : (s.setCur i v).bw = s.bw := rfl
@[simp] theorem State.br_setCur (i : Int) (v : Sample) : (s.setCur i v).br = s.br := rfl
@[simp] theorem State.inp_setCur (i : Int) (v : Sample) : (s.setCur i v).inp = s.inp := rfl
@[simp] theorem State.src_setCur (i : Int) (v : Sample) : (s.setCur i v).src = s.src := rfl
@[simp] theorem State.out_setCur (i : Int) (v : Sample) : (s.setCur i v).out = s.out := rfl
@[simp] theorem State.rowOpen_setCur (i : Int) (v : Sample) : (s.setCur i v).rowOpen = s.rowOpen := rfl
@[simp] theorem State.issued_setCur (i : Int) (v : Sample) : (s.setCur i v).issued = s.issued := rfl
@[simp] theorem State.ret_setCur (i : Int) (v : Sample) : (s.setCur i v).ret = s.ret := rfl
@[simp] theorem State.w_setCur (i : Int) (v : Sample) : (s.setCur i v).w = s.w := rfl

/-! `State.setOut` -/

@[simp] theorem State.dir_setOut (y x : Nat) (v : Sample) : (s.setOut y x v).dir = s.dir := rfl
@[simp] theorem State.width_setOut (y x : Nat) (v : Sample) : (s.setOut y x v).width = s.width := rfl
@[simp] theorem State.rows_setOut (y x : Nat) (v : Sample) : (s.setOut y x v).rows = s.rows := rfl
@[simp] theorem State.size_setOut (y x : Nat) (v : Sample) : (s.setOut y x v).size = s.size := rfl
@[simp] theorem State.status_setOut (y x : Nat) (v : Sample) : (s.setOut y x v).status = s.status := rfl
@[simp] theorem State.faultKind_setOut (y x : Nat) (v : Sample) : (s.setOut y x v).faultKind = s.faultKind := rfl
@[simp] theorem State.faultInfo_setOut (y x : Nat) (v : Sample) : (s.setOut y x v).faultInfo = s.faultInfo := rfl
@[simp] theorem State.y_setOut (y x : Nat) (v : Sample) : (s.setOut y x v).y = s.y := rfl
@[simp] theorem State.x_setOut (y x : Nat) (v : Sample) : (s.setOut y x v).x = s.x := rfl
@[simp] theorem State.mode_setOut (y x : Nat) (v : Sample) : (s.setOut y x v).mode = s.mode := rfl
@[simp] theorem State.ra_setOut (y x : Nat) (v : Sample) : (s.setOut y x v).ra = s.ra := rfl
@[simp] theorem State.rb_setOut (y x : Nat) (v : Sample) : (s.setOut y x v).rb = s.rb := rfl
@[simp] theorem State.rc_setOut (y x : Nat) (v : Sample) : (s.setOut y x v).rc = s.rc := rfl
@[simp] theorem State.rd_setOut (y x : Nat) (v : Sample) : (s.setOut y x v).rd = s.rd := rfl
@[simp] theorem State.q_setOut (y x : Nat) (v : Sample) : (s.setOut y x v).q = s.q := rfl
@[simp] theorem State.sign_setOut (y x : Nat) (v : Sample) : (s.setOut y x v).sign = s.sign := rfl
@[simp] theorem State.ci_setOut (y x : Nat) (v : Sample) : (s.setOut y x v).ci = s.ci := rfl
@[simp] theorem State.k_setOut (y x : Nat) (v : Sample) : (s.setOut y x v).k = s.k := rfl
@[simp] theorem State.px_setOut (y x : Nat) (v : Sample) : (s.setOut y x v).px = s.px := rfl
@[simp] theorem State.e_setOut (y x : Nat) (v : Sample) : (s.setOut y x v).e = s.e := rfl
@[simp] theorem State.m_setOut (y x : Nat) (v : Sample) : (s.setOut y x v).m = s.m := rfl
@[simp] theorem State.r_setOut (y x : Nat) (v : Sample) : (s.setOut y x v).r = s.r := rfl
@[simp] theorem State.rem_setOut (y x : Nat) (v : Sample) : (s.setOut y x v).rem = s.rem := rfl
@[simp] theorem State.eol_setOut (y x : Nat) (v : Sample) : (s.setOut y x v).eol = s.eol := rfl
@[simp] theorem State.idx_setOut (y x : Nat) (v : Sample) : (s.setOut y x v).idx = s.idx := rfl
@[simp] theorem State.reg_setOut (y x : Nat) (v : Sample) : (s.setOut y x v).reg = s.reg := rfl
@[simp] theorem State.ri_setOut (y x : Nat) (v : Sample) : (s.setOut y x v).ri = s.ri := rfl
@[simp] theorem State.runIndex_setOut (y x : Nat) (v : Sample) : (s.setOut y x v).runIndex = s.runIndex := rfl
@[simp] theorem State.prev_setOut (y x : Nat) (v : Sample) : (s.setOut y x v).prev = s.prev := rfl
@[simp] theorem State.cur_setOut (y x : Nat) (v : Sample) : (s.setOut y x v).cur = s.cur := rfl
@[simp] theorem State.bw_setOut (y x : Nat) (v : Sample) : (s.setOut y x v).bw = s.bw := rfl
@[simp] theorem State.br_setOut (y x : Nat) (v : Sample) : (s.setOut y x v).br = s.br := rfl
@[simp] theorem State.inp_setOut (y x : Nat) (v : Sample) : (s.setOut y x v).inp = s.inp := rfl
@[simp] theorem State.src_setOut (y x : Nat) (v : Sample) : (s.setOut y x v).src = s.src := rfl
@[simp] theorem State.out_setOut (y x : Nat) (v : Sample) : (s.setOut y x v).out = writeCell s.out (sampleAddr y x) v := rfl
@[simp] theorem State.rowOpen_setOut (y x : Nat) (v : Sample) : (s.setOut y x v).rowOpen = s.rowOpen := rfl
@[simp] theorem State.issued_setOut (y x : Nat) (v : Sample) : (s.setOut y x v).issued = s.issued := rfl
@[simp] theorem State.ret_setOut (y x : Nat) (v : Sample) : (s.setOut y x v).ret = s.ret := rfl
@[simp] theorem State.w_setOut (y x : Nat) (v : Sample) : (s.setOut y x v).w = s.w := rfl

/-! `State.issue` -/

@[simp] theorem State.dir_issue (i : Instr) : (s.issue i).dir = s.dir := rfl
@[simp] theorem State.width_issue (i : Instr) : (s.issue i).width = s.width := rfl
@[simp] theorem State.rows_issue (i : Instr) : (s.issue i).rows = s.rows := rfl
@[simp] theorem State.size_issue (i : Instr) : (s.issue i).size = s.size := rfl
@[simp] theorem State.status_issue (i : Instr) : (s.issue i).status = s.status := rfl
@[simp] theorem State.faultKind_issue (i : Instr) : (s.issue i).faultKind = s.faultKind := rfl
@[simp] theorem State.faultInfo_issue (i : Instr) : (s.issue i).faultInfo = s.faultInfo := rfl
@[simp] theorem State.y_issue (i : Instr) : (s.issue i).y = s.y := rfl
@[simp] theorem State.x_issue (i : Instr) : (s.issue i).x = s.x := rfl
@[simp] theorem State.mode_issue (i : Instr) : (s.issue i).mode = s.mode := rfl
@[simp] theorem State.ra_issue (i : Instr) : (s.issue i).ra = s.ra := rfl
@[simp] theorem State.rb_issue (i : Instr) : (s.issue i).rb = s.rb := rfl
@[simp] theorem State.rc_issue (i : Instr) : (s.issue i).rc = s.rc := rfl
@[simp] theorem State.rd_issue (i : Instr) : (s.issue i).rd = s.rd := rfl
@[simp] theorem State.q_issue (i : Instr) : (s.issue i).q = s.q := rfl
@[simp] theorem State.sign_issue (i : Instr) : (s.issue i).sign = s.sign := rfl
@[simp] theorem State.ci_issue (i : Instr) : (s.issue i).ci = s.ci := rfl
@[simp] theorem State.k_issue (i : Instr) : (s.issue i).k = s.k := rfl
@[simp] theorem State.px_issue (i : Instr) : (s.issue i).px = s.px := rfl
@[simp] theorem State.e_issue (i : Instr) : (s.issue i).e = s.e := rfl
@[simp] theorem State.m_issue (i : Instr) : (s.issue i).m = s.m := rfl
@[simp] theorem State.r_issue (i : Instr) : (s.issue i).r = s.r := rfl
@[simp] theorem State.rem_issue (i : Instr) : (s.issue i).rem = s.rem := rfl
@[simp] theorem State.eol_issue (i : Instr) : (s.issue i).eol = s.eol := rfl
@[simp] theorem State.idx_issue (i : Instr) : (s.issue i).idx = s.idx := rfl
@[simp] theorem State.reg_issue (i : Instr) : (s.issue i).reg = s.reg := rfl
@[simp] theorem State.ri_issue (i : Instr) : (s.issue i).ri = s.ri := rfl
@[simp] theorem State.runIndex_issue (i : Instr) : (s.issue i).runIndex = s.runIndex := rfl
@[simp] theorem State.prev_issue (i : Instr) : (s.issue i).prev = s.prev := rfl
@[simp] theorem State.cur_issue (i : Instr) : (s.issue i).cur = s.cur := rfl
@[simp] theorem State.bw_issue (i : Instr) : (s.issue i).bw = s.bw := rfl
@[simp] theorem State.br_issue (i : Instr) : (s.issue i).br = s.br := rfl
@[simp] theorem State.inp_issue (i : Instr) : (s.issue i).inp = s.inp := rfl
@[simp] theorem State.src_issue (i : Instr) : (s.issue i).src = s.src := rfl
@[simp] theorem State.out_issue (i : Instr) : (s.issue i).out = s.out := rfl
@[simp] theorem State.rowOpen_issue (i : Instr) : (s.issue i).rowOpen = s.rowOpen := rfl
@[simp] theorem State.issued_issue (i : Instr) : (s.issue i).issued = some i := rfl
@[simp] theorem State.ret_issue (i : Instr) : (s.issue i).ret = s.ret := rfl
@[simp] theorem State.w_issue (i : Instr) : (s.issue i).w = s.w := rfl

end Sys2Proof.Machine
end

