-- ==== Sys2Proof/Laws/Meets.lean ====
section
/-! SUPPORT. What a sequence of operations ends in, said once: `Res.Meets` and its rule for `Res.bind`, and what the parts
that search, update and read meet in a state whose context invariants hold. -/

namespace Sys2Proof.Machine

/-- The sequence does not stop; where it finishes Q holds, and where it raises a fault R. -/
def Res.Meets {α : Type} (r : Res α) (Q : α → State → Prop) (R : State → Prop) : Prop :=
  match r with
  | .ok a s => Q a s
  | .raised s => R s
  | .stop _ => False

theorem Res.Meets.bind {α β : Type} {r : Res α} {f : α → State → Res β} {Q : α → State → Prop} {Q' : β → State → Prop}
    {R : State → Prop} (h : r.Meets Q R) (hf : ∀ a s, Q a s → (f a s).Meets Q' R) : (r.bind f).Meets Q' R := by
  cases r with
  | ok a s => exact hf a s h
  | raised s => exact h
  | stop e => exact h.elim

theorem Res.Meets.mono {α : Type} {r : Res α} {Q Q' : α → State → Prop} {R R' : State → Prop} (h : r.Meets Q R)
    (hQ : ∀ a s, Q a s → Q' a s) (hR : ∀ s, R s → R' s) : r.Meets Q' R' := by
  cases r with
  | ok a s => exact hQ a s h
  | raised s => exact hR s h
  | stop e => exact h

/-- An operation whose parts meet Q and R answers a next state. -/
theorem Res.Meets.outcome {α : Type} {r : Res α} {Q : α → State → Prop} {R : State → Prop} (h : r.Meets Q R)
    (f : α → State → State) : ∃ t, r.outcome f = .next t ∧ ((∃ a s, Q a s ∧ t = f a s) ∨ R t) := by
  cases r with
  | ok a s => exact ⟨_, rfl, .inl ⟨a, s, h, rfl⟩⟩
  | raised s => exact ⟨_, rfl, .inr h⟩
  | stop e => exact h.elim

/-! The context files. -/

theorem get_set_self {α : Type} {n : Nat} (v : Vector α n) (i : Fin n) (a : α) : (v.set i a).get i = a := by
  simp [Vector.get_eq_getElem]

theorem get_set_other {α : Type} {n : Nat} (v : Vector α n) {i j : Fin n} (a : α) (h : i ≠ j) :
    (v.set i a).get j = v.get j := by
  simp only [Vector.get_eq_getElem]
  exact Vector.getElem_set_ne i.isLt j.isLt (fun h' => h (Fin.ext h'))

theorem forall_get_set {α : Type} {n : Nat} {P : Fin n → α → Prop} {v : Vector α n} (h : ∀ i, P i (v.get i)) {i : Fin n}
    {a : α} (ha : P i a) (j : Fin n) : P j ((v.set i a).get j) := by
  by_cases hij : i = j
  · subst hij
    rwa [get_set_self]
  · rw [get_set_other v a hij]
    exact h j

/-- Both context files keep their invariants (R27, R29). -/
def State.CtxInv (s : State) : Prop := (∀ i, (s.reg.get i).Inv) ∧ ∀ t, (s.ri.get t).Inv t

theorem State.Inv.ctx {s : State} (h : s.Inv) : s.CtxInv := ⟨h.1, h.2.1⟩

theorem State.CtxInv.withReg {s : State} (h : s.CtxInv) {i : Fin Config.nctx} {c : RegCtx} (hc : c.Inv) :
    (s.withReg i c).CtxInv :=
  ⟨fun j => forall_get_set (P := fun _ (c : RegCtx) => c.Inv) h.1 hc j, h.2⟩

theorem State.CtxInv.withRi {s : State} (h : s.CtxInv) {t : Fin Config.nri} {c : RunCtx} (hc : c.Inv t) :
    (s.withRi t c).CtxInv :=
  ⟨h.1, fun j => forall_get_set (P := fun t (c : RunCtx) => c.Inv t) h.2 hc j⟩

theorem State.Bounded.withReg {s : State} (h : s.Bounded) {i : Fin Config.nctx} {c : RegCtx} (hc : c.Bounded) :
    (s.withReg i c).Bounded :=
  ⟨fun j => forall_get_set (P := fun _ (c : RegCtx) => c.Bounded) h.1 hc j, h.2⟩

theorem State.Bounded.withRi {s : State} (h : s.Bounded) {t : Fin Config.nri} {c : RunCtx} (hc : c.Bounded) :
    (s.withRi t c).Bounded :=
  ⟨h.1, fun j => forall_get_set (P := fun _ (c : RunCtx) => c.Bounded) h.2 hc j⟩

theorem State.regK_ok {s : State} {i : Fin Config.nctx} {k : Nat} (h : (s.reg.get i).getK = some k) :
    s.regK i = .ok k s := by
  unfold State.regK
  rw [h]

theorem State.runK_ok {s : State} {t : Fin Config.nri} {k : Nat} (h : (s.ri.get t).getK t = some k) :
    s.runK t = .ok k s := by
  unfold State.runK
  rw [h]

theorem State.updateReg_ok {s : State} {i : Fin Config.nctx} {e : Int} {c : RegCtx}
    (h : (s.reg.get i).update e = some c) : s.updateReg i e = .ok () (s.withReg i c) := by
  unfold State.updateReg
  rw [h]

/-- The update of a well-kept entry stores a well-kept entry or raises the fault (R165, R233). -/
theorem RegCtx.update_cases {c : RegCtx} (h : c.Inv) (e : Int) :
    (∃ c', c.update e = some c' ∧ c'.Inv) ∨ c.update e = none := by
  by_cases hf : fits32 (c.a.toInt + |e|) = true ∧ fits32 (c.b.toInt + e) = true
  · obtain ⟨c', h1, h2, _⟩ := RegCtx.update_inv h hf.1 hf.2
    exact .inl ⟨c', h1, h2⟩
  · exact .inr (RegCtx.update_eq_none hf)

theorem State.updateReg_cases {s : State} (i : Fin Config.nctx) (h : (s.reg.get i).Inv) (e : Int) :
    (∃ c, s.updateReg i e = .ok () (s.withReg i c) ∧ c.Inv) ∨
      s.updateReg i e = .raised (s.raise .contextOverflow i.val) := by
  rcases RegCtx.update_cases h e with ⟨c, h1, h2⟩ | h1
  · exact .inl ⟨c, State.updateReg_ok h1, h2⟩
  · exact .inr (by unfold State.updateReg; rw [h1])

theorem RunCtx.a_countNegative (c : RunCtx) (e : Int) : (c.countNegative e).a = c.a := by
  unfold RunCtx.countNegative
  split_ifs <;> rfl

/-- The update of a well-kept run-interruption entry with a natural mapped value (R177, R233). -/
theorem State.updateRi_cases {s : State} (t : Fin Config.nri) (h : (s.ri.get t).Inv t) (e : Int) (em : Nat) :
    (∃ c, s.updateRi t e em = .ok () (s.withRi t c) ∧ c.Inv t) ∨
      ∃ c, s.updateRi t e em = .raised ((s.withRi t c).raise .contextOverflow (Config.nctx + t.val)) := by
  have ht := t.isLt
  simp only [Config.nri] at ht
  unfold State.updateRi
  simp only [RunCtx.a_countNegative]
  by_cases hf : fits32 ((s.ri.get t).a.toInt + asr ((em : Int) + 1 - t.val) 1) = true
  · rw [if_pos hf]
    have h0 := h.2.2.2.2.1
    exact .inl ⟨_, rfl, RunCtx.accumulate_inv h hf (by rw [asr_one]; omega)⟩
  · rw [if_neg hf]
    exact .inr ⟨_, rfl⟩

/-- Mapped values of at most 65536 neither overflow a bounded entry nor take it out of its bound (R29). -/
theorem State.updateRi_bounded {s : State} (t : Fin Config.nri) (h : (s.ri.get t).Inv t) (hb : (s.ri.get t).Bounded)
    (e : Int) {em : Nat} (hem : em ≤ 65536) :
    ∃ c, (∀ u : State, u.ri = s.ri → u.updateRi t e em = .ok () (u.withRi t c)) ∧ c.Inv t ∧ c.Bounded := by
  have ht := t.isLt
  simp only [Config.nri] at ht
  simp only [RunCtx.Bounded] at hb
  have hn := h.2.1
  have h0 := h.2.2.2.2.1
  have hf : fits32 ((s.ri.get t).a.toInt + asr ((em : Int) + 1 - t.val) 1) = true := by
    rw [asr_one]
    exact fits32_iff.mpr ⟨by omega, by omega⟩
  obtain ⟨h2, h3, -⟩ := RunCtx.accumulate_fields (e := e) h hf
  have h1 := RunCtx.accumulate_inv (e := e) h hf (by rw [asr_one]; omega)
  refine ⟨_, fun u hu => ?_, h1, ?_⟩
  · unfold State.updateRi
    simp only [RunCtx.a_countNegative, hu]
    rw [if_pos hf]
  · simp only [RunCtx.Bounded]
    rw [h2, h3, asr_one]
    split_ifs <;> omega

/-! Memory. -/

theorem Memory.wf_iff {s : State} : Memory.wf s = true ↔
    spaceWf s.prev = true ∧ spaceWf s.cur = true ∧ spaceWf s.inp = true ∧ spaceWf s.src = true ∧ spaceWf s.out = true := by
  simp [Memory.wf, and_assoc]

theorem Memory.wf_setCur {s : State} (h : Memory.wf s = true) (i : Int) (v : Sample) : Memory.wf (s.setCur i v) = true := by
  rw [Memory.wf_iff] at h ⊢
  exact ⟨h.1, spaceWf_writeCell h.2.1, h.2.2⟩

theorem Memory.wf_setPrev {s : State} (h : Memory.wf s = true) (i : Int) (v : Sample) :
    Memory.wf (s.setPrev i v) = true := by
  rw [Memory.wf_iff] at h ⊢
  exact ⟨spaceWf_writeCell h.1, h.2⟩

theorem Memory.wf_setOut {s : State} (h : Memory.wf s = true) (y x : Nat) (v : Sample) :
    Memory.wf (s.setOut y x v) = true := by
  rw [Memory.wf_iff] at h ⊢
  exact ⟨h.1, h.2.1, h.2.2.1, h.2.2.2.1, spaceWf_writeCell h.2.2.2.2⟩

theorem State.curAt_setCur {s : State} (h : Memory.wf s = true) {i j : Int} (hi : -1 ≤ i) (hj : -1 ≤ j) (v : Sample) :
    (s.setCur i v).curAt j = if j = i then v else s.curAt j := by
  show readCell (writeCell s.cur (lineAddr i) v) (lineAddr j) = _
  rw [readCell_writeCell (Memory.wf_iff.mp h).2.1]
  by_cases hji : j = i
  · rw [hji, if_pos rfl, if_pos rfl]
  · rw [if_neg hji, if_neg fun h' => hji (lineAddr_inj hj hi h')]
    rfl

theorem State.outAt_setOut {s : State} (h : Memory.wf s = true) {y x y' x' : Nat} (hx : x < 65536) (hx' : x' < 65536)
    (v : Sample) : (s.setOut y x v).outAt y' x' = if y' = y ∧ x' = x then v else s.outAt y' x' := by
  show readCell (writeCell s.out (sampleAddr y x) v) (sampleAddr y' x') = _
  rw [readCell_writeCell (Memory.wf_iff.mp h).2.2.2.2]
  by_cases hji : y' = y ∧ x' = x
  · rw [hji.1, hji.2, if_pos rfl, if_pos ⟨rfl, rfl⟩]
  · rw [if_neg hji, if_neg fun h' => hji (sampleAddr_inj hx' hx h')]
    rfl

/-- The run of samples stored in CUR (R195, R214). -/
theorem State.fillCur_eq (s : State) (x : Nat) (v : Sample) (n : Nat) :
    s.fillCur x v n = { s with cur := (s.fillCur x v n).cur } := by
  induction n with
  | zero => rfl
  | succ n ih =>
    rw [State.fillCur, ih]
    rfl

theorem Memory.wf_fillCur {s : State} (h : Memory.wf s = true) (x : Nat) (v : Sample) (n : Nat) :
    Memory.wf (s.fillCur x v n) = true := by
  induction n with
  | zero => exact h
  | succ n ih => exact Memory.wf_setCur ih _ _

theorem State.curAt_fillCur {s : State} (h : Memory.wf s = true) (x : Nat) (v : Sample) (n : Nat) {j : Int} (hj : -1 ≤ j) :
    (s.fillCur x v n).curAt j = if (x : Int) ≤ j ∧ j < x + n then v else s.curAt j := by
  induction n with
  | zero => rw [if_neg (by omega)]; rfl
  | succ n ih =>
    rw [State.fillCur, State.curAt_setCur (Memory.wf_fillCur h x v n) (by omega) hj, ih]
    split_ifs <;> first | rfl | omega

theorem State.fillOut_eq (s : State) (y x : Nat) (v : Sample) (n : Nat) :
    s.fillOut y x v n = { s with out := (s.fillOut y x v n).out } := by
  induction n with
  | zero => rfl
  | succ n ih =>
    rw [State.fillOut, ih]
    rfl

theorem Memory.wf_fillOut {s : State} (h : Memory.wf s = true) (y x : Nat) (v : Sample) (n : Nat) :
    Memory.wf (s.fillOut y x v n) = true := by
  induction n with
  | zero => exact h
  | succ n ih => exact Memory.wf_setOut ih _ _ _

theorem State.outAt_fillOut {s : State} (h : Memory.wf s = true) {y x : Nat} (v : Sample) {n : Nat} (hn : x + n ≤ 65536)
    {y' x' : Nat} (hx' : x' < 65536) :
    (s.fillOut y x v n).outAt y' x' = if y' = y ∧ x ≤ x' ∧ x' < x + n then v else s.outAt y' x' := by
  induction n with
  | zero => rw [if_neg (by omega)]; rfl
  | succ n ih =>
    rw [State.fillOut, State.outAt_setOut (Memory.wf_fillOut h y x v n) (by omega) hx', ih (by omega)]
    split_ifs <;> first | rfl | omega

end Sys2Proof.Machine
end

