-- ==== Sys2Proof/Laws/Pixels.lean ====
section
/-! SUPPORT. The functions of one pixel: the quantizer and the context id, the predictor, the residual and its
reconstruction, and the two residual mappings. -/

namespace Sys2Proof.Machine

/-! Quantizer and context id (R141, R143, R144). -/

/-- The nine levels with their intervals. -/
theorem quantize_cases (d : Int) :
    (d ≤ -276 ∧ quantize d = -4) ∨ (-276 < d ∧ d ≤ -67 ∧ quantize d = -3) ∨ (-67 < d ∧ d ≤ -18 ∧ quantize d = -2) ∨
    (-18 < d ∧ d < 0 ∧ quantize d = -1) ∨ (d = 0 ∧ quantize d = 0) ∨ (0 < d ∧ d < 18 ∧ quantize d = 1) ∨
    (18 ≤ d ∧ d < 67 ∧ quantize d = 2) ∨ (67 ≤ d ∧ d < 276 ∧ quantize d = 3) ∨ (276 ≤ d ∧ quantize d = 4) := by
  unfold quantize
  rw [show Config.t1 = 18 from by decide, show Config.t2 = 67 from by decide, show Config.t3 = 276 from by decide]
  split_ifs <;> omega

theorem quantize_bounds (d : Int) : -4 ≤ quantize d ∧ quantize d ≤ 4 := by
  have := quantize_cases d
  omega

theorem quantize_eq_zero (d : Int) : quantize d = 0 ↔ d = 0 := by
  have := quantize_cases d
  omega

theorem quantize_neg (d : Int) : quantize (-d) = -quantize d := by
  have h := quantize_cases (-d)
  obtain h' | h' | h' | h' | h' | h' | h' | h' | h' := quantize_cases d <;> omega

theorem quantize_mono {d d' : Int} (hd : d ≤ d') : quantize d ≤ quantize d' := by
  have h := quantize_cases d'
  obtain h' | h' | h' | h' | h' | h' | h' | h' | h' := quantize_cases d <;> omega

theorem contextId_bounds (ra rb rc rd : Sample) : -364 ≤ contextId ra rb rc rd ∧ contextId ra rb rc rd ≤ 364 := by
  have h1 := quantize_bounds (sampleInt rd - sampleInt rb)
  have h2 := quantize_bounds (sampleInt rb - sampleInt rc)
  have h3 := quantize_bounds (sampleInt rc - sampleInt ra)
  unfold contextId
  omega

/-- The context id tells the three levels apart. -/
theorem contextId_levels {a b c d a' b' c' d' : Sample} (h : contextId a b c d = contextId a' b' c' d') :
    quantize (sampleInt d - sampleInt b) = quantize (sampleInt d' - sampleInt b') ∧
    quantize (sampleInt b - sampleInt c) = quantize (sampleInt b' - sampleInt c') ∧
    quantize (sampleInt c - sampleInt a) = quantize (sampleInt c' - sampleInt a') := by
  have h1 := quantize_bounds (sampleInt d - sampleInt b)
  have h2 := quantize_bounds (sampleInt b - sampleInt c)
  have h3 := quantize_bounds (sampleInt c - sampleInt a)
  have h1' := quantize_bounds (sampleInt d' - sampleInt b')
  have h2' := quantize_bounds (sampleInt b' - sampleInt c')
  have h3' := quantize_bounds (sampleInt c' - sampleInt a')
  unfold contextId at h
  omega

/-- In the range of a context id the context index is its magnitude. -/
theorem contextIndex_val {q : Int} (h1 : -364 ≤ q) (h2 : q ≤ 364) : ((contextIndex q).val : Int) = |q| := by
  unfold contextIndex signOf
  simp only [Fin.val_ofNat]
  split_ifs with h
  · rw [abs_of_neg h]
    simp only [applySign, Config.nctx]
    omega
  · rw [abs_of_nonneg (by omega)]
    simp only [applySign, Config.nctx]
    omega

/-! Predictor, residual, reconstruction (R150 to R154, R171, R172, R178). -/

theorem sampleInt_medPredict (ra rb rc : Sample) : sampleInt (medPredict ra rb rc) =
    if sampleInt rc ≥ max (sampleInt ra) (sampleInt rb) then min (sampleInt ra) (sampleInt rb)
    else if sampleInt rc ≤ min (sampleInt ra) (sampleInt rb) then max (sampleInt ra) (sampleInt rb)
    else sampleInt ra + sampleInt rb - sampleInt rc := by
  have h1 := sampleInt_le ra
  have h2 := sampleInt_le rb
  have h1' := sampleInt_nonneg ra
  have h2' := sampleInt_nonneg rb
  unfold medPredict
  split_ifs <;> (rw [sampleInt_toSample] <;> omega)

theorem sampleInt_correctPrediction (p : Sample) (c : BitVec 8) (sign : Sign) :
    sampleInt (correctPrediction p c sign) = max 0 (min 65535 (sampleInt p + applySign c.toInt sign)) := by
  unfold correctPrediction
  rw [show Config.maxval = 65535 from rfl, sampleInt_toSample] <;> unfold clamp
  all_goals omega

/-- The reduction stays in 16 bits and changes nothing modulo 65536. -/
theorem modRange_spec (d : Int) : -32768 ≤ modRange d ∧ modRange d ≤ 32767 ∧ modRange d % 65536 = d % 65536 := by
  unfold modRange
  rw [show Config.range = 65536 from rfl]
  split_ifs <;> omega

theorem applySign_eq (v : Int) (sign : Sign) : applySign v sign = sign.toInt * v := by
  cases sign <;> simp [applySign, Sign.toInt]

theorem errVal_bounds (x px : Sample) (sign : Sign) : -32768 ≤ errVal x px sign ∧ errVal x px sign ≤ 32767 :=
  ⟨(modRange_spec _).1, (modRange_spec _).2.1⟩

theorem abs_errVal_le (x px : Sample) (sign : Sign) : |errVal x px sign| ≤ 32768 := by
  have := errVal_bounds x px sign
  rw [abs_le]
  omega

/-- The law of R154. -/
@[simp] theorem reconstruct_errVal (x px : Sample) (sign : Sign) : reconstruct px (errVal x px sign) sign = x := by
  rw [← sampleInt_inj, reconstruct, sampleInt_toSample_mod]
  have h1 := sampleInt_nonneg x
  have h2 := sampleInt_le x
  cases sign <;> simp only [errVal, applySign]
  · have := (modRange_spec (sampleInt x - sampleInt px)).2.2
    omega
  · have := (modRange_spec (-(sampleInt x - sampleInt px))).2.2
    omega

/-- The sample an interruption sample is predicted from, and the sign. -/
def runBase (ra rb : Sample) : Int := if ra = rb then sampleInt ra else sampleInt rb

/-- The sign of an interruption residual. -/
def runSign (ra rb : Sample) : Int := if sampleInt rb < sampleInt ra then -1 else 1

theorem runSign_cases (ra rb : Sample) : runSign ra rb = -1 ∨ runSign ra rb = 1 := by
  unfold runSign
  split_ifs <;> simp

theorem runResidual_eq (x ra rb : Sample) :
    (runResidual x ra rb).1 = modRange ((sampleInt x - runBase ra rb) * runSign ra rb) ∧
      (runResidual x ra rb).2.toInt = runSign ra rb := by
  unfold runResidual runBase runSign
  by_cases h : ra = rb
  · subst h
    simp [Sign.toInt]
  · have hne : sampleInt ra ≠ sampleInt rb := fun h' => h (sampleInt_inj.mp h')
    simp only [if_neg h]
    by_cases h2 : sampleInt rb > sampleInt ra
    · have h3 : ¬sampleInt rb < sampleInt ra := by omega
      simp [h2, h3, applySign, Sign.toInt]
    · have h3 : sampleInt rb < sampleInt ra := by omega
      simp [h2, h3, applySign, Sign.toInt]

theorem sampleInt_runReconstruct (ra rb : Sample) (e : Int) :
    sampleInt (runReconstruct ra rb e) = (runBase ra rb + e * runSign ra rb) % 65536 := by
  unfold runReconstruct runBase runSign
  by_cases h : ra = rb
  · subst h
    simp [sampleInt_toSample_mod]
  · have hne : sampleInt ra ≠ sampleInt rb := fun h' => h (sampleInt_inj.mp h')
    simp only [if_neg h]
    by_cases h2 : sampleInt rb > sampleInt ra
    · have h3 : ¬sampleInt rb < sampleInt ra := by omega
      simp [h2, h3, applySign, sampleInt_toSample_mod]
    · have h3 : sampleInt rb < sampleInt ra := by omega
      simp [h2, h3, applySign, sampleInt_toSample_mod]

theorem runResidual_bounds (x ra rb : Sample) : -32768 ≤ (runResidual x ra rb).1 ∧ (runResidual x ra rb).1 ≤ 32767 := by
  rw [(runResidual_eq x ra rb).1]
  exact ⟨(modRange_spec _).1, (modRange_spec _).2.1⟩

@[simp] theorem toSample_sampleInt (v : Sample) : toSample (sampleInt v) = v := by
  rw [← sampleInt_inj, sampleInt_toSample_mod]
  have h1 := sampleInt_nonneg v
  have h2 := sampleInt_le v
  omega

/-- The law of R178. -/
@[simp] theorem runReconstruct_runResidual (x ra rb : Sample) :
    runReconstruct ra rb (runResidual x ra rb).1 = x := by
  rw [← sampleInt_inj, sampleInt_runReconstruct, (runResidual_eq x ra rb).1]
  have h1 := sampleInt_nonneg x
  have h2 := sampleInt_le x
  obtain h | h := runSign_cases ra rb <;> rw [h]
  · have := (modRange_spec ((sampleInt x - runBase ra rb) * -1)).2.2
    omega
  · have := (modRange_spec ((sampleInt x - runBase ra rb) * 1)).2.2
    omega

theorem runSelect_eq (ra rb : Sample) : runSelect ra rb = if ra = rb then 1 else 0 := by
  unfold runSelect
  rw [show Config.near = 0 from rfl]
  by_cases h : ra = rb
  · subst h
    simp
  · have hne : sampleInt ra ≠ sampleInt rb := fun h' => h (sampleInt_inj.mp h')
    rw [if_neg h, if_neg (by rw [abs_nonpos_iff]; omega)]

/-- A sample that interrupts a run between equal flanks has a non-zero residual (R172). -/
theorem runResidual_ne_zero {x ra rb : Sample} (ht : runSelect ra rb = 1) (hx : x ≠ ra) :
    (runResidual x ra rb).1 ≠ 0 := by
  have h : ra = rb := by
    by_contra h
    rw [runSelect_eq, if_neg h] at ht
    simp at ht
  intro he
  have hr := runReconstruct_runResidual x ra rb
  rw [he, runReconstruct, if_pos h, add_zero] at hr
  refine hx ?_
  rw [← hr, ← sampleInt_inj, sampleInt_toSample (sampleInt_nonneg ra) (sampleInt_le ra)]

/-! The residual mapping of regular mode (R163, R164, R168). -/

theorem mapErr_eq (e : Int) : (mapErr e : Int) = if 0 ≤ e then 2 * e else -2 * e - 1 := by
  unfold mapErr
  split_ifs <;> omega

theorem unmapErr_spec (m : Nat) : (m % 2 = 0 → 2 * unmapErr m = m) ∧ (m % 2 = 1 → 2 * unmapErr m = -(m + 1 : Int)) := by
  unfold unmapErr
  simp only [Nat.shiftRight_one]
  split_ifs <;> omega

@[simp] theorem unmapErr_mapErr (e : Int) : unmapErr (mapErr e) = e := by
  have h := unmapErr_spec (mapErr e)
  have h' := mapErr_eq e
  split_ifs at h' <;> omega

@[simp] theorem mapErr_unmapErr (m : Nat) : mapErr (unmapErr m) = m := by
  have h := unmapErr_spec m
  have h' := mapErr_eq (unmapErr m)
  split_ifs at h' <;> omega

theorem xor_one_eq (m : Nat) : m ^^^ 1 = if m % 2 = 0 then m + 1 else m - 1 := by
  split_ifs with h
  · exact Nat.xor_one_of_even (Nat.even_iff.mpr h)
  · exact Nat.xor_one_of_odd (Nat.odd_iff.mpr (by omega))

/-- The correction law (R168). -/
theorem mapErr_xor_one (e : Int) : mapErr e ^^^ 1 = mapErr (-e - 1) := by
  have h := mapErr_eq e
  have h' := mapErr_eq (-e - 1)
  rw [xor_one_eq]
  split_ifs at h h' ⊢ <;> omega

theorem mapErr_le {e : Int} (h : -32768 ≤ e) (h' : e ≤ 32767) : mapErr e ≤ 65535 := by
  have := mapErr_eq e
  split_ifs at this <;> omega

/-- With the correction applied a mapped value of 16 bits keeps 16 bits. -/
theorem xor_le {m c : Nat} (hm : m ≤ 65535) (hc : c ≤ 1) : m ^^^ c ≤ 65535 := by
  obtain rfl | rfl : c = 0 ∨ c = 1 := by omega
  · simpa using hm
  · rw [xor_one_eq]
    split_ifs <;> omega

theorem getCorr_le (c : RegCtx) (k : Nat) : c.getCorr k ≤ 1 := by
  unfold RegCtx.getCorr signBit
  split_ifs <;> omega

/-! The residual mapping of a run interruption (R174 to R176, R179). -/

/-- The equivalent form of R174: with `c` the condition k != 0 or 2*Nn >= N, the map bit is not `c` for e > 0, `c` for
e < 0, 0 for e = 0. -/
theorem RunCtx.map_eq (c : RunCtx) (e : Int) (k : Nat) :
    c.map e k = if e = 0 then 0 else if e > 0 ↔ (k ≠ 0 ∨ 2 * c.nn.toInt ≥ c.n.toInt) then 0 else 1 := by
  unfold RunCtx.map
  split_ifs <;> first | rfl | omega

/-- Twice the magnitude of `RI.UNMAP` is the mapped value, the context number and the parity together. -/
theorem RunCtx.unmap_spec (c : RunCtx) (t : Fin Config.nri) (em k : Nat) :
    2 * |c.unmap t em k| = em + t.val + (em + t.val) % 2 ∧
      (c.unmap t em k < 0 → ((k ≠ 0 ∨ 2 * c.nn.toInt ≥ c.n.toInt) ↔ (em + t.val) % 2 = 1)) ∧
      (0 < c.unmap t em k → ((k ≠ 0 ∨ 2 * c.nn.toInt ≥ c.n.toInt) ↔ (em + t.val) % 2 = 0)) := by
  have h2 : (em + t.val + (em + t.val) % 2) % 2 = 0 := by omega
  unfold RunCtx.unmap
  simp only [Nat.shiftRight_one]
  by_cases hc : k ≠ 0 ∨ 2 * c.nn.toInt ≥ c.n.toInt
  · simp only [hc, if_true, true_iff]
    split_ifs with h
    · rw [abs_neg, abs_of_nonneg (by omega)]
      omega
    · rw [abs_of_nonneg (by omega)]
      omega
  · simp only [hc, if_false, false_iff]
    split_ifs with h
    · rw [abs_neg, abs_of_nonneg (by omega)]
      omega
    · rw [abs_of_nonneg (by omega)]
      omega

/-- Mapping what was unmapped gives the mapped value back (R179). -/
theorem RunCtx.mappedErr_unmap (c : RunCtx) (t : Fin Config.nri) (em k : Nat) :
    c.mappedErr t (c.unmap t em k) k = em := by
  obtain ⟨h1, h2, h3⟩ := c.unmap_spec t em k
  unfold RunCtx.mappedErr
  rw [c.map_eq]
  rcases lt_trichotomy (c.unmap t em k) 0 with h | h | h
  · have := h2 h
    rw [if_neg (by omega)]
    split_ifs <;> omega
  · rw [h] at h1 ⊢
    simp only [abs_zero, if_true] at h1 ⊢
    omega
  · have := h3 h
    rw [if_neg (by omega)]
    split_ifs <;> omega

/-- A mapped value is a natural number, but for e = 0 in context 1 (R175). -/
theorem RunCtx.mappedErr_nonneg (c : RunCtx) {t : Fin Config.nri} {e : Int} (k : Nat) (h : t = 1 → e ≠ 0) :
    0 ≤ c.mappedErr t e k := by
  unfold RunCtx.mappedErr
  rw [c.map_eq]
  have ht := t.isLt
  have hab := abs_nonneg e
  by_cases he : e = 0
  · have : t.val ≠ 1 := fun h' => h (Fin.ext h') he
    rw [if_pos he, he, abs_zero]
    simp only [Config.nri] at ht
    omega
  · have : 1 ≤ |e| := Int.one_le_abs he
    simp only [Config.nri] at ht
    split_ifs <;> omega

theorem RunCtx.mappedErr_le (c : RunCtx) {t : Fin Config.nri} {e : Int} (k : Nat) (h : -32768 ≤ e) (h' : e ≤ 32767) :
    c.mappedErr t e k ≤ 65536 := by
  have : |e| ≤ 32768 := abs_le.mpr ⟨h, by omega⟩
  unfold RunCtx.mappedErr
  omega

/-- Unmapping what was mapped gives the residual back (R179). -/
theorem RunCtx.unmap_mappedErr (c : RunCtx) {t : Fin Config.nri} {e : Int} {em : Nat} (k : Nat)
    (h : c.mappedErr t e k = em) (h0 : t = 1 → e ≠ 0) : c.unmap t em k = e := by
  obtain ⟨h1, h2, h3⟩ := c.unmap_spec t em k
  unfold RunCtx.mappedErr at h
  rw [c.map_eq] at h
  have ht := t.isLt
  by_cases he : e = 0
  · have : t.val ≠ 1 := fun h' => h0 (Fin.ext h') he
    simp only [Config.nri] at ht
    rw [if_pos he, he, abs_zero] at h
    have hab := abs_nonneg (c.unmap t em k)
    have : |c.unmap t em k| = 0 := by omega
    rw [abs_eq_zero.mp this, he]
  · rw [if_neg he] at h
    have hab : 1 ≤ |e| := Int.one_le_abs he
    simp only [Config.nri] at ht
    rcases lt_trichotomy e 0 with hn | hn | hn
    · rw [abs_of_neg hn] at h hab
      rcases lt_trichotomy (c.unmap t em k) 0 with hu | hu | hu
      · rw [abs_of_neg hu] at h1
        split_ifs at h <;> omega
      · rw [hu, abs_zero] at h1
        split_ifs at h <;> omega
      · have := h3 hu
        rw [abs_of_pos hu] at h1
        split_ifs at h <;> omega
    · exact absurd hn he
    · rw [abs_of_pos hn] at h hab
      rcases lt_trichotomy (c.unmap t em k) 0 with hu | hu | hu
      · have := h2 hu
        rw [abs_of_neg hu] at h1
        split_ifs at h <;> omega
      · rw [hu, abs_zero] at h1
        split_ifs at h <;> omega
      · rw [abs_of_pos hu] at h1
        split_ifs at h <;> omega

theorem RunCtx.unmap_ne_zero (c : RunCtx) (em k : Nat) : c.unmap 1 em k ≠ 0 := by
  intro h
  have h1 := (c.unmap_spec 1 em k).1
  rw [h, abs_zero] at h1
  simp only [Fin.val_one] at h1
  omega

end Sys2Proof.Machine
end

