-- ==== Sys2Proof/Laws/Runs.lean ====
section
/-! SUPPORT. Run lengths: the sums of chunk sizes, and what the loops of `ENC.RUNLEN` and `DEC.RUNLEN` do (R196, R212). -/

namespace Sys2Proof.Machine

@[simp] theorem chunkSum_zero (i : Fin 32) : chunkSum i 0 = 0 := rfl

theorem chunkSum_succ (i : Fin 32) (n : Nat) : chunkSum i (n + 1) = chunkSum i n + chunk (indexInc^[n] i) :=
  Finset.sum_range_succ _ _

theorem chunkSum_succ' (i : Fin 32) (n : Nat) : chunkSum i (n + 1) = chunk i + chunkSum (indexInc i) n := by
  unfold chunkSum
  rw [Finset.sum_range_succ']
  simp only [Function.iterate_succ, Function.comp, Function.iterate_zero, id]
  rw [Nat.add_comm]

theorem chunkSum_lt_succ (i : Fin 32) (n : Nat) : chunkSum i n < chunkSum i (n + 1) := by
  have := chunk_pos (indexInc^[n] i)
  rw [chunkSum_succ]
  omega

theorem le_chunkSum (i : Fin 32) (n : Nat) : n ≤ chunkSum i n := by
  induction n with
  | zero => simp
  | succ n ih => have := chunkSum_lt_succ i n; omega

/-- Every length is some full chunks and a rest smaller than the next. -/
theorem exists_chunks (i : Fin 32) (r : Nat) : ∃ n, chunkSum i n ≤ r ∧ r < chunkSum i (n + 1) := by
  have h : ∃ n, r < chunkSum i (n + 1) := ⟨r, le_chunkSum i (r + 1)⟩
  refine ⟨Nat.find h, ?_, Nat.find_spec h⟩
  cases hn : Nat.find h with
  | zero => simp
  | succ m =>
    have := Nat.find_min h (m := m) (by omega)
    omega

/-- n ones written one at a time. -/
def Writer.ones (w : Writer) (n : Nat) : Writer := (fun w => w.writeBit true)^[n] w

@[simp] theorem Writer.ones_zero (w : Writer) : w.ones 0 = w := rfl

theorem Writer.ones_succ (w : Writer) (n : Nat) : w.ones (n + 1) = (w.writeBit true).ones n :=
  Function.iterate_succ_apply _ _ _

theorem Writer.ones_add_one (w : Writer) (n : Nat) : w.ones (n + 1) = (w.ones n).writeBit true :=
  Function.iterate_succ_apply' _ _ _

/-- At least one 1 written bit by bit is the ones written at once. -/
theorem Writer.ones_eq_put (w : Writer) (n : Nat) : w.ones (n + 1) = w.put (List.replicate (n + 1) true) := by
  induction n with
  | zero => rfl
  | succ n ih => rw [Writer.ones_add_one, ih, Writer.writeBit, Writer.put_put, ← List.replicate_succ']

/-- Ones followed by any other bits are one write. -/
theorem Writer.ones_put (w : Writer) (n : Nat) (s : Bits) : (w.ones n).put s = w.put (List.replicate n true ++ s) := by
  cases n with
  | zero => rfl
  | succ n => rw [Writer.ones_eq_put, Writer.put_put]

/-- The full chunks of `ENC.RUNLEN` (R196). -/
theorem encodeHits_eq {n fuel : Nat} {s : State} (h : chunkSum s.runIndex n ≤ s.rem)
    (h' : s.rem < chunkSum s.runIndex (n + 1)) (hf : s.rem ≤ fuel) :
    encodeHits fuel s = { s with
      bw := s.bw.ones n, rem := s.rem - chunkSum s.runIndex n, runIndex := indexInc^[n] s.runIndex } := by
  induction n generalizing fuel s with
  | zero =>
    have hc : ¬chunk s.runIndex ≤ s.rem := by
      simpa [chunkSum_succ] using h'
    cases fuel with
    | zero => rfl
    | succ fuel => rw [encodeHits, if_neg hc]; rfl
  | succ n ih =>
    rw [chunkSum_succ'] at h
    rw [chunkSum_succ'] at h'
    have hp := chunk_pos s.runIndex
    have hc : chunk s.runIndex ≤ s.rem := by omega
    cases fuel with
    | zero => omega
    | succ fuel =>
      have he : s.encodeHit = { s with
          bw := s.bw.writeBit true, rem := s.rem - chunk s.runIndex, runIndex := indexInc s.runIndex } := by
        unfold State.encodeHit
        rw [if_pos hc]
      rw [encodeHits, if_pos hc, he, ih]
      · simp only [Writer.ones_succ, Function.iterate_succ, Function.comp, chunkSum_succ', Nat.sub_sub]
      · show chunkSum (indexInc s.runIndex) n ≤ s.rem - chunk s.runIndex
        omega
      · show s.rem - chunk s.runIndex < chunkSum (indexInc s.runIndex) (n + 1)
        omega
      · show s.rem - chunk s.runIndex ≤ fuel
        omega

/-- The bits that end a run after its full chunks (R196). -/
def runTail (eol : Bool) (rem j : Nat) : Bits :=
  if eol then (if rem = 0 then [] else [true]) else false :: bitsOf j rem

/-- The bits of a run of n full chunks and a rest (R196). -/
def runBits (i : Fin 32) (n : Nat) (eol : Bool) (rem : Nat) : Bits :=
  List.replicate n true ++ runTail eol rem (jTable (indexInc^[n] i))

/-- `ENC.RUNLEN` writes the bits of the run in one (R196). -/
theorem State.encodeRunLength_eq {n r : Nat} {s : State} {eol : Bool} (h : chunkSum s.runIndex n ≤ r)
    (h' : r < chunkSum s.runIndex (n + 1)) (he : eol = true → 1 ≤ r) :
    s.encodeRunLength r eol = { s with
      bw := s.bw.put (runBits s.runIndex n eol (r - chunkSum s.runIndex n)),
      rem := r - chunkSum s.runIndex n, runIndex := indexInc^[n] s.runIndex } := by
  have hlt : r - chunkSum s.runIndex n < chunk (indexInc^[n] s.runIndex) := by
    rw [chunkSum_succ] at h'
    omega
  have hh := encodeHits_eq (n := n) (fuel := r) (s := { s with rem := r }) h h' le_rfl
  unfold State.encodeRunLength
  simp only [hh]
  unfold runBits runTail
  cases eol with
  | true =>
    simp only [if_true]
    by_cases h0 : r - chunkSum s.runIndex n = 0
    · have hn : n ≠ 0 := by
        rintro rfl
        have := he rfl
        simp at h0
        omega
      obtain ⟨m, rfl⟩ := Nat.exists_eq_succ_of_ne_zero hn
      simp only [h0, ne_eq, not_true_eq_false, if_false, if_true, List.append_nil, ← Writer.ones_eq_put]
    · simp only [h0, ne_eq, not_false_eq_true, if_true, if_false]
      unfold State.encodeHit
      rw [if_neg (by show ¬chunk (indexInc^[n] s.runIndex) ≤ r - chunkSum s.runIndex n; omega)]
      simp only [Writer.writeBit, Writer.ones_put]
  | false =>
    simp only [Bool.false_eq_true, if_false]
    unfold State.withBw Writer.writeBin
    have hb : bitsOf (jTable (indexInc^[n] s.runIndex) + 1) (r - chunkSum s.runIndex n) =
        false :: bitsOf (jTable (indexInc^[n] s.runIndex)) (r - chunkSum s.runIndex n) := by
      rw [bitsOf, Nat.testBit_lt_two_pow hlt]
    simp only [bitsOf_mod, hb, Writer.ones_put]

/-- One bit pending is read (R125). -/
theorem State.reads_readBit {s : State} {b : Bool} {rest : Bits} (h : s.pending = b :: rest) :
    ∃ r, s.reads readBit = .ok b (s.withBr r) ∧ r.pending s.inp s.size = rest ∧
      (s.br.pos ≤ s.size → r.pos ≤ s.size) := by
  obtain ⟨r, h1, h2, h3⟩ := readBit_of_pending h
  exact ⟨r, State.reads_of_ok h1, h2, h3⟩

theorem State.reads_readBit_nil {s : State} (h : s.pending = []) :
    s.reads readBit = .raised ((s.withBr s.br).raise .unexpectedEndOfStream s.br.pos) ∧ s.size ≤ s.br.pos := by
  obtain ⟨h1, h2⟩ := readBit_of_pending_nil h
  exact ⟨State.reads_of_error h1, h2⟩

theorem State.reads_readBin {s : State} {n : Nat} {v rest : Bits} (h : s.pending = v ++ rest) (hv : v.length = n) :
    ∃ r, (s.reads fun inp size => readBin inp size n) = .ok (valOf v) (s.withBr r) ∧
      r.pending s.inp s.size = rest ∧ (s.br.pos ≤ s.size → r.pos ≤ s.size) := by
  obtain ⟨r, h1, h2, h3⟩ := readBin_of_pending h hv
  exact ⟨r, State.reads_of_ok h1, h2, h3⟩

theorem State.reads_readBin_short {s : State} {n : Nat} (h : s.pending.length < n) :
    ∃ r, (s.reads fun inp size => readBin inp size n) =
      .raised ((s.withBr r).raise .unexpectedEndOfStream r.pos) ∧ (s.br.pos ≤ s.size → r.pos = s.size) := by
  obtain ⟨r, h1, h2⟩ := readBin_of_short h
  exact ⟨r, State.reads_of_error h1, h2⟩

theorem State.reads_readGolomb {s : State} {k limit : Nat} {i : Instr} {rest : Bits}
    (h : decode (.golomb k limit) s.pending = .ok (i, rest)) :
    ∃ r, (s.reads fun inp size => readGolomb inp size k limit) = .ok (golombValue i) (s.withBr r) ∧
      r.pending s.inp s.size = rest ∧ (s.br.pos ≤ s.size → r.pos ≤ s.size) := by
  obtain ⟨r, h1, h2, h3⟩ := readGolomb_of_decode h
  exact ⟨r, State.reads_of_ok h1, h2, h3⟩

theorem State.reads_readGolomb_error {s : State} {k limit : Nat} {e : DecodeError}
    (h : decode (.golomb k limit) s.pending = .error e) :
    ∃ r, (s.reads fun inp size => readGolomb inp size k limit) =
      .raised ((s.withBr r).raise .unexpectedEndOfStream r.pos) ∧ (s.br.pos ≤ s.size → r.pos = s.size) := by
  obtain ⟨r, h1, h2⟩ := readGolomb_of_error h
  exact ⟨r, State.reads_of_error h1, h2⟩

@[simp] theorem State.pending_withBr (s : State) (r : Reader) : (s.withBr r).pending = r.pending s.inp s.size := rfl

theorem State.decodeHit_full {s : State} {rem0 : Nat} (h : s.idx + chunk s.runIndex ≤ rem0) :
    s.decodeHit rem0 = { s with idx := s.idx + chunk s.runIndex, runIndex := indexInc s.runIndex } := by
  unfold State.decodeHit
  rw [if_pos (by omega)]

theorem State.decodeHit_partial {s : State} {rem0 : Nat} (h : s.idx ≤ rem0) (h' : rem0 < s.idx + chunk s.runIndex) :
    s.decodeHit rem0 = { s with idx := rem0 } := by
  unfold State.decodeHit
  rw [if_neg (by omega), show s.idx + min (chunk s.runIndex) (rem0 - s.idx) = rem0 by omega]

/-- A full chunk that does not end the row is one pass of `DEC.RUNLEN` (R212). -/
theorem decodeHits_chunk {rem0 fuel : Nat} {s : State} {rest : Bits} (h : s.pending = true :: rest)
    (hlt : s.idx + chunk s.runIndex < rem0) :
    ∃ r, decodeHits rem0 (fuel + 1) s = decodeHits rem0 fuel { s with
        br := r, idx := s.idx + chunk s.runIndex, runIndex := indexInc s.runIndex } ∧
      r.pending s.inp s.size = rest ∧ (s.br.pos ≤ s.size → r.pos ≤ s.size) := by
  obtain ⟨r, h1, h2, h3⟩ := State.reads_readBit h
  refine ⟨r, ?_, h2, h3⟩
  have hd : (s.withBr r).decodeHit rem0 = { s with
      br := r, idx := s.idx + chunk s.runIndex, runIndex := indexInc s.runIndex } :=
    State.decodeHit_full (s := s.withBr r) (by show s.idx + chunk s.runIndex ≤ rem0; omega)
  rw [decodeHits, h1, Res.bind_ok]
  simp only [if_true]
  rw [hd, if_neg (by show s.idx + chunk s.runIndex ≠ rem0; omega)]

/-- n full chunks that do not end the row are n passes (R212). -/
theorem decodeHits_chunks {rem0 fuel n : Nat} {s : State} {rest : Bits}
    (h : s.pending = List.replicate n true ++ rest) (hlt : s.idx + chunkSum s.runIndex n < rem0) :
    ∃ r, decodeHits rem0 (fuel + n) s = decodeHits rem0 fuel { s with
        br := r, idx := s.idx + chunkSum s.runIndex n, runIndex := indexInc^[n] s.runIndex } ∧
      r.pending s.inp s.size = rest ∧ (s.br.pos ≤ s.size → r.pos ≤ s.size) := by
  induction n generalizing s with
  | zero => exact ⟨s.br, rfl, h, id⟩
  | succ n ih =>
    rw [chunkSum_succ'] at hlt
    obtain ⟨r, h1, h2, h3⟩ := decodeHits_chunk (fuel := fuel + n) (rem0 := rem0) (s := s)
      (rest := List.replicate n true ++ rest) h (by omega)
    obtain ⟨r', h1', h2', h3'⟩ := ih (s := { s with
        br := r, idx := s.idx + chunk s.runIndex, runIndex := indexInc s.runIndex }) h2
      (by show s.idx + chunk s.runIndex + chunkSum (indexInc s.runIndex) n < rem0; omega)
    refine ⟨r', ?_, h2', fun hp => h3' (h3 hp)⟩
    rw [show fuel + (n + 1) = fuel + n + 1 by omega, h1, h1']
    simp only [chunkSum_succ', Function.iterate_succ, Function.comp, Nat.add_assoc]

/-- The `RUNHIT` that reaches the end of the row (R212). -/
theorem decodeHits_last {rem0 fuel : Nat} {s : State} {rest : Bits} (h : s.pending = true :: rest)
    (hlt : s.idx < rem0) (hge : rem0 ≤ s.idx + chunk s.runIndex) :
    ∃ r, decodeHits rem0 (fuel + 1) s = .ok () { s with
        br := r, idx := rem0, r := rem0, eol := true,
        runIndex := if rem0 = s.idx + chunk s.runIndex then indexInc s.runIndex else s.runIndex } ∧
      r.pending s.inp s.size = rest ∧ (s.br.pos ≤ s.size → r.pos ≤ s.size) := by
  obtain ⟨r, h1, h2, h3⟩ := State.reads_readBit h
  refine ⟨r, ?_, h2, h3⟩
  have hd : (s.withBr r).decodeHit rem0 = { s with
      br := r, idx := rem0, runIndex := if rem0 = s.idx + chunk s.runIndex then indexInc s.runIndex else s.runIndex } := by
    by_cases he : rem0 = s.idx + chunk s.runIndex
    · rw [State.decodeHit_full (s := s.withBr r) (by show s.idx + chunk s.runIndex ≤ rem0; omega), if_pos he, he]
      rfl
    · rw [State.decodeHit_partial (s := s.withBr r) (by show s.idx ≤ rem0; omega)
        (by show rem0 < s.idx + chunk s.runIndex; omega), if_neg he]
      rfl
  rw [decodeHits, h1, Res.bind_ok]
  simp only [if_true]
  rw [hd, if_pos rfl]

/-- The `RUNTERM` that interrupts the run, or leaves no room for the interruption sample (R212, R232). -/
theorem decodeHits_term {rem0 fuel : Nat} {s : State} {v rest : Bits} (h : s.pending = false :: (v ++ rest))
    (hv : v.length = jTable s.runIndex) :
    ∃ r, decodeHits rem0 (fuel + 1) s = (if rem0 ≤ s.idx + valOf v then
          .raised (({ s with br := r, idx := s.idx + valOf v } : State).raise .invalidRunLength (s.idx + valOf v))
        else .ok () { s with br := r, idx := s.idx + valOf v, r := s.idx + valOf v, eol := false }) ∧
      r.pending s.inp s.size = rest ∧ (s.br.pos ≤ s.size → r.pos ≤ s.size) := by
  obtain ⟨r, h1, h2, h3⟩ := State.reads_readBit h
  obtain ⟨r', h1', h2', h3'⟩ := State.reads_readBin (s := s.withBr r) (n := jTable s.runIndex) h2 hv
  refine ⟨r', ?_, h2', fun hp => h3' (h3 hp)⟩
  rw [decodeHits, h1, Res.bind_ok]
  simp only [Bool.false_eq_true, if_false, State.runIndex_withBr]
  rw [h1', Res.bind_ok]
  rfl

/-- A run whose next bit, or whose remainder, is missing raises UnexpectedEndOfStream (R212, R236). -/
theorem decodeHits_short {rem0 fuel : Nat} {s : State}
    (h : s.pending = [] ∨ ∃ short, s.pending = false :: short ∧ short.length < jTable s.runIndex) :
    ∃ t r, decodeHits rem0 (fuel + 1) s = .raised (State.raise t .unexpectedEndOfStream r) ∧
      (s.br.pos ≤ s.size → r = s.size) := by
  rcases h with h | ⟨short, h, hl⟩
  · obtain ⟨h1, h2⟩ := State.reads_readBit_nil h
    refine ⟨s.withBr s.br, s.br.pos, ?_, fun hp => le_antisymm hp h2⟩
    rw [decodeHits, h1, Res.bind_raised]
  · obtain ⟨r, h1, h2, h3⟩ := State.reads_readBit h
    obtain ⟨r', h1', h2'⟩ := State.reads_readBin_short (s := s.withBr r) (n := jTable s.runIndex)
      (by rw [State.pending_withBr, h2]; exact hl)
    refine ⟨(s.withBr r).withBr r', r'.pos, ?_, fun hp => h2' (h3 hp)⟩
    rw [decodeHits, h1, Res.bind_ok]
    simp only [Bool.false_eq_true, if_false, State.runIndex_withBr]
    rw [h1', Res.bind_raised]

end Sys2Proof.Machine
end

