-- ==== Sys2Proof/Laws/Steps.lean ====
section
/-! SUPPORT. The pixel operations of the scan driver, each in one: the state they leave, from the values their parts
compute (R194, R195, R198, R213, R214, R215). -/

namespace Sys2Proof.Machine

theorem State.isSample_eq {s : State} (hy : s.y < s.rows) (hx : s.x < s.w) : s.isSample s.y s.x = true := by
  simp [State.isSample, hy, hx]

/-- The corrected prediction of the sample at (Y, X) (R194). -/
def State.prediction (s : State) : Sample :=
  correctPrediction (medPredict s.ra s.rb s.rc) (s.reg.get (contextIndex s.q)).c (signOf s.q)

/-- The residual of the sample at (Y, X) (R194). -/
def State.regError (s : State) : Int := errVal (s.srcAt s.y s.x) s.prediction (signOf s.q)

/-- The mapped value of the sample at (Y, X), with the correction bit (R194, R168). -/
def State.regMapped (s : State) (k : Nat) : Nat := mapErr s.regError ^^^ (s.reg.get (contextIndex s.q)).getCorr k

theorem State.regMapped_le (s : State) (k : Nat) : s.regMapped k ≤ 65535 :=
  xor_le (mapErr_le (errVal_bounds _ _ _).1 (errVal_bounds _ _ _).2) (getCorr_le _ _)

/-- Unmapping a mapped value, the correction taken off, gives the residual (R168). -/
theorem State.unmap_regMapped (s : State) (k : Nat) :
    unmapErr (s.regMapped k ^^^ (s.reg.get (contextIndex s.q)).getCorr k) = s.regError := by
  rw [State.regMapped, Nat.xor_assoc, Nat.xor_self, Nat.xor_zero, unmapErr_mapErr]

/-- `ENC.REGULAR` in one (R194, R201). -/
theorem State.encodeRegular_eq {s : State} {k : Nat} {c : RegCtx} (hy : s.y < s.rows) (hx : s.x < s.w)
    (hk : (s.reg.get (contextIndex s.q)).getK = some k)
    (hu : (s.reg.get (contextIndex s.q)).update s.regError = some c) :
    s.encodeRegular = .ok () { s with
      sign := signOf s.q, ci := contextIndex s.q, k := k, px := s.prediction, e := s.regError, m := s.regMapped k,
      bw := s.bw.put (golombBits k (s.regMapped k) 64), reg := s.reg.set (contextIndex s.q) c,
      cur := writeCell s.cur (lineAddr s.x) (s.srcAt s.y s.x), x := s.x + 1 } := by
  have hw : s.bw.writeGolomb k (s.regMapped k) 64 = s.bw.put (golombBits k (s.regMapped k) 64) :=
    Writer.writeGolomb_put (golombOk_regular (s.regMapped_le k))
  simp only [State.regMapped, State.regError, State.prediction, State.srcAt] at hu hw ⊢
  simp only [State.encodeRegular, State.isSample_eq hy hx, if_true, State.regK, hk, Res.bind_ok, State.updateReg,
    State.srcAt, hu, State.withReg, State.setCur, reconstruct_errVal, show Config.limit = 64 from rfl, hw]

/-- `DEC.REGULAR` in one, where the next bits are a codeword (R213). -/
theorem State.decodeRegular_eq {s : State} {k : Nat} {c : RegCtx} {i : Instr} {rest : Bits} (hy : s.y < s.rows)
    (hx : s.x < s.w) (hk : (s.reg.get (contextIndex s.q)).getK = some k)
    (hd : decode (.golomb k 64) s.pending = .ok (i, rest))
    (hu : (s.reg.get (contextIndex s.q)).update
      (unmapErr (golombValue i ^^^ (s.reg.get (contextIndex s.q)).getCorr k)) = some c) :
    ∃ r : Reader, s.decodeRegular = .ok () { s with
        sign := signOf s.q, ci := contextIndex s.q, k := k, px := s.prediction, m := golombValue i,
        e := unmapErr (golombValue i ^^^ (s.reg.get (contextIndex s.q)).getCorr k),
        br := r, reg := s.reg.set (contextIndex s.q) c,
        cur := writeCell s.cur (lineAddr s.x) (reconstruct s.prediction
          (unmapErr (golombValue i ^^^ (s.reg.get (contextIndex s.q)).getCorr k)) (signOf s.q)),
        out := writeCell s.out (sampleAddr s.y s.x) (reconstruct s.prediction
          (unmapErr (golombValue i ^^^ (s.reg.get (contextIndex s.q)).getCorr k)) (signOf s.q)),
        x := s.x + 1 } ∧
      r.pending s.inp s.size = rest ∧ (s.br.pos ≤ s.size → r.pos ≤ s.size) := by
  obtain ⟨r, h1, h2, h3⟩ := State.reads_readGolomb (s := { s with
    sign := signOf s.q, ci := contextIndex s.q, k := k, px := s.prediction }) hd
  refine ⟨r, ?_, h2, h3⟩
  simp only [State.prediction] at h1 ⊢
  simp only [State.decodeRegular, State.isSample_eq hy hx, if_true, State.regK, hk, Res.bind_ok,
    show Config.limit = 64 from rfl, h1, State.updateReg, State.withBr, hu, State.withReg, State.produce,
    State.setCur, State.setOut]

/-- The context an interruption sample at (Y, X) is coded in (R171, R198). -/
def State.runContext (s : State) : Fin Config.nri := runSelect s.ra (s.prevAt s.x)

/-- The residual of the interruption sample at (Y, X) (R172, R198). -/
def State.runError (s : State) : Int := (runResidual (s.srcAt s.y s.x) s.ra (s.prevAt s.x)).1

/-- The residual is 0 in context 1 only of a sample that did not interrupt the run (R172). -/
theorem State.runError_ne_zero {s : State} (h : ¬(s.srcAt s.y s.x = s.ra ∧ s.prevAt s.x = s.ra)) (ht : s.runContext = 1) :
    s.runError ≠ 0 := by
  refine runResidual_ne_zero ht fun hs => h ⟨hs, ?_⟩
  by_contra hp
  unfold State.runContext at ht
  rw [runSelect_eq, if_neg (Ne.symm hp)] at ht
  cases ht

/-- `ENC.RIPIXEL` in one (R198, R201). -/
theorem State.encodeInterruption_eq {s : State} {k em : Nat} {c : RunCtx} (hy : s.y < s.rows) (hx : s.x < s.w)
    (hk : (s.ri.get s.runContext).getK s.runContext = some k)
    (hm : (s.ri.get s.runContext).mappedErr s.runContext s.runError k = em)
    (hu : ∀ u : State, u.ri = s.ri → u.updateRi s.runContext s.runError em = .ok () (u.withRi s.runContext c)) :
    s.encodeInterruption = .ok () { s with
      rb := s.prevAt s.x, e := s.runError, k := k, m := em,
      bw := s.bw.put (golombBits k em (runLimit s.runIndex)), ri := s.ri.set s.runContext c,
      cur := writeCell s.cur (lineAddr s.x) (s.srcAt s.y s.x), runIndex := indexDec s.runIndex, x := s.x + 1 } := by
  have hle : (em : Int) ≤ 65536 := by
    rw [← hm]
    exact RunCtx.mappedErr_le _ _ (runResidual_bounds _ _ _).1 (runResidual_bounds _ _ _).2
  have hw : s.bw.writeGolomb k em (runLimit s.runIndex) = s.bw.put (golombBits k em (runLimit s.runIndex)) :=
    Writer.writeGolomb_put (golombOk_run _ (by omega))
  simp only [State.runContext, State.runError, State.srcAt] at hm hu hk ⊢
  simp only [State.encodeInterruption, State.isSample_eq hy hx, if_true, State.runK, hk, Res.bind_ok, State.srcAt, hm]
  simp only [State.withBw, hu, Res.bind_ok, State.withRi, State.setCur, runReconstruct_runResidual, Writer.writeMapped_natCast,
    hw]

/-- `ENC.RIPIXEL` in one, run by name on a sample that did not interrupt the run: the codeword is free
(notes/assumptions/16.md). -/
theorem State.encodeInterruption_open {s : State} {k : Nat} {c : RunCtx} (hy : s.y < s.rows) (hx : s.x < s.w)
    (hs : s.srcAt s.y s.x = s.ra) (hp : s.prevAt s.x = s.ra) (hk : (s.ri.get 1).getK 1 = some k)
    (hu : ∀ u : State, u.ri = s.ri → u.updateRi 1 0 (-1) = .ok () (u.withRi 1 c)) :
    s.encodeInterruption = .ok () { s with
      rb := s.ra, e := 0, k := k, m := -1,
      bw := s.bw.put (Config.freeCodeword k (-1) (runLimit s.runIndex)), ri := s.ri.set 1 c,
      cur := writeCell s.cur (lineAddr s.x) s.ra, runIndex := indexDec s.runIndex, x := s.x + 1 } := by
  have ht : runSelect s.ra s.ra = 1 := by rw [runSelect_eq, if_pos rfl]
  have he : (runResidual s.ra s.ra s.ra).1 = 0 := by
    unfold runResidual
    rw [if_pos rfl, sub_self]
    rfl
  have hm : (s.ri.get 1).mappedErr 1 0 k = -1 := by simp [RunCtx.mappedErr, RunCtx.map]
  have hr : runReconstruct s.ra s.ra 0 = s.ra := by
    rw [← he, runReconstruct_runResidual]
  simp only [State.srcAt] at hs
  simp only [State.encodeInterruption, State.isSample_eq hy hx, if_true, State.runK, Res.bind_ok, State.srcAt, hs, hp, ht, hk,
    he, hm, Writer.writeMapped_neg (show (-1 : Int) < 0 by decide), State.withBw]
  simp only [hu, Res.bind_ok, State.withRi, State.setCur, hr]
  rfl

/-- `DEC.RIPIXEL` in one, where the next bits are a codeword (R215). -/
theorem State.decodeInterruption_eq {s : State} {k : Nat} {c : RunCtx} {i : Instr} {rest : Bits} (hy : s.y < s.rows)
    (hx : s.x < s.w) (hk : (s.ri.get s.runContext).getK s.runContext = some k)
    (hd : decode (.golomb k (runLimit s.runIndex)) s.pending = .ok (i, rest))
    (hu : ∀ u : State, u.ri = s.ri → u.updateRi s.runContext
      ((s.ri.get s.runContext).unmap s.runContext (golombValue i) k) (golombValue i) = .ok () (u.withRi s.runContext c)) :
    ∃ r : Reader, s.decodeInterruption = .ok () { s with
        rb := s.prevAt s.x, k := k, m := golombValue i,
        e := (s.ri.get s.runContext).unmap s.runContext (golombValue i) k, br := r, ri := s.ri.set s.runContext c,
        cur := writeCell s.cur (lineAddr s.x) (runReconstruct s.ra (s.prevAt s.x)
          ((s.ri.get s.runContext).unmap s.runContext (golombValue i) k)),
        out := writeCell s.out (sampleAddr s.y s.x) (runReconstruct s.ra (s.prevAt s.x)
          ((s.ri.get s.runContext).unmap s.runContext (golombValue i) k)),
        runIndex := indexDec s.runIndex, x := s.x + 1 } ∧
      r.pending s.inp s.size = rest ∧ (s.br.pos ≤ s.size → r.pos ≤ s.size) := by
  obtain ⟨r, h1, h2, h3⟩ := State.reads_readGolomb (s := { s with rb := s.prevAt s.x, k := k }) hd
  refine ⟨r, ?_, h2, h3⟩
  simp only [State.runContext] at hk hu ⊢
  simp only [State.decodeInterruption, State.isSample_eq hy hx, if_true, State.runK, hk, Res.bind_ok, h1]
  simp only [State.withBr, hu, Res.bind_ok, State.withRi, State.produce, State.setCur, State.setOut]

/-! The run scan (R195). -/

theorem runLength_le (src : Space 16) (y : Nat) (v : Sample) (x n : Nat) : runLength src y v x n ≤ n := by
  induction n generalizing x with
  | zero => exact le_rfl
  | succ n ih =>
    unfold runLength
    split_ifs
    · have := ih (x + 1)
      omega
    · omega

/-- The samples of the run equal v. -/
theorem runLength_eq {src : Space 16} {y : Nat} {v : Sample} {x n i : Nat} (h : i < runLength src y v x n) :
    readCell src (sampleAddr y (x + i)) = v := by
  induction n generalizing x i with
  | zero => simp [runLength] at h
  | succ n ih =>
    unfold runLength at h
    split_ifs at h with hv
    · cases i with
      | zero => exact hv
      | succ i => rw [show x + (i + 1) = x + 1 + i by omega]; exact ih (by omega)
    · omega

/-- The sample that ends a run before the n-th differs from v. -/
theorem runLength_ne {src : Space 16} {y : Nat} {v : Sample} {x n : Nat} (h : runLength src y v x n < n) :
    readCell src (sampleAddr y (x + runLength src y v x n)) ≠ v := by
  induction n generalizing x with
  | zero => omega
  | succ n ih =>
    unfold runLength at h ⊢
    split_ifs at h ⊢ with hv
    · rw [show ∀ m, x + (m + 1) = x + 1 + m by intro m; omega]
      exact ih (by omega)
    · exact hv

/-- The run length is the one length with these two properties. -/
theorem runLength_unique {src : Space 16} {y : Nat} {v : Sample} {x n r : Nat} (hr : r ≤ n)
    (h : ∀ i < r, readCell src (sampleAddr y (x + i)) = v)
    (h' : r < n → readCell src (sampleAddr y (x + r)) ≠ v) : runLength src y v x n = r := by
  have h1 := runLength_le src y v x n
  rcases lt_trichotomy (runLength src y v x n) r with hlt | heq | hgt
  · exact absurd (h _ hlt) (runLength_ne (by omega))
  · exact heq
  · exact absurd (runLength_eq hgt) (h' (by omega))

/-- The length of the run that starts at (Y, X) (R195). -/
def State.runLen (s : State) : Nat := runLength s.src s.y s.ra s.x (s.w - s.x)

theorem State.runLen_le (s : State) : s.runLen ≤ s.w - s.x := runLength_le _ _ _ _ _

/-- The state in which the run at (Y, X) has been coded, n full chunks of it (R195, R196). -/
def State.afterRun (s : State) (n : Nat) : State :=
  { s with
    r := s.runLen, eol := decide (s.runLen = s.w - s.x), cur := (s.fillCur s.x s.ra s.runLen).cur,
    bw := s.bw.put (runBits s.runIndex n (decide (s.runLen = s.w - s.x)) (s.runLen - chunkSum s.runIndex n)),
    rem := s.runLen - chunkSum s.runIndex n, runIndex := indexInc^[n] s.runIndex, x := s.x + s.runLen }

/-- `ENC.RUN` up to the interruption sample (R195). -/
theorem State.encodeRun_eq {s : State} {n : Nat} (hy : s.y < s.rows) (hx : s.x < s.w)
    (h : chunkSum s.runIndex n ≤ s.runLen) (h' : s.runLen < chunkSum s.runIndex (n + 1)) :
    s.encodeRun = if s.runLen = s.w - s.x then .ok () { s.afterRun n with mode := .regular }
      else (s.afterRun n).encodeInterruption.bind fun _ s => .ok () { s with mode := .regular } := by
  have hf : ∀ (r : Nat) (eol : Bool), State.fillCur { s with r := r, eol := eol } s.x s.ra s.runLen =
      { s with r := r, eol := eol, cur := (s.fillCur s.x s.ra s.runLen).cur } := by
    intro r eol
    induction s.runLen with
    | zero => rfl
    | succ m ih => rw [State.fillCur, ih]; rfl
  unfold State.encodeRun
  simp only []
  rw [if_pos (Or.inr hy)]
  rw [show runLength s.src s.y s.ra s.x (s.w - s.x) = s.runLen from rfl, hf]
  rw [State.encodeRunLength_eq (n := n) (r := s.runLen) (s := { s with
    r := s.runLen, eol := decide (s.runLen = s.w - s.x), cur := (s.fillCur s.x s.ra s.runLen).cur }) h h'
    (fun he => by have := of_decide_eq_true he; omega)]
  by_cases he : s.runLen = s.w - s.x
  · simp only [he, decide_true, if_true, State.afterRun]
  · simp only [he, decide_false, Bool.false_eq_true, if_false, State.afterRun]

/-- `DEC.RUNLEN` where the next bits are those `ENC.RUNLEN` writes for a run of r samples (R212, R217). -/
theorem State.decodeRunLength_eq {s : State} {n rem0 r : Nat} {rest : Bits} (h : chunkSum s.runIndex n ≤ r)
    (h' : r < chunkSum s.runIndex (n + 1)) (hr : r ≤ rem0) (h1 : 1 ≤ rem0)
    (hp : s.pending = runBits s.runIndex n (decide (r = rem0)) (r - chunkSum s.runIndex n) ++ rest) :
    ∃ b : Reader, s.decodeRunLength rem0 = .ok () { s with
        br := b, idx := r, r := r, eol := decide (r = rem0), runIndex := indexInc^[n] s.runIndex } ∧
      b.pending s.inp s.size = rest ∧ (s.br.pos ≤ s.size → b.pos ≤ s.size) := by
  have hchunks : ∀ (m : Nat) (rest : Bits), s.pending = List.replicate m true ++ rest → chunkSum s.runIndex m < rem0 →
      ∃ (f : Nat) (b : Reader), s.decodeRunLength rem0 = decodeHits rem0 (f + 1) { s with
          br := b, idx := chunkSum s.runIndex m, runIndex := indexInc^[m] s.runIndex } ∧
        b.pending s.inp s.size = rest ∧ (s.br.pos ≤ s.size → b.pos ≤ s.size) := by
    intro m rest hp hlt
    have hm := le_chunkSum s.runIndex m
    obtain ⟨b, e1, e2, e3⟩ := decodeHits_chunks (rem0 := rem0) (fuel := rem0 - m + 1) (n := m)
      (s := { s with idx := 0 }) (rest := rest) hp (by simpa using hlt)
    refine ⟨rem0 - m, b, ?_, e2, e3⟩
    rw [State.decodeRunLength, show rem0 + 1 = rem0 - m + 1 + m by omega, e1]
    simp only [Nat.zero_add]
  simp only [runBits, runTail, List.append_assoc] at hp
  rw [chunkSum_succ] at h'
  by_cases he : r = rem0
  · subst he
    by_cases h0 : r - chunkSum s.runIndex n = 0
    · have hn : n ≠ 0 := by
        rintro rfl
        simp at h0
        omega
      obtain ⟨m, rfl⟩ := Nat.exists_eq_add_one_of_ne_zero hn
      have hlt := chunkSum_lt_succ s.runIndex m
      simp only [decide_true, if_true, if_pos h0, List.nil_append, List.replicate_succ', List.append_assoc] at hp
      obtain ⟨f, b, e1, e2, e3⟩ := hchunks m _ hp (by omega)
      have hlast : r = chunkSum s.runIndex m + chunk (indexInc^[m] s.runIndex) := by
        rw [← chunkSum_succ]
        omega
      obtain ⟨b', f1, f2, f3⟩ := decodeHits_last (rem0 := r) (fuel := f) (s := { s with
        br := b, idx := chunkSum s.runIndex m, runIndex := indexInc^[m] s.runIndex }) (rest := rest) e2
        (by show chunkSum s.runIndex m < r; omega) (by show r ≤ _; exact hlast.le)
      refine ⟨b', ?_, f2, fun hpos => f3 (e3 hpos)⟩
      rw [e1, f1, if_pos hlast]
      simp only [decide_true, Function.iterate_succ_apply']
    · simp only [decide_true, if_true, if_neg h0] at hp
      obtain ⟨f, b, e1, e2, e3⟩ := hchunks n _ hp (by omega)
      obtain ⟨b', f1, f2, f3⟩ := decodeHits_last (rem0 := r) (fuel := f) (s := { s with
        br := b, idx := chunkSum s.runIndex n, runIndex := indexInc^[n] s.runIndex }) (rest := rest) e2
        (by show chunkSum s.runIndex n < r; omega)
        (by show r ≤ chunkSum s.runIndex n + chunk (indexInc^[n] s.runIndex); omega)
      refine ⟨b', ?_, f2, fun hpos => f3 (e3 hpos)⟩
      rw [e1, f1, if_neg (by show ¬r = chunkSum s.runIndex n + chunk (indexInc^[n] s.runIndex); omega)]
      simp only [decide_true]
  · simp only [he, decide_false, Bool.false_eq_true, if_false, List.cons_append] at hp
    obtain ⟨f, b, e1, e2, e3⟩ := hchunks n _ hp (by omega)
    obtain ⟨b', f1, f2, f3⟩ := decodeHits_term (rem0 := rem0) (fuel := f) (s := { s with
      br := b, idx := chunkSum s.runIndex n, runIndex := indexInc^[n] s.runIndex }) e2 (bitsOf_length _ _)
    refine ⟨b', ?_, f2, fun hpos => f3 (e3 hpos)⟩
    have hv : chunkSum s.runIndex n +
        valOf (bitsOf (jTable (indexInc^[n] s.runIndex)) (r - chunkSum s.runIndex n)) = r := by
      rw [valOf_bitsOf, Nat.mod_eq_of_lt (by simp only [chunk] at h'; omega)]
      omega
    rw [e1, f1]
    simp only [hv, he, decide_false]
    rw [if_neg (by omega)]

/-- What filling CUR writes depends on CUR alone. -/
theorem State.fillCur_congr {s t : State} (h : t.cur = s.cur) (x : Nat) (v : Sample) (n : Nat) :
    (t.fillCur x v n).cur = (s.fillCur x v n).cur := by
  induction n with
  | zero => exact h
  | succ n ih => simp only [State.fillCur, State.setCur, ih]

/-- What filling OUT writes depends on OUT alone. -/
theorem State.fillOut_congr {s t : State} (h : t.out = s.out) (y x : Nat) (v : Sample) (n : Nat) :
    (t.fillOut y x v n).out = (s.fillOut y x v n).out := by
  induction n with
  | zero => exact h
  | succ n ih => simp only [State.fillOut, State.setOut, ih]

/-- The state in which a run of r samples has been decoded and put out (R214), the reader at b, n full chunks read. -/
def State.afterDecodedRun (s : State) (b : Reader) (n r : Nat) : State :=
  { s with
    br := b, idx := r, r := r, eol := decide (r = s.w - s.x), runIndex := indexInc^[n] s.runIndex,
    cur := (s.fillCur s.x s.ra r).cur, out := (s.fillOut s.y s.x s.ra r).out, x := s.x + r }

/-- `DEC.RUN` where the next bits are those `ENC.RUNLEN` writes for a run of r samples (R214, R217). -/
theorem State.decodeRun_eq {s : State} {n r : Nat} {rest : Bits} (hy : s.y < s.rows) (hx : s.x < s.w)
    (h : chunkSum s.runIndex n ≤ r) (h' : r < chunkSum s.runIndex (n + 1)) (hr : r ≤ s.w - s.x)
    (hp : s.pending = runBits s.runIndex n (decide (r = s.w - s.x)) (r - chunkSum s.runIndex n) ++ rest) :
    ∃ b : Reader, s.decodeRun = (if r = s.w - s.x then .ok () { s.afterDecodedRun b n r with mode := .regular }
        else (s.afterDecodedRun b n r).decodeInterruption.bind fun _ s => .ok () { s with mode := .regular }) ∧
      b.pending s.inp s.size = rest ∧ (s.br.pos ≤ s.size → b.pos ≤ s.size) := by
  obtain ⟨b, e1, e2, e3⟩ := State.decodeRunLength_eq h h' hr (by omega) hp
  refine ⟨b, ?_, e2, e3⟩
  rw [State.decodeRun, e1, Res.bind_ok]
  simp only []
  have hc : ∀ t : State, t.cur = s.cur → t.out = s.out →
      (t.fillCur s.x s.ra r).fillOut s.y s.x s.ra r =
        { t with cur := (s.fillCur s.x s.ra r).cur, out := (s.fillOut s.y s.x s.ra r).out } := by
    intro t h1 h2
    have h3 : (t.fillCur s.x s.ra r).out = s.out := by rw [State.fillCur_eq]; exact h2
    rw [State.fillOut_eq, State.fillOut_congr h3, State.fillCur_eq, State.fillCur_congr h1]
  rw [if_pos (Or.inr hy), hc]
  · by_cases he : r = s.w - s.x
    · simp only [State.afterDecodedRun, he, decide_true, if_true]
    · simp only [State.afterDecodedRun, he, decide_false, Bool.false_eq_true, if_false]
  · rfl
  · rfl

end Sys2Proof.Machine
end

