-- ==== Sys2Proof/Laws/Encode.lean ====
section
/-! SUPPORT. The encoder's pixel operations in a state whose invariants hold: they finish, and what they code (R194, R195,
R198, R201, R230). -/

namespace Sys2Proof.Machine

theorem Writer.wrote_put {w : Writer} (h : w.flagOk = true) (s : Bits) : w.Wrote s (w.put s) :=
  ⟨Writer.stream_put h s, Writer.drained_put w s, Writer.flagOk_put h s, Writer.sink_prefix_put w s,
    fun hm => Writer.markerFree_put h hm s⟩

/-- What coding or decoding a pixel leaves alone: the parameters, the row, the row above, what the scan is given, and
whether and why it goes on. -/
def State.SameScan (s t : State) : Prop :=
  t.dir = s.dir ∧ t.width = s.width ∧ t.rows = s.rows ∧ t.size = s.size ∧ t.status = s.status ∧ t.y = s.y ∧
    t.prev = s.prev ∧ t.inp = s.inp ∧ t.src = s.src ∧ t.rowOpen = s.rowOpen ∧ t.issued = s.issued

theorem State.SameScan.trans {s t u : State} (h : s.SameScan t) (h' : t.SameScan u) : s.SameScan u := by
  obtain ⟨a1, a2, a3, a4, a5, a6, a7, a8, a9, a10, a11⟩ := h
  obtain ⟨b1, b2, b3, b4, b5, b6, b7, b8, b9, b10, b11⟩ := h'
  exact ⟨b1.trans a1, b2.trans a2, b3.trans a3, b4.trans a4, b5.trans a5, b6.trans a6, b7.trans a7, b8.trans a8,
    b9.trans a9, b10.trans a10, b11.trans a11⟩

theorem State.SameScan.w_eq {s t : State} (h : s.SameScan t) : t.w = s.w := congrArg BitVec.toNat h.2.1

/-- The columns from X to the new X have been coded as the bits given: they hold their source samples, the columns
before them are unchanged, and the invariants still hold (R201). -/
def State.Coded (s t : State) (bits : Bits) : Prop :=
  s.SameScan t ∧ t.br = s.br ∧ t.out = s.out ∧ s.x < t.x ∧ t.x ≤ s.w ∧ bits ≠ [] ∧ t.bw = s.bw.put bits ∧
    (∀ x : Nat, s.x ≤ x → x < t.x → t.curAt x = s.srcAt s.y x) ∧
    (∀ x : Int, -1 ≤ x → x < s.x → t.curAt x = s.curAt x) ∧ t.Inv ∧ t.Bounded

theorem State.Inv.put {s : State} (h : s.Inv) (bits : Bits) :
    (s.bw.put bits).flagOk = true ∧ (s.bw.put bits).wq.length ≤ 7 :=
  ⟨Writer.flagOk_put h.2.2.2.1 bits, Writer.wq_length_le_of_drained (Writer.drained_put _ _)⟩

/-- `ENC.REGULAR` finishes (R194, R201). -/
theorem State.encodeRegular_coded {s : State} (hI : s.Inv) (hB : s.Bounded) (hy : s.y < s.rows) (hx : s.x < s.w) :
    ∃ (k : Nat) (c : RegCtx) (t : State), (s.reg.get (contextIndex s.q)).getK = some k ∧
      (s.reg.get (contextIndex s.q)).update s.regError = some c ∧ s.encodeRegular = .ok () t ∧
      s.Coded t (golombBits k (s.regMapped k) 64) ∧ t.mode = s.mode ∧ t.runIndex = s.runIndex ∧ t.x = s.x + 1 ∧
      t.reg = s.reg.set (contextIndex s.q) c ∧ t.ri = s.ri := by
  obtain ⟨k, hk⟩ := RegCtx.getK_isSome (hI.1 (contextIndex s.q))
  obtain ⟨c, hc, hci, hcb⟩ := RegCtx.update_bounded (hI.1 (contextIndex s.q)) (hB.1 (contextIndex s.q))
    (e := s.regError) (abs_errVal_le _ _ _)
  refine ⟨k, c, _, hk, hc, State.encodeRegular_eq hy hx hk hc, ?_, rfl, rfl, rfl, rfl, rfl⟩
  have hcur : ∀ x : Int, -1 ≤ x →
      readCell (writeCell s.cur (lineAddr s.x) (s.srcAt s.y s.x)) (lineAddr x) =
        if x = s.x then s.srcAt s.y s.x else s.curAt x :=
    fun x hx => State.curAt_setCur hI.2.2.1 (by omega) hx _
  refine ⟨⟨rfl, rfl, rfl, rfl, rfl, rfl, rfl, rfl, rfl, rfl, rfl⟩, rfl, rfl, Nat.lt_succ_self _, hx,
    golombBits_ne_nil _ _ _, rfl, fun x h1 h2 => ?_, fun x h1 h2 => ?_, ⟨?_, hI.2.1, ?_, hI.put _⟩, ⟨?_, hB.2⟩⟩
  · obtain rfl : x = s.x := by show x = s.x; simp only at h2; omega
    exact (hcur _ (by omega)).trans (if_pos rfl)
  · exact (hcur _ h1).trans (if_neg (by omega))
  · exact fun j => forall_get_set (P := fun _ (c : RegCtx) => c.Inv) hI.1 hci j
  · exact Memory.wf_setCur (s := s) hI.2.2.1 _ _
  · exact fun j => forall_get_set (P := fun _ (c : RegCtx) => c.Bounded) hB.1 hcb j

/-- `ENC.RIPIXEL` of a sample that has a codeword finishes (R198, R201). -/
theorem State.encodeInterruption_coded {s : State} (hI : s.Inv) (hB : s.Bounded) (hy : s.y < s.rows) (hx : s.x < s.w)
    (hne : ¬(s.srcAt s.y s.x = s.ra ∧ s.prevAt s.x = s.ra)) :
    ∃ (k em : Nat) (c : RunCtx) (t : State), (s.ri.get s.runContext).getK s.runContext = some k ∧
      (s.ri.get s.runContext).mappedErr s.runContext s.runError k = em ∧ em ≤ 65536 ∧
      (∀ u : State, u.ri = s.ri → u.updateRi s.runContext s.runError em = .ok () (u.withRi s.runContext c)) ∧
      s.encodeInterruption = .ok () t ∧ s.Coded t (golombBits k em (runLimit s.runIndex)) ∧ t.mode = s.mode ∧
      t.runIndex = indexDec s.runIndex ∧ t.x = s.x + 1 ∧ t.reg = s.reg ∧ t.ri = s.ri.set s.runContext c := by
  obtain ⟨k, hk⟩ := RunCtx.getK_isSome (hI.2.1 s.runContext)
  have h0 : s.runContext = 1 → s.runError ≠ 0 := State.runError_ne_zero hne
  obtain ⟨em, hm⟩ := Int.eq_ofNat_of_zero_le (RunCtx.mappedErr_nonneg (s.ri.get s.runContext) k h0)
  have hle : em ≤ 65536 := by
    have := RunCtx.mappedErr_le (s.ri.get s.runContext) (t := s.runContext) k
      (runResidual_bounds (s.srcAt s.y s.x) s.ra (s.prevAt s.x)).1
      (runResidual_bounds (s.srcAt s.y s.x) s.ra (s.prevAt s.x)).2
    rw [show (runResidual (s.srcAt s.y s.x) s.ra (s.prevAt s.x)).1 = s.runError from rfl, hm] at this
    omega
  obtain ⟨c, hu, hci, hcb⟩ := State.updateRi_bounded s.runContext (hI.2.1 s.runContext) (hB.2 s.runContext)
    s.runError hle
  refine ⟨k, em, c, _, hk, hm, hle, hu, State.encodeInterruption_eq hy hx hk hm hu, ?_, rfl, rfl, rfl, rfl, rfl⟩
  have hcur : ∀ x : Int, -1 ≤ x →
      readCell (writeCell s.cur (lineAddr s.x) (s.srcAt s.y s.x)) (lineAddr x) =
        if x = s.x then s.srcAt s.y s.x else s.curAt x :=
    fun x hx => State.curAt_setCur hI.2.2.1 (by omega) hx _
  refine ⟨⟨rfl, rfl, rfl, rfl, rfl, rfl, rfl, rfl, rfl, rfl, rfl⟩, rfl, rfl, Nat.lt_succ_self _, hx,
    golombBits_ne_nil _ _ _, rfl, fun x h1 h2 => ?_, fun x h1 h2 => ?_, ⟨hI.1, ?_, ?_, hI.put _⟩, ⟨hB.1, ?_⟩⟩
  · obtain rfl : x = s.x := by show x = s.x; simp only at h2; omega
    exact (hcur _ (by omega)).trans (if_pos rfl)
  · exact (hcur _ h1).trans (if_neg (by omega))
  · exact fun j => forall_get_set (P := fun t (c : RunCtx) => c.Inv t) hI.2.1 hci j
  · exact Memory.wf_setCur (s := s) hI.2.2.1 _ _
  · exact fun j => forall_get_set (P := fun _ (c : RunCtx) => c.Bounded) hB.2 hcb j

/-- `ENC.RIPIXEL` by name on a sample that did not interrupt the run finishes, and takes 1 off A before any halving
(R177; notes/assumptions/16.md). -/
theorem State.encodeInterruption_uninterrupted {s : State} (hI : s.Inv) (hy : s.y < s.rows) (hx : s.x < s.w)
    (hs : s.srcAt s.y s.x = s.ra) (hp : s.prevAt s.x = s.ra) :
    ∃ (k : Nat) (c : RunCtx), (s.ri.get 1).getK 1 = some k ∧
      s.encodeInterruption = .ok () { s with
        rb := s.ra, e := 0, k := k, m := -1,
        bw := s.bw.put (Config.freeCodeword k (-1) (runLimit s.runIndex)), ri := s.ri.set 1 c,
        cur := writeCell s.cur (lineAddr s.x) s.ra, runIndex := indexDec s.runIndex, x := s.x + 1 } ∧
      c.n.toInt = (if (s.ri.get 1).n.toInt = 64 then 33 else (s.ri.get 1).n.toInt + 1) ∧
      c.a.toInt = (if (s.ri.get 1).n.toInt = 64 then ((s.ri.get 1).a.toInt - 1) / 2 else (s.ri.get 1).a.toInt - 1) ∧
      c.nn.toInt = (if (s.ri.get 1).n.toInt = 64 then (s.ri.get 1).nn.toInt / 2 else (s.ri.get 1).nn.toInt) ∧
      c.rItype = 1 ∧ c.resetThreshold.toInt = 64 := by
  obtain ⟨k, hk⟩ := RunCtx.getK_isSome (hI.2.1 1)
  have h0 := (hI.2.1 1).2.2.2.2.1
  have h1 := fits32_iff.mp (fits32_toInt (s.ri.get 1).a)
  have hf : fits32 ((s.ri.get 1).a.toInt - 1) = true := fits32_iff.mpr ⟨by omega, by omega⟩
  have hc := RunCtx.accumulate_fields (e := 0) (hI.2.1 1) hf
  simp only [lt_irrefl, if_false, add_zero] at hc
  refine ⟨k, _, hk, State.encodeInterruption_open hy hx hs hp hk fun u hu => ?_, hc⟩
  have ha : ((s.ri.get 1).countNegative 0).a.toInt + asr (-1 + 1 - ((1 : Fin 2).val : Int)) 1 = (s.ri.get 1).a.toInt - 1 := by
    rw [RunCtx.a_countNegative, asr_one]
    rfl
  simp only [State.updateRi, hu, ha]
  rw [if_pos hf]

/-- What is coded piece by piece is coded. -/
theorem State.Coded.trans {s t u : State} {a b : Bits} (h : s.Coded t a) (h' : t.Coded u b) : s.Coded u (a ++ b) := by
  obtain ⟨h1, h2, h3, h4, h5, h6, h7, h8, h9, _, _⟩ := h
  obtain ⟨k1, k2, k3, k4, k5, k6, k7, k8, k9, k10, k11⟩ := h'
  have hsrc : ∀ y x, t.srcAt y x = s.srcAt y x := fun y x => by unfold State.srcAt; rw [h1.2.2.2.2.2.2.2.2.1]
  refine ⟨h1.trans k1, k2.trans h2, k3.trans h3, by omega, by rw [← h1.w_eq]; exact k5, by simp [h6],
    by rw [k7, h7, Writer.put_put], fun x e1 e2 => ?_, fun x e1 e2 => ?_, k10, k11⟩
  · by_cases hlt : x < t.x
    · rw [k9 x (by omega) (by omega), h8 x e1 hlt]
    · rw [k8 x (by omega) e2, hsrc, h1.2.2.2.2.2.1]
  · rw [k9 x e1 (by omega), h9 x e1 e2]

theorem runBits_ne_nil {i : Fin 32} {n r : Nat} {eol : Bool} (h : chunkSum i n ≤ r) (he : eol = true → 1 ≤ r) :
    runBits i n eol (r - chunkSum i n) ≠ [] := by
  unfold runBits runTail
  cases eol with
  | false => simp
  | true =>
    have := he rfl
    by_cases hn : n = 0
    · subst hn
      simp only [chunkSum_zero, Nat.sub_zero]
      simp [show r ≠ 0 by omega]
    · simp [hn]

/-- The run that starts at (Y, X) has been copied and coded: as `State.Coded`, but possibly of no sample (R195). -/
theorem State.afterRun_coded {s : State} (n : Nat) (hI : s.Inv) (hB : s.Bounded) :
    s.SameScan (s.afterRun n) ∧ (∀ x : Nat, s.x ≤ x → x < s.x + s.runLen → (s.afterRun n).curAt x = s.srcAt s.y x) ∧
      (∀ x : Int, -1 ≤ x → x < s.x → (s.afterRun n).curAt x = s.curAt x) ∧ (s.afterRun n).Inv ∧
      (s.afterRun n).Bounded := by
  have hcur : ∀ x : Int, -1 ≤ x → (s.afterRun n).curAt x = (s.fillCur s.x s.ra s.runLen).curAt x := fun _ _ => rfl
  refine ⟨⟨rfl, rfl, rfl, rfl, rfl, rfl, rfl, rfl, rfl, rfl, rfl⟩, fun x h1 h2 => ?_, fun x h1 h2 => ?_,
    ⟨hI.1, hI.2.1, ?_, hI.put _⟩, hB⟩
  · rw [hcur _ (by omega), State.curAt_fillCur hI.2.2.1 _ _ _ (by omega), if_pos (by omega)]
    have := runLength_eq (i := x - s.x) (show x - s.x < runLength s.src s.y s.ra s.x (s.w - s.x) by
      rw [State.runLen] at h2; omega)
    rw [show s.x + (x - s.x) = x by omega] at this
    exact this.symm
  · rw [hcur _ h1, State.curAt_fillCur hI.2.2.1 _ _ _ h1, if_neg (by omega)]
  · have h1 := Memory.wf_fillCur hI.2.2.1 s.x s.ra s.runLen
    rw [State.fillCur_eq] at h1
    exact h1

/-- `ENC.RUN` finishes (R195, R201): at the end of the row, or with the sample that interrupted the run. -/
theorem State.encodeRun_coded {s : State} (hI : s.Inv) (hB : s.Bounded) (hy : s.y < s.rows) (hx : s.x < s.w) :
    ∃ (n : Nat) (t : State) (bits : Bits), chunkSum s.runIndex n ≤ s.runLen ∧
      s.runLen < chunkSum s.runIndex (n + 1) ∧ s.encodeRun = .ok () t ∧ s.Coded t bits ∧ t.mode = .regular ∧
      ((s.runLen = s.w - s.x ∧ bits = runBits s.runIndex n true (s.runLen - chunkSum s.runIndex n) ∧ t.x = s.w ∧
          t.reg = s.reg ∧ t.ri = s.ri ∧ t.runIndex = indexInc^[n] s.runIndex) ∨
        (s.runLen < s.w - s.x ∧ ∃ (k em : Nat) (c : RunCtx),
          (s.ri.get (s.afterRun n).runContext).getK (s.afterRun n).runContext = some k ∧
          (s.ri.get (s.afterRun n).runContext).mappedErr (s.afterRun n).runContext (s.afterRun n).runError k = em ∧
          em ≤ 65536 ∧
          (∀ u : State, u.ri = s.ri → u.updateRi (s.afterRun n).runContext (s.afterRun n).runError em =
            .ok () (u.withRi (s.afterRun n).runContext c)) ∧
          bits = runBits s.runIndex n false (s.runLen - chunkSum s.runIndex n) ++
            golombBits k em (runLimit (indexInc^[n] s.runIndex)) ∧
          t.x = s.x + s.runLen + 1 ∧ t.reg = s.reg ∧ t.ri = s.ri.set (s.afterRun n).runContext c ∧
          t.runIndex = indexDec (indexInc^[n] s.runIndex))) := by
  obtain ⟨n, hn, hn'⟩ := exists_chunks s.runIndex s.runLen
  have hle := s.runLen_le
  obtain ⟨r1, r2, r3, r4, r5⟩ := State.afterRun_coded n hI hB
  rw [State.encodeRun_eq hy hx hn hn']
  by_cases he : s.runLen = s.w - s.x
  · rw [if_pos he]
    refine ⟨n, _, _, hn, hn', rfl, ⟨r1, rfl, rfl, ?_, ?_, ?_, ?_, r2, r3, r4, r5⟩, rfl,
      .inl ⟨he, rfl, ?_, rfl, rfl, rfl⟩⟩
    · show s.x < s.x + s.runLen
      omega
    · show s.x + s.runLen ≤ s.w
      omega
    · exact runBits_ne_nil hn fun _ => by omega
    · show s.bw.put (runBits s.runIndex n (decide (s.runLen = s.w - s.x)) _) = _
      rw [decide_eq_true he]
    · show s.x + s.runLen = s.w
      omega
  · rw [if_neg he]
    have hlt : s.runLen < s.w - s.x := by omega
    obtain ⟨k, em, c, t, i1, i2, i3, i4, i5, i6, i7, i8, i9, i10, i11⟩ := State.encodeInterruption_coded
      (s := s.afterRun n) r4 r5 hy (by show s.x + s.runLen < s.w; omega) fun h' => runLength_ne hlt h'.1
    obtain ⟨j1, j2, j3, j4, j5, j6, j7, j8, j9, j10, j11⟩ := i6
    refine ⟨n, { t with mode := .regular }, runBits s.runIndex n false (s.runLen - chunkSum s.runIndex n) ++
      golombBits k em (runLimit (indexInc^[n] s.runIndex)), hn, hn', by rw [i5]; rfl,
      ⟨r1.trans j1, j2, j3, ?_, j5, by simp [golombBits_ne_nil], ?_, fun x e1 e2 => ?_, fun x e1 e2 => ?_, j10, j11⟩,
      rfl, .inr ⟨hlt, k, em, c, i1, i2, i3, i4, rfl, i9, i10, i11, i8⟩⟩
    · exact lt_of_le_of_lt (Nat.le_add_right s.x s.runLen) j4
    · show t.bw = _
      rw [j7, ← Writer.put_put]
      show (s.bw.put (runBits s.runIndex n (decide (s.runLen = s.w - s.x)) _)).put _ = _
      rw [decide_eq_false he]
      rfl
    · by_cases hlt : x < s.x + s.runLen
      · exact (j9 x (by omega) (by show (x : Int) < (s.x + s.runLen : Nat); omega)).trans (r2 x e1 hlt)
      · exact j8 x (by show s.x + s.runLen ≤ x; omega) e2
    · exact (j9 x e1 (by show x < (s.x + s.runLen : Nat); omega)).trans (r3 x e1 e2)

/-- The state with the neighbours and the context id of the sample at (Y, X) fetched (R192, R193). -/
def State.context (s : State) : State :=
  { s with
    ra := s.curAt ((s.x : Int) - 1), rb := s.prevAt s.x, rc := s.prevAt ((s.x : Int) - 1),
    rd := s.prevAt ((s.x : Int) + 1),
    q := contextId (s.curAt ((s.x : Int) - 1)) (s.prevAt s.x) (s.prevAt ((s.x : Int) - 1)) (s.prevAt ((s.x : Int) + 1)) }

theorem State.fetchContext_eq {s : State} (hx : s.x < s.w) : s.fetchContext = .ok () s.context := by
  unfold State.fetchContext State.fetchNeighbours
  rw [if_pos hx]
  rfl

/-- `ENC.STEP` chooses (R193). -/
theorem State.encodeStep_eq {s : State} (hx : s.x < s.w) :
    s.encodeStep = if s.context.q ≠ 0 then s.context.encodeRegular
      else State.encodeRun { s.context with mode := .run } := by
  rw [State.encodeStep, State.fetchContext_eq hx]
  rfl

/-- `ENC.STEP` finishes (R193, R201). -/
theorem State.encodeStep_coded {s : State} (hI : s.Inv) (hB : s.Bounded) (hy : s.y < s.rows) (hx : s.x < s.w) :
    ∃ (t : State) (bits : Bits), s.encodeStep = .ok () t ∧ s.Coded t bits ∧ (s.mode = .regular → t.mode = .regular) := by
  rw [State.encodeStep_eq hx]
  split_ifs with hq
  · obtain ⟨k, c, t, -, -, h3, h4, h5, -⟩ := State.encodeRegular_coded (s := s.context) hI hB hy hx
    exact ⟨t, _, h3, h4, fun hm => h5.trans hm⟩
  · obtain ⟨n, t, bits, -, -, h3, h4, h5, -⟩ := State.encodeRun_coded (s := { s.context with mode := .run }) hI hB hy hx
    exact ⟨t, bits, h3, h4, fun _ => h5⟩

end Sys2Proof.Machine
end

