-- ==== Sys2Proof/Laws/Decode.lean ====
section
/-! SUPPORT. The decoder's pixel operations beside the encoder's: given the encoder's bits they decode its samples and
leave the same contexts (R202, R217). -/

namespace Sys2Proof.Machine

/-- The columns from X to the new X have been decoded to the samples v: CUR and OUT hold them, the columns before them
and every other sample of OUT are unchanged, and the bits to come are `rest` (R213 to R215). -/
def State.Decoded (d u : State) (v : Nat → Sample) (rest : Bits) : Prop :=
  d.SameScan u ∧ u.bw = d.bw ∧ d.x ≤ u.x ∧ u.x ≤ d.w ∧ Memory.wf u = true ∧ u.pending = rest ∧
    (d.br.pos ≤ d.size → u.br.pos ≤ u.size) ∧ (∀ x : Nat, d.x ≤ x → x < u.x → u.curAt x = v x) ∧
    (∀ x : Int, -1 ≤ x → x < d.x → u.curAt x = d.curAt x) ∧
    (∀ x : Nat, d.x ≤ x → x < u.x → u.outAt d.y x = v x) ∧
    ∀ y x : Nat, x < 65536 → ¬(y = d.y ∧ d.x ≤ x ∧ x < u.x) → u.outAt y x = d.outAt y x

theorem State.Decoded.trans {d u w : State} {v : Nat → Sample} {r r' : Bits} (h : d.Decoded u v r)
    (h' : u.Decoded w v r') : d.Decoded w v r' := by
  obtain ⟨h1, h2, h3, h4, h5, h6, h7, h8, h9, h10, h11⟩ := h
  obtain ⟨k1, k2, k3, k4, k5, k6, k7, k8, k9, k10, k11⟩ := h'
  have hy : u.y = d.y := h1.2.2.2.2.2.1
  have hw := h1.w_eq
  have hb : d.w < 65536 := d.width.isLt
  refine ⟨h1.trans k1, k2.trans h2, by omega, by omega, k5, k6, fun hp => k7 (h7 hp), fun x e1 e2 => ?_,
    fun x e1 e2 => ?_, fun x e1 e2 => ?_, fun y x e1 e2 => ?_⟩
  · by_cases hlt : x < u.x
    · rw [k9 x (by omega) (by omega), h8 x e1 hlt]
    · exact k8 x (by omega) e2
  · rw [k9 x e1 (by omega), h9 x e1 e2]
  · by_cases hlt : x < u.x
    · rw [k11 d.y x (by omega) (by omega), h10 x e1 hlt]
    · rw [← hy]
      exact k10 x (by omega) e2
  · rw [k11 y x e1 (by rw [hy]; omega), h11 y x e1 (by omega)]

/-- Storing one decoded sample. -/
theorem State.decoded_one {d u : State} {rest : Bits} {a b : Sample} (hwf : Memory.wf d = true) (hx : d.x < d.w)
    (h : d.SameScan u) (hbw : u.bw = d.bw) (hux : u.x = d.x + 1) (hp : u.pending = rest)
    (hpos : d.br.pos ≤ d.size → u.br.pos ≤ u.size) (hc : u.cur = writeCell d.cur (lineAddr d.x) a)
    (ho : u.out = writeCell d.out (sampleAddr d.y d.x) a) (hab : a = b) : d.Decoded u (fun _ => b) rest := by
  subst hab
  have hb : d.w < 65536 := d.width.isLt
  have hcur : ∀ x : Int, -1 ≤ x → u.curAt x = if x = d.x then a else d.curAt x := fun x hx => by
    unfold State.curAt
    rw [hc]
    exact State.curAt_setCur hwf (by omega) hx a
  have hout : ∀ y x, x < 65536 → u.outAt y x = if y = d.y ∧ x = d.x then a else d.outAt y x := fun y x hx => by
    unfold State.outAt
    rw [ho]
    exact State.outAt_setOut hwf (by omega) hx a
  have hm : Memory.wf u = true := by
    obtain ⟨w1, w2, w3, w4, w5⟩ := Memory.wf_iff.mp hwf
    refine Memory.wf_iff.mpr ⟨by rw [h.2.2.2.2.2.2.1]; exact w1, by rw [hc]; exact spaceWf_writeCell w2,
      by rw [h.2.2.2.2.2.2.2.1]; exact w3, by rw [h.2.2.2.2.2.2.2.2.1]; exact w4, by rw [ho]; exact spaceWf_writeCell w5⟩
  refine ⟨h, hbw, by omega, by omega, hm, hp, hpos, fun x e1 e2 => ?_, fun x e1 e2 => ?_, fun x e1 e2 => ?_,
    fun y x e1 e2 => ?_⟩
  · rw [hcur x (by omega), if_pos (by omega)]
  · rw [hcur x e1, if_neg (by omega)]
  · rw [hout _ _ (by omega), if_pos ⟨rfl, by omega⟩]
  · rw [hout _ _ e1, if_neg (by omega)]

theorem State.Decoded.congr {d u : State} {v v' : Nat → Sample} {rest : Bits} (h : d.Decoded u v rest)
    (hv : ∀ x, d.x ≤ x → x < u.x → v x = v' x) : d.Decoded u v' rest := by
  obtain ⟨h1, h2, h3, h4, h5, h6, h7, h8, h9, h10, h11⟩ := h
  exact ⟨h1, h2, h3, h4, h5, h6, h7, fun x e1 e2 => (h8 x e1 e2).trans (hv x e1 e2), h9,
    fun x e1 e2 => (h10 x e1 e2).trans (hv x e1 e2), h11⟩

/-- `DEC.REGULAR` on the encoder's bits (R202, R213, R217). -/
theorem State.decodeRegular_decoded {s d : State} {k : Nat} {c : RegCtx} {rest : Bits} (hwf : Memory.wf d = true)
    (hy : d.y < d.rows) (hx : d.x < d.w) (hq : d.q = s.q) (hra : d.ra = s.ra) (hrb : d.rb = s.rb) (hrc : d.rc = s.rc)
    (hreg : d.reg = s.reg) (hk : (s.reg.get (contextIndex s.q)).getK = some k)
    (hu : (s.reg.get (contextIndex s.q)).update s.regError = some c)
    (hp : d.pending = golombBits k (s.regMapped k) 64 ++ rest) :
    ∃ u, d.decodeRegular = .ok () u ∧ d.Decoded u (fun _ => s.srcAt s.y s.x) rest ∧ u.mode = d.mode ∧
      u.runIndex = d.runIndex ∧ u.x = d.x + 1 ∧ u.reg = s.reg.set (contextIndex s.q) c ∧ u.ri = d.ri := by
  obtain ⟨i, hd, hv⟩ := decode_golombBits (k := k) (limit := 64) rest (golombOk_regular (s.regMapped_le k))
  rw [← hp] at hd
  have hun : unmapErr (golombValue i ^^^ (d.reg.get (contextIndex d.q)).getCorr k) = s.regError := by
    rw [hv, hreg, hq]
    exact s.unmap_regMapped k
  have hpred : d.prediction = s.prediction := by
    unfold State.prediction
    rw [hq, hra, hrb, hrc, hreg]
  obtain ⟨r, h1, h2, h3⟩ := State.decodeRegular_eq (c := c) hy hx (by rw [hreg, hq]; exact hk) hd
    (by rw [hun, hreg, hq]; exact hu)
  refine ⟨_, h1, State.decoded_one hwf hx ⟨rfl, rfl, rfl, rfl, rfl, rfl, rfl, rfl, rfl, rfl, rfl⟩ rfl rfl h2 h3 rfl rfl ?_,
    rfl, rfl, rfl, ?_, rfl⟩
  · rw [hun, hpred, hq]
    exact reconstruct_errVal _ _ _
  · simp only [hreg, hq]

/-- `DEC.RIPIXEL` on the encoder's bits (R202, R215, R217). -/
theorem State.decodeInterruption_decoded {s d : State} {k em : Nat} {c : RunCtx} {rest : Bits}
    (hwf : Memory.wf d = true) (hy : d.y < d.rows) (hx : d.x < d.w) (hra : d.ra = s.ra)
    (hrb : d.prevAt d.x = s.prevAt s.x) (hri : d.ri = s.ri) (hrun : d.runIndex = s.runIndex)
    (hne : s.srcAt s.y s.x ≠ s.ra)
    (hk : (s.ri.get s.runContext).getK s.runContext = some k)
    (hm : (s.ri.get s.runContext).mappedErr s.runContext s.runError k = em) (hem : em ≤ 65536)
    (hu : ∀ u : State, u.ri = s.ri → u.updateRi s.runContext s.runError em = .ok () (u.withRi s.runContext c))
    (hp : d.pending = golombBits k em (runLimit s.runIndex) ++ rest) :
    ∃ u, d.decodeInterruption = .ok () u ∧ d.Decoded u (fun _ => s.srcAt s.y s.x) rest ∧ u.mode = d.mode ∧
      u.runIndex = indexDec s.runIndex ∧ u.x = d.x + 1 ∧ u.reg = d.reg ∧ u.ri = s.ri.set s.runContext c := by
  obtain ⟨i, hd, hv⟩ := decode_golombBits (k := k) rest (golombOk_run (k := k) s.runIndex hem)
  rw [← hp, ← hrun] at hd
  have ht : d.runContext = s.runContext := by
    unfold State.runContext
    rw [hra, hrb]
  have hun : (d.ri.get d.runContext).unmap d.runContext (golombValue i) k = s.runError := by
    rw [hv, hri, ht]
    exact RunCtx.unmap_mappedErr _ k hm fun h1 => runResidual_ne_zero h1 hne
  obtain ⟨r, h1, h2, h3⟩ := State.decodeInterruption_eq (c := c) hy hx (by rw [hri, ht]; exact hk) hd
    (fun u hur => by rw [hun, ht, hv]; exact hu u (hur.trans hri))
  refine ⟨_, h1, State.decoded_one hwf hx ⟨rfl, rfl, rfl, rfl, rfl, rfl, rfl, rfl, rfl, rfl, rfl⟩ rfl rfl h2 h3 rfl rfl ?_,
    rfl, ?_, rfl, rfl, ?_⟩
  · rw [hun, hra, hrb]
    exact runReconstruct_runResidual _ _ _
  · show indexDec d.runIndex = _
    rw [hrun]
  · simp only [hri, ht]

/-- `DEC.RUN` on the encoder's bits (R202, R214, R217). -/
theorem State.encodeRun_mirrored {s d : State} (hI : s.Inv) (hB : s.Bounded) (hy : s.y < s.rows) (hx : s.x < s.w)
    (hwf : Memory.wf d = true) (hdw : d.w = s.w) (hdr : d.rows = s.rows) (hdy : d.y = s.y) (hdx : d.x = s.x)
    (hra : d.ra = s.ra) (hprev : ∀ i : Int, -1 ≤ i → i ≤ s.w → d.prevAt i = s.prevAt i) (hri : d.ri = s.ri)
    (hreg : d.reg = s.reg) (hrun : d.runIndex = s.runIndex) :
    ∃ (t : State) (bits : Bits), s.encodeRun = .ok () t ∧ s.Coded t bits ∧ t.mode = .regular ∧
      ∀ rest, d.pending = bits ++ rest → ∃ u, d.decodeRun = .ok () u ∧ d.Decoded u (s.srcAt s.y) rest ∧
        u.mode = .regular ∧ u.runIndex = t.runIndex ∧ u.x = t.x ∧ u.reg = t.reg ∧ u.ri = t.ri := by
  obtain ⟨n, t, bits, h1, h2, h3, h4, h5, h6⟩ := State.encodeRun_coded hI hB hy hx
  refine ⟨t, bits, h3, h4, h5, fun rest hp => ?_⟩
  have hle := s.runLen_le
  have hb : d.w < 65536 := d.width.isLt
  have hrunv : ∀ x : Nat, s.x ≤ x → x < s.x + s.runLen → s.srcAt s.y x = s.ra := by
    intro x e1 e2
    have := runLength_eq (i := x - s.x) (show x - s.x < runLength s.src s.y s.ra s.x (s.w - s.x) by
      rw [State.runLen] at e2; omega)
    rwa [show s.x + (x - s.x) = x by omega] at this
  rw [← hrun] at h1 h2
  have hafter : ∀ (b : Reader) (rest : Bits), b.pending d.inp d.size = rest → (d.br.pos ≤ d.size → b.pos ≤ d.size) →
      d.Decoded (d.afterDecodedRun b n s.runLen) (s.srcAt s.y) rest := by
    intro b rest e1 e2
    refine ⟨⟨rfl, rfl, rfl, rfl, rfl, rfl, rfl, rfl, rfl, rfl, rfl⟩, rfl, Nat.le_add_right _ _, ?_, ?_, e1, e2,
      fun x a1 a2 => ?_, fun x a1 a2 => ?_, fun x a1 a2 => ?_, fun y x a1 a2 => ?_⟩
    · show d.x + s.runLen ≤ d.w
      omega
    · have w1 := Memory.wf_iff.mp (Memory.wf_fillCur hwf d.x d.ra s.runLen)
      have w2 := Memory.wf_iff.mp (Memory.wf_fillOut hwf d.y d.x d.ra s.runLen)
      have w3 := Memory.wf_iff.mp hwf
      exact Memory.wf_iff.mpr ⟨w3.1, w1.2.1, w3.2.2.1, w3.2.2.2.1, w2.2.2.2.2⟩
    · show (d.fillCur d.x d.ra s.runLen).curAt x = _
      have a2 : x < d.x + s.runLen := a2
      rw [State.curAt_fillCur hwf _ _ _ (by omega), if_pos (by omega), hra, hrunv x (by omega) (by omega)]
    · show (d.fillCur d.x d.ra s.runLen).curAt x = _
      rw [State.curAt_fillCur hwf _ _ _ a1, if_neg (by omega)]
    · show (d.fillOut d.y d.x d.ra s.runLen).outAt d.y x = _
      have a2 : x < d.x + s.runLen := a2
      rw [State.outAt_fillOut hwf _ (by omega) (by omega), if_pos ⟨rfl, a1, a2⟩, hra, hrunv x (by omega) (by omega)]
    · show (d.fillOut d.y d.x d.ra s.runLen).outAt y x = _
      have a2 : ¬(y = d.y ∧ d.x ≤ x ∧ x < d.x + s.runLen) := a2
      rw [State.outAt_fillOut hwf _ (by omega) a1, if_neg a2]
  rcases h6 with ⟨he, rfl, k1, k2, k3, k4⟩ | ⟨hlt, k, em, c, i1, i2, i3, i4, rfl, i5, i6, i7, i8⟩
  · obtain ⟨b, e1, e2, e3⟩ := State.decodeRun_eq (s := d) (r := s.runLen) (n := n) (rest := rest) (by omega) (by omega)
      h1 h2 (by omega) (by rw [hp, decide_eq_true (by omega), hrun])
    rw [if_pos (by omega)] at e1
    refine ⟨_, e1, hafter b rest e2 e3, rfl, ?_, ?_, hreg.trans k2.symm, hri.trans k3.symm⟩
    · show indexInc^[n] d.runIndex = _
      rw [hrun, k4]
    · show d.x + s.runLen = _
      omega
  · obtain ⟨b, e1, e2, e3⟩ := State.decodeRun_eq (s := d) (r := s.runLen) (n := n)
      (rest := golombBits k em (runLimit (indexInc^[n] s.runIndex)) ++ rest) (by omega) (by omega) h1 h2 (by omega)
      (by rw [hp, decide_eq_false (by omega), hrun, List.append_assoc])
    rw [if_neg (by omega)] at e1
    have ha := hafter b _ e2 e3
    obtain ⟨u, u1, u2, u3, u4, u5, u6, u7⟩ := State.decodeInterruption_decoded (s := s.afterRun n)
      (d := d.afterDecodedRun b n s.runLen) (c := c) (k := k) (em := em) (rest := rest) ha.2.2.2.2.1
      (by show d.y < d.rows; omega) (by show d.x + s.runLen < d.w; omega) hra
      (by show d.prevAt ((d.x + s.runLen : Nat) : Int) = s.prevAt ((s.x + s.runLen : Nat) : Int)
          rw [hdx]; exact hprev _ (by omega) (by omega))
      hri (by show indexInc^[n] d.runIndex = indexInc^[n] s.runIndex; rw [hrun])
      (runLength_ne hlt) i1 i2 i3 i4 e2
    refine ⟨{ u with mode := .regular }, by rw [e1, u1]; rfl, ?_, rfl, u4.trans i8.symm, ?_, ?_, u7.trans i7.symm⟩
    · refine ha.trans (u2.congr fun x a1 a2 => ?_)
      have a1 : d.x + s.runLen ≤ x := a1
      have a2 : x < d.x + s.runLen + 1 := by rw [u5] at a2; exact a2
      show s.srcAt s.y (s.x + s.runLen) = _
      rw [show x = s.x + s.runLen by omega]
    · show u.x = t.x
      rw [u5, i5]
      show d.x + s.runLen + 1 = _
      omega
    · exact u6.trans (hreg.trans i6.symm)

/-- `DEC.STEP` on the bits the encoder's step writes (R217). -/
theorem State.encodeStep_mirrored {s d : State} (hI : s.Inv) (hB : s.Bounded) (hy : s.y < s.rows) (hx : s.x < s.w)
    (hmode : s.mode = .regular) (hm : d.Mirrors s) (hwf : Memory.wf d = true) :
    ∃ (t : State) (bits : Bits), s.encodeStep = .ok () t ∧ s.Coded t bits ∧ t.mode = .regular ∧
      ∀ rest, d.pending = bits ++ rest → ∃ u, d.decodeStep = .ok () u ∧ d.Decoded u (s.srcAt s.y) rest ∧
        u.mode = .regular ∧ u.Mirrors t := by
  obtain ⟨m1, m2, m3, m4, m5, m6, m7, m8, m9, m10, m11⟩ := hm
  have hw : d.w = s.w := congrArg BitVec.toNat m1
  have c1 : d.curAt ((s.x : Int) - 1) = s.curAt ((s.x : Int) - 1) := m11 _ (by omega) (by omega)
  have c2 : d.prevAt s.x = s.prevAt s.x := m10 _ (by omega) (by omega)
  have c3 : d.prevAt ((s.x : Int) - 1) = s.prevAt ((s.x : Int) - 1) := m10 _ (by omega) (by omega)
  have c4 : d.prevAt ((s.x : Int) + 1) = s.prevAt ((s.x : Int) + 1) := m10 _ (by omega) (by omega)
  have hctx : d.context.q = s.context.q ∧ d.context.ra = s.context.ra ∧ d.context.rb = s.context.rb ∧
      d.context.rc = s.context.rc := by
    simp only [State.context, m4, c1, c2, c3, c4, and_self]
  have fin : ∀ {t u : State} {bits rest : Bits}, s.Coded t bits → t.mode = .regular → d.Decoded u (s.srcAt s.y) rest →
      u.mode = .regular → u.runIndex = t.runIndex → u.x = t.x → u.reg = t.reg → u.ri = t.ri → u.Mirrors t := by
    intro t u bits rest hc h1 hd h2 h3 h4 h5 h6
    obtain ⟨⟨-, a2, a3, -, -, a6, a7, -, -, a10, -⟩, -, -, hc1, -, -, -, hc2, hc3, -⟩ := hc
    obtain ⟨⟨-, b2, b3, -, -, b6, b7, -, -, b10, -⟩, -, -, -, -, -, -, hd1, hd2, -⟩ := hd
    refine ⟨by rw [b2, a2, m1], by rw [b3, a3, m2], by rw [b6, a6, m3], h4, h2.trans h1.symm, by rw [b10, a10, m6], h5, h6,
      h3, fun i e1 e2 => ?_, fun i e1 e2 => ?_⟩
    · unfold State.prevAt
      rw [b7, a7]
      exact m10 i e1 (by unfold State.w at e2; rw [a2] at e2; exact e2)
    · by_cases hlt : i < s.x
      · rw [hd2 i e1 (by omega), hc3 i e1 hlt, m11 i e1 hlt]
      · obtain ⟨x, rfl⟩ := Int.eq_ofNat_of_zero_le (show 0 ≤ i by omega)
        rw [hd1 x (by omega) (by omega), hc2 x (by omega) (by omega)]
  rw [State.encodeStep_eq hx]
  have hds : d.decodeStep = if d.context.q ≠ 0 then d.context.decodeRegular
      else State.decodeRun { d.context with mode := .run } := by
    rw [State.decodeStep, State.fetchContext_eq (by omega)]
    rfl
  rw [hds, hctx.1]
  by_cases hq : s.context.q ≠ 0
  · simp only [if_pos hq]
    obtain ⟨k, c, t, h1, h2, h3, h4, h5, h6, h7, h8, h9⟩ := State.encodeRegular_coded (s := s.context) hI hB hy hx
    refine ⟨t, _, h3, h4, h5.trans hmode, fun rest hp => ?_⟩
    obtain ⟨u, u1, u2, u3, u4, u5, u6, u7⟩ := State.decodeRegular_decoded (s := s.context) (d := d.context) hwf
      (by show d.y < d.rows; omega) (by show d.x < d.w; omega) hctx.1 hctx.2.1 hctx.2.2.1 hctx.2.2.2 m7 h1 h2 hp
    have hdec : d.Decoded u (s.srcAt s.y) rest := State.Decoded.congr (d := d.context) u2 fun x a1 a2 => by
      show s.srcAt s.y s.x = _
      have a1 : d.x ≤ x := a1
      rw [u5] at a2
      have a2 : x < d.x + 1 := a2
      rw [show x = s.x by omega]
    refine ⟨u, u1, hdec, u3.trans (m5.trans hmode), fin h4 (h5.trans hmode) hdec (u3.trans (m5.trans hmode))
      (u4.trans (m9.trans h6.symm)) ?_ (u6.trans h8.symm) (u7.trans (m8.trans h9.symm))⟩
    rw [u5, h7]
    show d.x + 1 = s.x + 1
    rw [m4]
  · simp only [if_neg hq]
    obtain ⟨t, bits, h1, h2, h3, h4⟩ := State.encodeRun_mirrored (s := { s.context with mode := .run })
      (d := { d.context with mode := .run }) hI hB hy hx hwf hw m2 m3 m4 hctx.2.1 m10 m8 m7 m9
    refine ⟨t, bits, h1, h2, h3, fun rest hp => ?_⟩
    obtain ⟨u, u1, u2, u3, u4, u5, u6, u7⟩ := h4 rest hp
    exact ⟨u, u1, u2, u3, fin h2 h3 u2 u3 u4 u5 u6 u7⟩

end Sys2Proof.Machine
end

