-- ==== Sys2Proof/Laws/Invariant.lean ====
section
/-! SUPPORT. What every operation that finishes keeps: the data invariant, from any state that has it. -/

namespace Sys2Proof.Machine

/-- Where the sequence finishes, Q holds. -/
def Res.Gives {α : Type} (r : Res α) (Q : α → State → Prop) : Prop := ∀ a t, r = .ok a t → Q a t

theorem Res.Gives.bind {α β : Type} {r : Res α} {f : α → State → Res β} {Q : α → State → Prop} {Q' : β → State → Prop}
    (h : r.Gives Q) (hf : ∀ a s, Q a s → (f a s).Gives Q') : (r.bind f).Gives Q' := by
  intro b t hb
  obtain ⟨a, s, h1, h2⟩ := Res.bind_eq_ok hb
  exact hf a s (h a s h1) b t h2

theorem Res.gives_ok {α : Type} {a : α} {s : State} {Q : α → State → Prop} (h : Q a s) : (Res.ok a s).Gives Q := by
  rintro _ _ ⟨⟩
  exact h

theorem Res.gives_stop {α : Type} {e : Fault} {Q : α → State → Prop} : (Res.stop e : Res α).Gives Q := by
  rintro _ _ ⟨⟩

theorem Res.gives_raised {α : Type} {s : State} {Q : α → State → Prop} : (Res.raised s : Res α).Gives Q := by
  rintro _ _ ⟨⟩

theorem State.regK_gives (s : State) (i : Fin Config.nctx) : (s.regK i).Gives fun _ t => t = s := by
  unfold State.regK
  split
  · exact Res.gives_ok rfl
  · exact Res.gives_stop

theorem State.runK_gives (s : State) (t : Fin Config.nri) : (s.runK t).Gives fun _ u => u = s := by
  unfold State.runK
  split
  · exact Res.gives_ok rfl
  · exact Res.gives_stop

theorem State.reads_gives {α : Type} (s : State) (f : Space 8 → Nat → Reader → Except Reader (α × Reader)) :
    (s.reads f).Gives fun _ t => ∃ r, t = s.withBr r := by
  rcases s.reads_cases f with ⟨a, r, -, h⟩ | ⟨r, -, h⟩ <;> rw [h]
  · exact Res.gives_ok ⟨r, rfl⟩
  · exact Res.gives_raised

theorem State.updateReg_gives {s : State} (i : Fin Config.nctx) (h : (s.reg.get i).Inv) (e : Int) :
    (s.updateReg i e).Gives fun _ t => ∃ c, t = s.withReg i c ∧ c.Inv := by
  rcases State.updateReg_cases i h e with ⟨c, h1, h2⟩ | h1 <;> rw [h1]
  · exact Res.gives_ok ⟨c, rfl, h2⟩
  · exact Res.gives_raised

theorem State.updateRi_gives {s : State} (t : Fin Config.nri) (h : (s.ri.get t).Inv t) (e : Int) (em : Nat) :
    (s.updateRi t e em).Gives fun _ u => ∃ c, u = s.withRi t c ∧ c.Inv t := by
  rcases State.updateRi_cases t h e em with ⟨c, h1, h2⟩ | ⟨c, h1⟩ <;> rw [h1]
  · exact Res.gives_ok ⟨c, rfl, h2⟩
  · exact Res.gives_raised

theorem State.Inv.withReg {s : State} (h : s.Inv) {i : Fin Config.nctx} {c : RegCtx} (hc : c.Inv) :
    (s.withReg i c).Inv :=
  ⟨(h.ctx.withReg hc).1, h.2⟩

theorem State.Inv.withRi {s : State} (h : s.Inv) {t : Fin Config.nri} {c : RunCtx} (hc : c.Inv t) :
    (s.withRi t c).Inv :=
  ⟨h.1, (h.ctx.withRi hc).2, h.2.2⟩

theorem State.Inv.setCur {s : State} (h : s.Inv) (i : Int) (v : Sample) : (s.setCur i v).Inv :=
  ⟨h.1, h.2.1, Memory.wf_setCur h.2.2.1 i v, h.2.2.2⟩

theorem State.Inv.setOut {s : State} (h : s.Inv) (y x : Nat) (v : Sample) : (s.setOut y x v).Inv :=
  ⟨h.1, h.2.1, Memory.wf_setOut h.2.2.1 y x v, h.2.2.2⟩

theorem State.Inv.fillCur {s : State} (h : s.Inv) (x : Nat) (v : Sample) (n : Nat) : (s.fillCur x v n).Inv := by
  induction n with
  | zero => exact h
  | succ n ih => exact ih.setCur _ _

theorem State.Inv.fillOut {s : State} (h : s.Inv) (y x : Nat) (v : Sample) (n : Nat) : (s.fillOut y x v n).Inv := by
  induction n with
  | zero => exact h
  | succ n ih => exact ih.setOut _ _ _

theorem State.Inv.withPut {s : State} (h : s.Inv) (bits : Bits) : (s.withBw (s.bw.put bits)).Inv :=
  ⟨h.1, h.2.1, h.2.2.1, h.put bits⟩

theorem State.Inv.golomb {s : State} (h : s.Inv) (k m limit : Nat) : (s.withBw (s.bw.writeGolomb k m limit)).Inv := by
  rw [Writer.writeGolomb_eq]
  exact h.withPut _

theorem State.Inv.encodeHit {s : State} (h : s.Inv) : s.encodeHit.Inv := by
  unfold State.encodeHit
  split_ifs <;> exact h.withPut _

theorem State.Inv.encodeHits {s : State} (h : s.Inv) (fuel : Nat) : (encodeHits fuel s).Inv := by
  induction fuel generalizing s with
  | zero => exact h
  | succ n ih =>
    unfold Machine.encodeHits
    split_ifs
    · exact ih h.encodeHit
    · exact h

theorem State.Inv.encodeRunLength {s : State} (h : s.Inv) (r : Nat) (eol : Bool) : (s.encodeRunLength r eol).Inv := by
  have h1 : (Machine.encodeHits r { s with rem := r }).Inv := State.Inv.encodeHits (s := { s with rem := r }) h r
  unfold State.encodeRunLength
  simp only []
  split_ifs
  · exact h1.encodeHit
  · exact h1
  · exact h1.withPut _

/-- `ENC.REGULAR` keeps the invariant. -/
theorem State.encodeRegular_gives {s : State} (h : s.Inv) : s.encodeRegular.Gives fun _ t => t.Inv := by
  unfold State.encodeRegular
  split_ifs
  · refine (State.regK_gives _ _).bind ?_
    rintro k _ rfl
    simp only []
    refine Res.Gives.bind (State.updateReg_gives _ ?_ _) ?_
    · exact h.1 _
    rintro - _ ⟨c, rfl, hc⟩
    exact Res.gives_ok (State.Inv.setCur (State.Inv.withReg (h.golomb _ _ _) hc) _ _)
  · exact Res.gives_stop

/-- `ENC.RIPIXEL` keeps the invariant. -/
theorem State.encodeInterruption_gives {s : State} (h : s.Inv)
    (hi : ¬(s.srcAt s.y s.x = s.ra ∧ s.prevAt s.x = s.ra)) :
    s.encodeInterruption.Gives fun _ t => t.Inv := by
  unfold State.encodeInterruption
  split_ifs
  · refine (State.runK_gives _ _).bind ?_
    rintro k _ rfl
    obtain ⟨em, hem⟩ := Int.eq_ofNat_of_zero_le (RunCtx.mappedErr_nonneg (s.ri.get s.runContext) k (State.runError_ne_zero hi))
    have h1 : State.Inv { s with bw := s.bw.writeGolomb k em (runLimit s.runIndex) } := h.golomb _ _ _
    simp only [State.runContext, State.runError, State.srcAt] at hem
    simp only [State.withBw, State.srcAt, hem, Writer.writeMapped_natCast]
    refine Res.Gives.bind (State.updateRi_gives _ ?_ _ _) ?_
    · exact h.2.1 _
    rintro - _ ⟨c, rfl, hc⟩
    exact Res.gives_ok (State.Inv.setCur (State.Inv.withRi (s := { s with bw := _ }) h1 hc) _ _)
  · exact Res.gives_stop

/-- `ENC.RUN` keeps the invariant: the sample after the run differs from Ra. -/
theorem State.encodeRun_gives {s : State} (h : s.Inv) : s.encodeRun.Gives fun _ t => t.Inv := by
  by_cases hx : s.x < s.w
  · by_cases hy : s.y < s.rows
    · obtain ⟨n, h1, h2⟩ := exists_chunks s.runIndex s.runLen
      have hf := (h.fillCur s.x s.ra s.runLen).2.2.1
      rw [State.fillCur_eq] at hf
      have hr : (s.afterRun n).Inv := ⟨h.1, h.2.1, hf, h.put _⟩
      rw [State.encodeRun_eq hy hx h1 h2]
      split_ifs with he
      · exact Res.gives_ok (s := { s.afterRun n with mode := .regular }) hr
      · have hne : (s.afterRun n).srcAt (s.afterRun n).y (s.afterRun n).x ≠ (s.afterRun n).ra :=
          runLength_ne (lt_of_le_of_ne s.runLen_le he)
        exact (State.encodeInterruption_gives hr fun h' => hne h'.1).bind
          fun _ u hu => Res.gives_ok (s := { u with mode := .regular }) hu
    · unfold State.encodeRun
      simp only []
      rw [if_neg (by omega)]
      exact Res.gives_stop
  · have h0 : s.w - s.x = 0 := by omega
    unfold State.encodeRun
    rw [h0]
    exact Res.gives_ok h

theorem State.fetchNeighbours_gives {s : State} (h : s.Inv) : s.fetchNeighbours.Gives fun _ t => t.Inv := by
  unfold State.fetchNeighbours
  split_ifs
  · exact Res.gives_ok h
  · exact Res.gives_stop

theorem State.fetchContext_gives {s : State} (h : s.Inv) : s.fetchContext.Gives fun _ t => t.Inv :=
  (State.fetchNeighbours_gives h).bind fun _ _ ht => Res.gives_ok ht

/-- `ENC.STEP` keeps the invariant. -/
theorem State.encodeStep_gives {s : State} (h : s.Inv) : s.encodeStep.Gives fun _ t => t.Inv := by
  refine (State.fetchContext_gives h).bind fun _ t ht => ?_
  split_ifs
  · exact State.encodeRegular_gives ht
  · exact State.encodeRun_gives (s := { t with mode := .run }) ht

/-- `DEC.RUNLEN` keeps the invariant. -/
theorem State.decodeHits_gives (rem0 fuel : Nat) {s : State} (h : s.Inv) : (decodeHits rem0 fuel s).Gives fun _ t => t.Inv := by
  induction fuel generalizing s with
  | zero => exact Res.gives_ok h
  | succ n ih =>
    unfold decodeHits
    refine (State.reads_gives _ _).bind ?_
    rintro b _ ⟨r, rfl⟩
    have hd : ((s.withBr r).decodeHit rem0).Inv := by
      unfold State.decodeHit
      split_ifs <;> exact h
    split_ifs
    · simp only []
      split_ifs
      · exact Res.gives_ok hd
      · exact ih hd
    · refine (State.reads_gives _ _).bind ?_
      rintro v _ ⟨r', rfl⟩
      unfold State.decodeTerm
      simp only []
      split_ifs
      · exact Res.gives_raised
      · exact Res.gives_ok h

theorem State.decodeRunLength_gives (rem0 : Nat) {s : State} (h : s.Inv) :
    (s.decodeRunLength rem0).Gives fun _ t => t.Inv :=
  State.decodeHits_gives rem0 _ (s := { s with idx := 0 }) h

/-- `DEC.REGULAR` keeps the invariant. -/
theorem State.decodeRegular_gives {s : State} (h : s.Inv) : s.decodeRegular.Gives fun _ t => t.Inv := by
  unfold State.decodeRegular
  split_ifs
  · refine (State.regK_gives _ _).bind ?_
    rintro k _ rfl
    refine (State.reads_gives _ _).bind ?_
    rintro m _ ⟨r, rfl⟩
    refine Res.Gives.bind (State.updateReg_gives _ ?_ _) ?_
    · exact h.1 _
    rintro - _ ⟨c, rfl, hc⟩
    exact Res.gives_ok (State.Inv.setOut (State.Inv.setCur (State.Inv.withReg (s := s) h hc) _ _) _ _ _)
  · exact Res.gives_stop

/-- `DEC.RIPIXEL` keeps the invariant. -/
theorem State.decodeInterruption_gives {s : State} (h : s.Inv) : s.decodeInterruption.Gives fun _ t => t.Inv := by
  unfold State.decodeInterruption
  split_ifs
  · refine (State.runK_gives _ _).bind ?_
    rintro k _ rfl
    refine (State.reads_gives _ _).bind ?_
    rintro m _ ⟨r, rfl⟩
    refine Res.Gives.bind (State.updateRi_gives _ ?_ _ _) ?_
    · exact h.2.1 _
    rintro - _ ⟨c, rfl, hc⟩
    exact Res.gives_ok (State.Inv.setOut (State.Inv.setCur (State.Inv.withRi (s := s) h hc) _ _) _ _ _)
  · exact Res.gives_stop

/-- `DEC.RUN` keeps the invariant. -/
theorem State.decodeRun_gives {s : State} (h : s.Inv) : s.decodeRun.Gives fun _ t => t.Inv := by
  unfold State.decodeRun
  refine (State.decodeRunLength_gives _ h).bind fun _ t ht => ?_
  have hf := (ht.fillCur t.x t.ra t.r).fillOut t.y t.x t.ra t.r
  simp only []
  split_ifs
  · exact Res.gives_ok hf
  · refine Res.Gives.bind (Q := fun _ t => t.Inv) (State.decodeInterruption_gives ?_) fun _ u hu => Res.gives_ok ?_
    · exact hf
    · exact hu
  · exact Res.gives_stop

/-- `DEC.STEP` keeps the invariant. -/
theorem State.decodeStep_gives {s : State} (h : s.Inv) : s.decodeStep.Gives fun _ t => t.Inv := by
  refine (State.fetchContext_gives h).bind fun _ t ht => ?_
  split_ifs
  · exact State.decodeRegular_gives ht
  · exact State.decodeRun_gives (s := { t with mode := .run }) ht

end Sys2Proof.Machine
end

