-- ==== Sys2Proof/Laws/DecodeAny.lean ====
section
/-! SUPPORT. The decoder's pixel operations on any input, in a state whose context invariants hold: they finish, X
advanced, or raise a fault, and never stop (R216, R231 to R233). -/

namespace Sys2Proof.Machine

/-- A fault was raised: STATUS is FAULT, nothing of the scan's frame has changed, X is still in the row. -/
def State.Faulted (s t : State) : Prop :=
  s.SameScan { t with status := s.status } ∧ t.status = .fault ∧ s.x ≤ t.x ∧ t.x ≤ s.w ∧ Memory.wf t = true

/-- Decoded, X advanced. -/
def State.Passed (s t : State) : Prop :=
  s.SameScan t ∧ t.bw = s.bw ∧ s.x < t.x ∧ t.x ≤ s.w

theorem State.regK_meets {s : State} (h : s.CtxInv) (i : Fin Config.nctx) (R : State → Prop) :
    (s.regK i).Meets (fun _ t => t = s) R := by
  obtain ⟨k, hk⟩ := RegCtx.getK_isSome (h.1 i)
  rw [State.regK_ok hk]
  rfl

theorem State.runK_meets {s : State} (h : s.CtxInv) (t : Fin Config.nri) (R : State → Prop) :
    (s.runK t).Meets (fun _ u => u = s) R := by
  obtain ⟨k, hk⟩ := RunCtx.getK_isSome (h.2 t)
  rw [State.runK_ok hk]
  rfl

theorem State.reads_meets {α : Type} (s : State) (f : Space 8 → Nat → Reader → Except Reader (α × Reader)) :
    (s.reads f).Meets (fun _ t => ∃ r, t = s.withBr r)
      fun t => ∃ r, t = (s.withBr r).raise .unexpectedEndOfStream r.pos := by
  rcases s.reads_cases f with ⟨a, r, -, h⟩ | ⟨r, -, h⟩ <;> rw [h] <;> exact ⟨r, rfl⟩

theorem State.updateReg_meets {s : State} (h : s.CtxInv) (i : Fin Config.nctx) (e : Int) :
    (s.updateReg i e).Meets (fun _ t => ∃ c, t = s.withReg i c ∧ c.Inv) fun t => t = s.raise .contextOverflow i.val := by
  rcases State.updateReg_cases i (h.1 i) e with ⟨c, h1, h2⟩ | h1 <;> rw [h1]
  · exact ⟨c, rfl, h2⟩
  · rfl

theorem State.updateRi_meets {s : State} (h : s.CtxInv) (t : Fin Config.nri) (e : Int) (em : Nat) :
    (s.updateRi t e em).Meets (fun _ u => ∃ c, u = s.withRi t c ∧ c.Inv t)
      fun u => ∃ c, u = (s.withRi t c).raise .contextOverflow (Config.nctx + t.val) := by
  rcases State.updateRi_cases t (h.2 t) e em with ⟨c, h1, h2⟩ | ⟨c, h1⟩ <;> rw [h1]
  · exact ⟨c, rfl, h2⟩
  · exact ⟨c, rfl⟩

/-- `DEC.REGULAR` on any input (R213). -/
theorem State.decodeRegular_meets {s : State} (h : s.CtxInv) (hwf : Memory.wf s = true) (hy : s.y < s.rows)
    (hx : s.x < s.w) : s.decodeRegular.Meets (fun _ t => s.Passed t ∧ t.x = s.x + 1 ∧ t.mode = s.mode) s.Faulted := by
  unfold State.decodeRegular
  rw [if_pos (State.isSample_eq hy hx)]
  simp only []
  refine (State.regK_meets (s := { s with sign := signOf s.q, ci := contextIndex s.q }) h _ _).bind ?_
  rintro k _ rfl
  refine ((State.reads_meets _ _).mono (fun _ _ h => h) ?_).bind ?_
  · rintro _ ⟨r, rfl⟩
    exact ⟨⟨rfl, rfl, rfl, rfl, rfl, rfl, rfl, rfl, rfl, rfl, rfl⟩, rfl, le_rfl, hx.le, hwf⟩
  rintro m _ ⟨r, rfl⟩
  simp only []
  refine Res.Meets.bind (Res.Meets.mono (State.updateReg_meets ?_ _ _) (fun _ _ h => h) ?_) ?_
  · exact h
  · rintro _ rfl
    exact ⟨⟨rfl, rfl, rfl, rfl, rfl, rfl, rfl, rfl, rfl, rfl, rfl⟩, rfl, le_rfl, hx.le, hwf⟩
  · rintro - _ ⟨c, rfl, hc⟩
    simp only [State.withBr, State.withReg, State.produce, State.setCur, State.setOut, Res.Meets]
    exact ⟨⟨⟨rfl, rfl, rfl, rfl, rfl, rfl, rfl, rfl, rfl, rfl, rfl⟩, rfl, Nat.lt_succ_self _, hx⟩, trivial, trivial⟩

/-- `DEC.RIPIXEL` on any input (R215). -/
theorem State.decodeInterruption_meets {s : State} (h : s.CtxInv) (hwf : Memory.wf s = true) (hy : s.y < s.rows)
    (hx : s.x < s.w) : s.decodeInterruption.Meets (fun _ t => s.Passed t ∧ t.x = s.x + 1 ∧ t.mode = s.mode) s.Faulted := by
  unfold State.decodeInterruption
  rw [if_pos (State.isSample_eq hy hx)]
  simp only []
  refine (State.runK_meets (s := { s with rb := s.prevAt s.x }) h _ _).bind ?_
  rintro k _ rfl
  refine ((State.reads_meets _ _).mono (fun _ _ h => h) ?_).bind ?_
  · rintro _ ⟨r, rfl⟩
    exact ⟨⟨rfl, rfl, rfl, rfl, rfl, rfl, rfl, rfl, rfl, rfl, rfl⟩, rfl, le_rfl, hx.le, hwf⟩
  rintro m _ ⟨r, rfl⟩
  simp only []
  refine Res.Meets.bind (Res.Meets.mono (State.updateRi_meets ?_ _ _ _) (fun _ _ h => h) ?_) ?_
  · exact h
  · rintro _ ⟨c, rfl⟩
    exact ⟨⟨rfl, rfl, rfl, rfl, rfl, rfl, rfl, rfl, rfl, rfl, rfl⟩, rfl, le_rfl, hx.le, hwf⟩
  · rintro - _ ⟨c, rfl, hc⟩
    simp only [State.withBr, State.withRi, State.produce, State.setCur, State.setOut, Res.Meets]
    exact ⟨⟨⟨rfl, rfl, rfl, rfl, rfl, rfl, rfl, rfl, rfl, rfl, rfl⟩, rfl, Nat.lt_succ_self _, hx⟩, trivial, trivial⟩

/-- The loop of `DEC.RUNLEN` on any input (R212, R232): a length of at most rem0, all of it exactly at the end of the
row, or a fault. -/
theorem decodeHits_meets {rem0 fuel : Nat} {s : State} (hi : s.idx < rem0) (hf : rem0 - s.idx < fuel) :
    (decodeHits rem0 fuel s).Meets
      (fun _ t => t = { s with br := t.br, idx := t.idx, r := t.r, eol := t.eol, runIndex := t.runIndex } ∧
        t.r ≤ rem0 ∧ (t.eol = true ↔ t.r = rem0))
      fun t => t = { s with
        br := t.br, idx := t.idx, runIndex := t.runIndex, status := .fault, faultKind := t.faultKind,
        faultInfo := t.faultInfo } := by
  induction fuel generalizing s with
  | zero => omega
  | succ n ih =>
    unfold decodeHits
    refine ((State.reads_meets _ _).mono (fun _ _ h => h) ?_).bind ?_
    · rintro _ ⟨r, rfl⟩
      rfl
    rintro b _ ⟨r, rfl⟩
    cases b with
    | true =>
      simp only [if_true]
      have hc := chunk_pos s.runIndex
      obtain ⟨i, j, hd, h1, h2⟩ : ∃ i j, (s.withBr r).decodeHit rem0 = { s with br := r, idx := i, runIndex := j } ∧
          s.idx < i ∧ i ≤ rem0 := by
        by_cases hm : min (chunk s.runIndex) (rem0 - s.idx) = chunk s.runIndex
        · refine ⟨s.idx + chunk s.runIndex, indexInc s.runIndex, ?_, by omega, by omega⟩
          exact if_pos hm
        · refine ⟨s.idx + min (chunk s.runIndex) (rem0 - s.idx), s.runIndex, ?_, by omega, by omega⟩
          exact if_neg hm
      rw [hd]
      by_cases he : i = rem0
      · rw [if_pos he]
        exact ⟨rfl, h2, by simp [he]⟩
      · rw [if_neg he]
        refine (ih (s := { s with br := r, idx := i, runIndex := j }) (by show i < rem0; omega)
          (by show rem0 - i < n; omega)).mono ?_ ?_
        · rintro _ t ⟨h3, h4, h5⟩
          exact ⟨h3, h4, h5⟩
        · intro t h3
          exact h3
    | false =>
      simp only [Bool.false_eq_true, if_false]
      refine ((State.reads_meets _ _).mono (fun _ _ h => h) ?_).bind ?_
      · rintro _ ⟨r', rfl⟩
        rfl
      rintro v _ ⟨r', rfl⟩
      unfold State.decodeTerm
      simp only []
      split_ifs with hge
      · rfl
      · refine ⟨rfl, ?_, ?_⟩ <;> simp only [State.withBr] at hge ⊢
        · omega
        · simp
          omega

/-- `DEC.RUN` on any input (R214). -/
theorem State.decodeRun_meets {s : State} (h : s.CtxInv) (hwf : Memory.wf s = true) (hy : s.y < s.rows)
    (hx : s.x < s.w) : s.decodeRun.Meets (fun _ t => s.Passed t ∧ t.mode = .regular) s.Faulted := by
  unfold State.decodeRun State.decodeRunLength
  refine ((decodeHits_meets (s := { s with idx := 0 }) (by show 0 < s.w - s.x; omega)
    (by show s.w - s.x - 0 < s.w - s.x + 1; omega)).mono (fun _ _ h => h) ?_).bind ?_
  · intro t ht
    rw [ht]
    exact ⟨⟨rfl, rfl, rfl, rfl, rfl, rfl, rfl, rfl, rfl, rfl, rfl⟩, rfl, le_rfl, hx.le, hwf⟩
  rintro _ t ⟨ht, hr, he⟩
  have hctx : t.CtxInv := by rw [ht]; exact h
  have hm : Memory.wf t = true := by rw [ht]; exact hwf
  have hty : t.y < t.rows := by rw [ht]; exact hy
  have hsame : s.SameScan t := by rw [ht]; exact ⟨rfl, rfl, rfl, rfl, rfl, rfl, rfl, rfl, rfl, rfl, rfl⟩
  have htx : t.x = s.x := by rw [ht]
  have htb : t.bw = s.bw := by rw [ht]
  have htw : t.w = s.w := hsame.w_eq
  have hm2 := Memory.wf_fillOut (Memory.wf_fillCur hm t.x t.ra t.r) t.y t.x t.ra t.r
  obtain ⟨cur, out, hu⟩ : ∃ cur out, (t.fillCur t.x t.ra t.r).fillOut t.y t.x t.ra t.r = { t with cur := cur, out := out } := by
    rw [State.fillOut_eq, State.fillCur_eq]
    exact ⟨_, _, rfl⟩
  rw [hu] at hm2
  simp only []
  rw [if_pos (Or.inr hty), hu]
  simp only []
  by_cases hel : t.eol = true
  · rw [if_pos hel]
    refine ⟨⟨hsame, htb, ?_, ?_⟩, rfl⟩ <;> have := he.mp hel <;> simp only [htx] <;> omega
  · rw [if_neg hel]
    have hlt : t.r < s.w - s.x := lt_of_le_of_ne hr fun h' => hel (he.mpr h')
    refine Res.Meets.bind (Res.Meets.mono (State.decodeInterruption_meets (s := { t with
      cur := cur, out := out, x := t.x + t.r }) hctx hm2 hty ?_) (fun _ _ h => h) ?_) ?_
    · show t.x + t.r < t.w
      omega
    · rintro u ⟨⟨a1, a2, a3, a4, a5, a6, a7, a8, a9, a10, a11⟩, h2, h3, h4, h5⟩
      simp only [] at h3 h4
      obtain ⟨b1, b2, b3, b4, b5, b6, b7, b8, b9, b10, b11⟩ := hsame
      exact ⟨⟨a1.trans b1, a2.trans b2, a3.trans b3, a4.trans b4, rfl, a6.trans b6, a7.trans b7, a8.trans b8, a9.trans b9,
        a10.trans b10, a11.trans b11⟩, h2, by omega, by rw [← htw]; exact h4, h5⟩
    · rintro - u ⟨⟨h1, h2, h3, h4⟩, h5, -⟩
      simp only [] at h3
      exact ⟨⟨hsame.trans h1, h2.trans htb, by show s.x < u.x; omega, by rw [← htw]; exact h4⟩, rfl⟩

/-- `DEC.STEP` on any input (R211). -/
theorem State.decodeStep_meets {s : State} (h : s.CtxInv) (hwf : Memory.wf s = true) (hy : s.y < s.rows)
    (hx : s.x < s.w) :
    s.decodeStep.Meets (fun _ t => s.Passed t ∧ (s.mode = .regular → t.mode = .regular)) s.Faulted := by
  unfold State.decodeStep
  rw [State.fetchContext_eq hx, Res.bind_ok]
  split_ifs
  · exact (State.decodeRegular_meets (s := s.context) h hwf hy hx).mono
      (fun _ t ht => ⟨ht.1, fun hm => ht.2.2.trans hm⟩) fun _ ht => ht
  · exact (State.decodeRun_meets (s := { s.context with mode := .run }) h hwf hy hx).mono
      (fun _ t ht => ⟨ht.1, fun _ => ht.2⟩) fun _ ht => ht

end Sys2Proof.Machine
end

