-- ==== Sys2Proof/Laws/Driver.lean ====
section
/-! SUPPORT. The scan driver from a state whose scan invariant holds: what each of its operations leaves, and runs of
several steps (R190, R193, R210). -/

namespace Sys2Proof.Machine

/-! Runs. -/

theorem run_succ (M : Host.Core) (n : Nat) (s : M.State) : M.run (n + 1) s =
    match M.step s with
    | .next t => M.run n t
    | .fault e => .fault e
    | .refused r => .refused r := rfl

theorem run_next {M : Host.Core} {n : Nat} {s t : M.State} (h : M.step s = .next t) : M.run (n + 1) s = M.run n t := by
  rw [run_succ, h]

theorem core_run_zero (s : State) : core.run 0 s = .next s := rfl

theorem core_run_next {n : Nat} {s t : State} (h : step s = .next t) : core.run (n + 1) s = core.run n t :=
  run_next (M := core) h

/-- A step that changes nothing is repeated without end. -/
theorem core_run_fixed {s : State} (h : step s = .next s) (n : Nat) : core.run n s = .next s := by
  induction n with
  | zero => rfl
  | succ n ih => rw [core_run_next h, ih]

/-- A run goes on from where another ended. -/
theorem core_run_add {m n : Nat} {s t : State} (h : core.run m s = .next t) : core.run (m + n) s = core.run n t := by
  induction m generalizing s with
  | zero => cases h; rw [Nat.zero_add]
  | succ m ih =>
    have e := run_succ core m s
    rw [h] at e
    rw [Nat.succ_add, run_succ core (m + n) s]
    cases hs : core.step s with
    | next u => rw [hs] at e; exact ih e.symm
    | fault x => rw [hs] at e; cases e
    | refused x => rw [hs] at e; cases e

/-! The driver's choice. -/

theorem step_driver {s : State} {i : Instr} (hi : s.issued = none) (hd : s.driverNext = some i) (hw : i.wf = true) :
    step s = exec i s := by
  unfold step State.fetch
  rw [hi]
  simp only [hd, Option.map_some]
  rw [if_pos hw]

theorem step_at_rest {s : State} (hi : s.issued = none) (hb : s.status ≠ .busy) : step s = .next s := by
  unfold step State.fetch State.driverNext
  rw [hi]
  cases hs : s.status with
  | busy => exact absurd hs hb
  | idle | done | fault => rfl

theorem driverNext_eq {s : State} (hb : s.status = .busy) : s.driverNext =
    if s.rowOpen then
      if s.x < s.w then (match s.dir with | .encode => some .encStep | .decode => some .decStep) else some .rowEnd
    else if s.y < s.rows then some .rowStart
    else match s.dir with | .encode => some .encEnd | .decode => some .decEnd := by
  unfold State.driverNext
  rw [hb] <;> rfl

theorem step_encStep {s : State} (hi : s.issued = none) (hb : s.status = .busy) (ho : s.rowOpen = true) (hx : s.x < s.w)
    (hd : s.dir = .encode) : step s = s.encodeStep.outcome fun _ s => s :=
  step_driver (i := .encStep) hi (by rw [driverNext_eq hb, ho, if_pos rfl, if_pos hx, hd]) rfl

theorem step_decStep {s : State} (hi : s.issued = none) (hb : s.status = .busy) (ho : s.rowOpen = true) (hx : s.x < s.w)
    (hd : s.dir = .decode) : step s = s.decodeStep.outcome fun _ s => s :=
  step_driver (i := .decStep) hi (by rw [driverNext_eq hb, ho, if_pos rfl, if_pos hx, hd]) rfl

theorem step_rowEnd {s : State} (hi : s.issued = none) (hb : s.status = .busy) (ho : s.rowOpen = true) (hx : ¬s.x < s.w) :
    step s = .next { s with y := s.y + 1, rowOpen := false } :=
  step_driver (i := .rowEnd) hi (by rw [driverNext_eq hb, ho, if_pos rfl, if_neg hx]) rfl

theorem step_rowStart {s : State} (hi : s.issued = none) (hb : s.status = .busy) (ho : s.rowOpen = false)
    (hy : s.y < s.rows) : step s = .next s.rowStart :=
  step_driver (i := .rowStart) hi (by rw [driverNext_eq hb, ho, if_neg (by decide), if_pos hy]) rfl

theorem step_encEnd {s : State} (hi : s.issued = none) (hb : s.status = .busy) (ho : s.rowOpen = false)
    (hy : ¬s.y < s.rows) (hd : s.dir = .encode) : step s = .next { s with bw := s.bw.flush, status := .done } :=
  step_driver (i := .encEnd) hi (by rw [driverNext_eq hb, ho, if_neg (by decide), if_neg hy, hd]) rfl

theorem step_decEnd {s : State} (hi : s.issued = none) (hb : s.status = .busy) (ho : s.rowOpen = false)
    (hy : ¬s.y < s.rows) (hd : s.dir = .decode) : step s = .next { s with status := .done } :=
  step_driver (i := .decEnd) hi (by rw [driverNext_eq hb, ho, if_neg (by decide), if_neg hy, hd]) rfl

/-! The invariant at the start and at the ends. -/

theorem State.inv_scanInit {s : State} (h : Memory.wf s = true) : s.scanInit.Inv := by
  refine ⟨fun i => ?_, fun t => ?_, ?_, rfl, Nat.zero_le _⟩
  · show ((Vector.replicate Config.nctx RegCtx.init).get i).Inv
    rw [Vector.get_eq_getElem, Vector.getElem_replicate]
    unfold RegCtx.Inv
    decide
  · have key : ∀ t : Fin 2, ((#v[RunCtx.init 0, RunCtx.init 1] : Vector RunCtx 2).get t).Inv t := by
      unfold RunCtx.Inv
      decide
    exact key t
  · rw [Memory.wf_iff] at h ⊢
    exact ⟨rfl, rfl, h.2.2⟩

theorem State.bounded_scanInit (s : State) : s.scanInit.Bounded := by
  refine ⟨fun i => ?_, fun t => ?_⟩
  · show ((Vector.replicate Config.nctx RegCtx.init).get i).Bounded
    rw [Vector.get_eq_getElem, Vector.getElem_replicate]
    unfold RegCtx.Bounded
    decide
  · have key : ∀ t : Fin 2, ((#v[RunCtx.init 0, RunCtx.init 1] : Vector RunCtx 2).get t).Bounded := by
      unfold RunCtx.Bounded
      decide
    exact key t

theorem Writer.flush_spec {w : Writer} (h : w.flagOk = true) :
    (∃ p ≤ 7, unstuff w.flush.sink = w.stream ++ List.replicate p false) ∧ w.flush.flagOk = true ∧
      w.flush.drained = true ∧ w.flush.wq = [] ∧ w.flush.ffpend = false ∧
      (markerFree w.sink = true → markerFree w.flush.sink = true) := by
  obtain ⟨h1, -, h3, h4, -⟩ := Writer.pad_spec (Writer.flagOk_drain h) (Writer.drained_drain w)
  refine ⟨?_, h3, ?_, w.drain.wq_pad, w.drain.ffpend_pad, fun hm => h4 (Writer.markerFree_drain h hm)⟩
  · obtain ⟨p, hp, e⟩ := h1
    exact ⟨p, hp, by rw [Writer.flush, e, Writer.stream_drain h]⟩
  · show w.drain.pad.drained = true
    rw [Writer.drained, w.drain.wq_pad, w.drain.ffpend_pad]
    rfl

theorem State.Inv.flush {s : State} (h : s.Inv) : (s.withBw s.bw.flush).Inv := by
  obtain ⟨-, h2, -, h4, -⟩ := Writer.flush_spec h.2.2.2.1
  exact ⟨h.1, h.2.1, h.2.2.1, h2, by show s.bw.flush.wq.length ≤ 7; rw [h4]; exact Nat.zero_le _⟩

theorem State.Inv.rowStart {s : State} (h : s.Inv) : s.rowStart.Inv := by
  have h0 : State.Inv { s with prev := s.cur, cur := s.prev } := by
    have hm := Memory.wf_iff.mp h.2.2.1
    exact ⟨h.1, h.2.1, Memory.wf_iff.mpr ⟨hm.2.1, hm.1, hm.2.2⟩, h.2.2.2⟩
  have h1 : ∀ (u : State) (i : Int) (v : Sample), u.Inv → (u.setPrev i v).Inv := fun u i v hu =>
    ⟨hu.1, hu.2.1, Memory.wf_setPrev hu.2.2.1 i v, hu.2.2.2⟩
  exact (h1 _ _ _ h0).setCur _ _

/-- The scan invariant after a command (R190, R210, R251). -/
theorem State.scanInv_command {s t : State} {dir : Dir} {width rows size : Nat} (hm : Memory.wf s = true)
    (hi : s.issued = none) (h : s.command dir width rows size = .next t) :
    t.ScanInv ∧ t = State.scanInit { s with dir := dir, width := .ofNat 16 width, rows := rows, size := size } := by
  unfold State.command at h
  split_ifs at h with h1 h2
  cases h
  simp only [widthOk, Bool.and_eq_true, decide_eq_true_eq] at h2
  have hI := State.inv_scanInit (s := { s with dir := dir, width := .ofNat 16 width, rows := rows, size := size }) hm
  refine ⟨⟨hI.2.2.1, fun i hii => ?_, Nat.zero_le _, Nat.zero_le _, fun _ => ⟨hI, rfl, rfl⟩,
    fun _ => ⟨rfl, ?_, fun h => by cases h⟩, fun _ _ => State.bounded_scanInit _, fun h => by cases h⟩, rfl⟩
  · have : s.issued = some i := hii
    rw [hi] at this
    cases this
  · show 1 ≤ (BitVec.ofNat 16 width).toNat
    rw [BitVec.toNat_ofNat]
    omega

/-- What a step of the driver does to the position: X advances in an open row, an open row is ended, or one is started. -/
def State.Moved (s t : State) : Prop :=
  (s.rowOpen = true ∧ t.rowOpen = true ∧ t.y = s.y ∧ s.x < t.x) ∨
    (s.rowOpen = true ∧ t.rowOpen = false ∧ t.y = s.y + 1) ∨
    (s.rowOpen = false ∧ t.rowOpen = true ∧ t.y = s.y ∧ t.x = 0)

/-- A measure of the scan that is left: every move makes it smaller. -/
def State.remaining (s : State) : Nat :=
  2 * (s.rows - s.y) * (s.w + 2) + if s.rowOpen then s.w - s.x else s.w + 2

theorem State.ScanInv.remaining_lt {s t : State} (h : s.ScanInv) (hb : s.status = .busy) (ht : t.ScanInv)
    (hw : t.width = s.width) (hr : t.rows = s.rows) (hm : s.Moved t) : t.remaining < s.remaining := by
  have htw : t.w = s.w := congrArg BitVec.toNat hw
  have htx := ht.2.2.1
  rw [htw] at htx
  unfold State.remaining
  rw [htw, hr]
  rcases hm with ⟨a1, a2, a3, a4⟩ | ⟨a1, a2, a3⟩ | ⟨a1, a2, a3, a4⟩
  · rw [a1, a2, a3, if_pos rfl, if_pos rfl]
    omega
  · rw [a1, a2, a3, if_pos rfl, if_neg (by decide)]
    have hy := (h.2.2.2.2.2.1 hb).2.2 a1
    obtain ⟨m, hm⟩ : ∃ m, s.rows - s.y = m + 1 := ⟨s.rows - s.y - 1, by omega⟩
    rw [hm, show s.rows - (s.y + 1) = m by omega]
    nlinarith
  · rw [a1, a2, a3, a4, if_pos rfl, if_neg (by decide)]
    omega

/-- A driver step in a machine whose scan invariant holds: it does not stop, the invariant holds after it, the parameters
are the same, and it moved, or ended the scan, or, decoding, raised a fault. -/
theorem State.ScanInv.driver {s : State} (h : s.ScanInv) (hi : s.issued = none) (hb : s.status = .busy) :
    ∃ t, step s = .next t ∧ t.ScanInv ∧ t.issued = none ∧ t.rows = s.rows ∧ t.width = s.width ∧ t.dir = s.dir ∧
      ((t.status = .busy ∧ s.Moved t) ∨ (t.status = .done ∧ s.rowOpen = false ∧ s.rows ≤ s.y) ∨
        (t.status = .fault ∧ s.dir = .decode ∧ s.rowOpen = true ∧ s.x < s.w)) := by
  obtain ⟨hm, hl, hx, hy, hn, hbz, hbd, -⟩ := h
  obtain ⟨hmode, hw, hopen⟩ := hbz hb
  obtain ⟨hI, hdr, hmf⟩ := hn (by rw [hb]; decide)
  cases ho : s.rowOpen with
  | true =>
    by_cases hlt : s.x < s.w
    · cases hd : s.dir with
      | encode =>
        obtain ⟨t, bits, h1, ⟨⟨a1, a2, a3, a4, a5, a6, a7, a8, a9, a10, a11⟩, -, -, b1, b2, b3, b4, b5, b6, b7, b8⟩, h3⟩ :=
          State.encodeStep_coded hI (hbd hb hd) (hopen ho) hlt
        have htw : t.w = s.w := congrArg BitVec.toNat a2
        have hbw := Writer.wrote_put hI.2.2.2.1 bits
        refine ⟨t, by rw [step_encStep hi hb ho hlt hd, h1]; rfl, ⟨b7.2.2.1, fun i hii => ?_, by rw [htw]; exact b2,
          by rw [a6, a3]; exact hy, fun _ => ⟨b7, by rw [b4]; exact hbw.2.1, by rw [b4]; exact hbw.2.2.2.2 hmf⟩,
          fun _ => ⟨h3 hmode, by rw [htw]; exact hw, fun _ => by rw [a6, a3]; exact hopen ho⟩, fun _ _ => b8,
          fun hh => ?_⟩, a11.trans hi, a3, a2, a1.trans hd,
          .inl ⟨a5.trans hb, .inl ⟨ho, a10.trans ho, a6, b1⟩⟩⟩
        · rw [a11, hi] at hii
          cases hii
        · rw [a5, hb] at hh
          cases hh
      | decode =>
        have h1 := State.decodeStep_meets hI.ctx hm (hopen ho) hlt
        have hg := State.decodeStep_gives hI
        rw [step_decStep hi hb ho hlt hd]
        cases hr : s.decodeStep with
        | ok a t =>
          rw [hr] at h1
          obtain ⟨⟨⟨a1, a2, a3, a4, a5, a6, a7, a8, a9, a10, a11⟩, b1, b2, b3⟩, b4⟩ := h1
          have hIt := hg _ _ hr
          have htw : t.w = s.w := congrArg BitVec.toNat a2
          refine ⟨t, rfl, ⟨hIt.2.2.1, fun i hii => ?_, by rw [htw]; exact b3, by rw [a6, a3]; exact hy,
            fun _ => ⟨hIt, by rw [b1]; exact hdr, by rw [b1]; exact hmf⟩,
            fun _ => ⟨b4 hmode, by rw [htw]; exact hw, fun _ => by rw [a6, a3]; exact hopen ho⟩, fun _ hh => ?_,
            fun hh => ?_⟩, a11.trans hi, a3, a2, a1.trans hd, .inl ⟨a5.trans hb, .inl ⟨ho, a10.trans ho, a6, b2⟩⟩⟩
          · rw [a11, hi] at hii
            cases hii
          · rw [a1, hd] at hh
            cases hh
          · rw [a5, hb] at hh
            cases hh
        | raised t =>
          rw [hr] at h1
          obtain ⟨⟨a1, a2, a3, a4, a5, a6, a7, a8, a9, a10, a11⟩, b1, b2, b3, b4⟩ := h1
          simp only [] at a1 a2 a3 a6 a11
          have htw : t.w = s.w := congrArg BitVec.toNat a2
          refine ⟨t, rfl, ⟨b4, fun i hii => ?_, by rw [htw]; exact b3, by rw [a6, a3]; exact hy,
            fun hh => absurd b1 hh, fun hh => ?_, fun hh => ?_, fun hh => ?_⟩, a11.trans hi, a3, a2, a1.trans hd,
            .inr (.inr ⟨b1, rfl, rfl, hlt⟩)⟩
          · rw [a11, hi] at hii
            cases hii
          all_goals
            rw [b1] at hh
            cases hh
        | stop e =>
          rw [hr] at h1
          exact h1.elim
    · refine ⟨_, step_rowEnd hi hb ho hlt, ⟨hm, hl, hx, hopen ho, fun _ => ⟨hI, hdr, hmf⟩,
        fun _ => ⟨hmode, hw, fun hh => by cases hh⟩, fun _ hd => hbd hb hd, fun hh => ?_⟩, hi, rfl, rfl, rfl,
        .inl ⟨hb, .inr (.inl ⟨ho, rfl, rfl⟩)⟩⟩
      have hh : s.status = .done := hh
      rw [hb] at hh
      cases hh
  | false =>
    by_cases hlt : s.y < s.rows
    · have hIr := hI.rowStart
      refine ⟨_, step_rowStart hi hb ho hlt, ⟨hIr.2.2.1, hl, Nat.zero_le _, hy, fun _ => ⟨hIr, hdr, hmf⟩,
        fun _ => ⟨rfl, hw, fun _ => hlt⟩, fun _ hd => hbd hb hd, fun hh => ?_⟩, hi, rfl, rfl, rfl,
        .inl ⟨hb, .inr (.inr ⟨ho, rfl, rfl, rfl⟩)⟩⟩
      have hh : s.status = .done := hh
      rw [hb] at hh
      cases hh
    · cases hd : s.dir with
      | encode =>
        obtain ⟨-, -, f3, f4, f5, f6⟩ := Writer.flush_spec hI.2.2.2.1
        exact ⟨_, step_encEnd hi hb ho hlt hd, ⟨hm, hl, hx, hy, fun _ => ⟨hI.flush, f3, f6 hmf⟩, fun hh => (by cases hh),
          fun hh => (by cases hh), fun _ _ => ⟨f4, f5⟩⟩, hi, rfl, rfl, hd, .inr (.inl ⟨rfl, rfl, by omega⟩)⟩
      | decode =>
        refine ⟨_, step_decEnd hi hb ho hlt hd, ⟨hm, hl, hx, hy, fun _ => ⟨hI, hdr, hmf⟩, fun hh => (by cases hh),
          fun hh => (by cases hh), fun _ hh => ?_⟩, hi, rfl, rfl, hd, .inr (.inl ⟨rfl, rfl, by omega⟩)⟩
        have hh : s.dir = .encode := hh
        rw [hd] at hh
        cases hh

/-- The scan invariant all along a run in which nothing is issued. -/
theorem State.ScanInv.run {n : Nat} {s t : State} (h : s.ScanInv) (hi : s.issued = none) (hr : core.run n s = .next t) :
    t.ScanInv ∧ t.issued = none := by
  induction n generalizing s with
  | zero => cases hr; exact ⟨h, hi⟩
  | succ n ih =>
    by_cases hb : s.status = .busy
    · obtain ⟨u, h1, h2, h3, -⟩ := h.driver hi hb
      rw [core_run_next h1] at hr
      exact ih h2 h3 hr
    · rw [core_run_next (step_at_rest hi hb)] at hr
      exact ih h hi hr

end Sys2Proof.Machine
end

