-- ==== Sys2Proof/Laws/Frame.lean ====
section
/-! SUPPORT. The frame of the pixel operations from any state, whatever they end in: the parameters, the row, the row above
and what the scan is given are unchanged, and STATUS changes only to FAULT (R21, R22, R237). -/

namespace Sys2Proof.Machine

theorem State.SameScan.refl (s : State) : s.SameScan s := ⟨rfl, rfl, rfl, rfl, rfl, rfl, rfl, rfl, rfl, rfl, rfl⟩

/-- Where the sequence finishes, the frame of s is kept; where it raises a fault, all of it but STATUS, which is FAULT. -/
def Res.Keeps {α : Type} (r : Res α) (s : State) : Prop :=
  (∀ a t, r = .ok a t → s.SameScan t) ∧
    ∀ t, r = .raised t → s.SameScan { t with status := s.status } ∧ t.status = .fault

theorem Res.keeps_ok {α : Type} {a : α} {s t : State} (h : s.SameScan t) : (Res.ok a t).Keeps s := by
  refine ⟨?_, ?_⟩
  · rintro _ _ ⟨⟩
    exact h
  · rintro _ ⟨⟩

theorem Res.keeps_stop {α : Type} {e : Fault} {s : State} : (Res.stop e : Res α).Keeps s := by
  refine ⟨?_, ?_⟩
  · rintro _ _ ⟨⟩
  · rintro _ ⟨⟩

theorem Res.keeps_raised {α : Type} {s t : State} {kind : FaultKind} {info : Nat} (h : s.SameScan t) :
    (Res.raised (t.raise kind info) : Res α).Keeps s := by
  refine ⟨?_, ?_⟩
  · rintro _ _ ⟨⟩
  · rintro _ ⟨⟩
    obtain ⟨h1, h2, h3, h4, -, h6, h7, h8, h9, h10, h11⟩ := h
    exact ⟨⟨h1, h2, h3, h4, rfl, h6, h7, h8, h9, h10, h11⟩, rfl⟩

theorem Res.Keeps.bind {α β : Type} {r : Res α} {f : α → State → Res β} {s : State} (h : r.Keeps s)
    (hf : ∀ a t, s.SameScan t → (f a t).Keeps s) : (r.bind f).Keeps s := by
  refine ⟨fun b t hb => ?_, fun t ht => ?_⟩
  · obtain ⟨a, u, h1, h2⟩ := Res.bind_eq_ok hb
    exact (hf a u (h.1 a u h1)).1 b t h2
  · rcases Res.bind_eq_raised ht with h1 | ⟨a, u, h1, h2⟩
    · exact h.2 t h1
    · exact (hf a u (h.1 a u h1)).2 t h2

theorem State.regK_keeps {s t : State} (h : s.SameScan t) (i : Fin Config.nctx) : (t.regK i).Keeps s := by
  unfold State.regK
  split
  · exact Res.keeps_ok h
  · exact Res.keeps_stop

theorem State.runK_keeps {s t : State} (h : s.SameScan t) (i : Fin Config.nri) : (t.runK i).Keeps s := by
  unfold State.runK
  split
  · exact Res.keeps_ok h
  · exact Res.keeps_stop

theorem State.updateReg_keeps {s t : State} (h : s.SameScan t) (i : Fin Config.nctx) (e : Int) :
    (t.updateReg i e).Keeps s := by
  unfold State.updateReg
  split
  · exact Res.keeps_ok h
  · exact Res.keeps_raised h

theorem State.updateRi_keeps {s t : State} (h : s.SameScan t) (i : Fin Config.nri) (e em : Int) :
    (t.updateRi i e em).Keeps s := by
  unfold State.updateRi
  simp only []
  split_ifs
  · exact Res.keeps_ok h
  · exact Res.keeps_raised (t := t.withRi _ _) h

theorem State.reads_keeps {α : Type} {s t : State} (h : s.SameScan t)
    (f : Space 8 → Nat → Reader → Except Reader (α × Reader)) : (t.reads f).Keeps s := by
  rcases t.reads_cases f with ⟨a, r, -, e⟩ | ⟨r, -, e⟩ <;> rw [e]
  · exact Res.keeps_ok h
  · exact Res.keeps_raised (t := t.withBr r) h

theorem State.encodeRegular_keeps {s t : State} (h : s.SameScan t) : t.encodeRegular.Keeps s := by
  unfold State.encodeRegular
  split_ifs
  · refine Res.Keeps.bind (State.regK_keeps ?_ _) fun k u hu => ?_
    · exact h
    refine Res.Keeps.bind (State.updateReg_keeps ?_ _ _) fun _ v hv => Res.keeps_ok ?_
    · exact hu
    · exact hv
  · exact Res.keeps_stop

theorem State.encodeInterruption_keeps {s t : State} (h : s.SameScan t) : t.encodeInterruption.Keeps s := by
  unfold State.encodeInterruption
  split_ifs
  · refine Res.Keeps.bind (State.runK_keeps ?_ _) fun k u hu => ?_
    · exact h
    refine Res.Keeps.bind (State.updateRi_keeps ?_ _ _ _) fun _ v hv => Res.keeps_ok ?_
    · exact hu
    · exact hv
  · exact Res.keeps_stop

theorem State.encodeHit_same (s : State) : s.SameScan s.encodeHit ∧ s.encodeHit.eol = s.eol := by
  unfold State.encodeHit
  split_ifs <;> exact ⟨.refl s, rfl⟩

theorem encodeHits_same (fuel : Nat) (s : State) : s.SameScan (encodeHits fuel s) ∧ (encodeHits fuel s).eol = s.eol := by
  induction fuel generalizing s with
  | zero => exact ⟨.refl s, rfl⟩
  | succ n ih =>
    unfold encodeHits
    split_ifs
    · exact ⟨s.encodeHit_same.1.trans (ih _).1, (ih _).2.trans s.encodeHit_same.2⟩
    · exact ⟨.refl s, rfl⟩

theorem State.encodeRunLength_same (s : State) (r : Nat) (eol : Bool) :
    s.SameScan (s.encodeRunLength r eol) ∧ (s.encodeRunLength r eol).eol = s.eol := by
  obtain ⟨h1, h2⟩ := encodeHits_same r { s with rem := r }
  unfold State.encodeRunLength
  simp only []
  split_ifs
  · exact ⟨State.SameScan.trans (s := s) h1 (State.encodeHit_same _).1, (State.encodeHit_same _).2.trans h2⟩
  · exact ⟨h1, h2⟩
  · exact ⟨h1, h2⟩

theorem State.fillCur_same (s : State) (x : Nat) (v : Sample) (n : Nat) : s.SameScan (s.fillCur x v n) := by
  rw [State.fillCur_eq]
  exact .refl s

theorem State.fillOut_same (s : State) (y x : Nat) (v : Sample) (n : Nat) : s.SameScan (s.fillOut y x v n) := by
  rw [State.fillOut_eq]
  exact .refl s

theorem State.encodeRun_keeps {s t : State} (h : s.SameScan t) : t.encodeRun.Keeps s := by
  unfold State.encodeRun
  simp only []
  by_cases hc : t.w - t.x = 0 ∨ t.y < t.rows
  · rw [if_pos hc]
    have hu := (State.SameScan.trans (t := { t with
      r := runLength t.src t.y t.ra t.x (t.w - t.x),
      eol := decide (runLength t.src t.y t.ra t.x (t.w - t.x) = t.w - t.x) }) h
        (State.fillCur_same _ t.x t.ra (runLength t.src t.y t.ra t.x (t.w - t.x))))
    generalize State.fillCur { t with
      r := runLength t.src t.y t.ra t.x (t.w - t.x),
      eol := decide (runLength t.src t.y t.ra t.x (t.w - t.x) = t.w - t.x) } t.x t.ra
        (runLength t.src t.y t.ra t.x (t.w - t.x)) = u at hu ⊢
    have hv := hu.trans (u.encodeRunLength_same (runLength t.src t.y t.ra t.x (t.w - t.x)) u.eol).1
    generalize u.encodeRunLength (runLength t.src t.y t.ra t.x (t.w - t.x)) u.eol = v at hv ⊢
    by_cases he : v.eol = true
    · rw [if_pos he]
      exact Res.keeps_ok hv
    · rw [if_neg he]
      refine Res.Keeps.bind (State.encodeInterruption_keeps ?_) fun _ w hw => Res.keeps_ok ?_
      · exact hv
      · exact hw
  · rw [if_neg hc]
    exact Res.keeps_stop

theorem State.fetchContext_keeps {s t : State} (h : s.SameScan t) : t.fetchContext.Keeps s := by
  unfold State.fetchContext State.fetchNeighbours
  split_ifs
  · exact Res.keeps_ok h
  · exact Res.keeps_stop

/-- The frame of `ENC.STEP` (R193). -/
theorem State.encodeStep_keeps (s : State) : s.encodeStep.Keeps s := by
  refine Res.Keeps.bind (State.fetchContext_keeps (.refl s)) fun _ t ht => ?_
  split_ifs
  · exact State.encodeRegular_keeps ht
  · exact State.encodeRun_keeps (t := { t with mode := .run }) ht

theorem decodeHits_keeps {s t : State} (h : s.SameScan t) (rem0 fuel : Nat) : (decodeHits rem0 fuel t).Keeps s := by
  induction fuel generalizing t with
  | zero => exact Res.keeps_ok h
  | succ n ih =>
    unfold decodeHits
    refine Res.Keeps.bind (State.reads_keeps h _) fun b u hu => ?_
    split_ifs
    · have hd : s.SameScan (u.decodeHit rem0) := by
        unfold State.decodeHit
        split_ifs <;> exact hu
      simp only []
      split_ifs
      · exact Res.keeps_ok hd
      · exact ih hd
    · refine Res.Keeps.bind (State.reads_keeps hu _) fun v w hw => ?_
      unfold State.decodeTerm
      simp only []
      split_ifs
      · exact Res.keeps_raised (t := { w with idx := w.idx + v }) hw
      · exact Res.keeps_ok hw

theorem State.decodeRunLength_keeps {s t : State} (h : s.SameScan t) (rem0 : Nat) : (t.decodeRunLength rem0).Keeps s :=
  decodeHits_keeps (t := { t with idx := 0 }) h rem0 _

theorem State.produce_same {s t : State} (h : s.SameScan t) (v : Sample) : s.SameScan (t.produce v) := h

theorem State.decodeRegular_keeps {s t : State} (h : s.SameScan t) : t.decodeRegular.Keeps s := by
  unfold State.decodeRegular
  split_ifs
  · refine Res.Keeps.bind (State.regK_keeps ?_ _) fun k u hu => ?_
    · exact h
    refine Res.Keeps.bind (State.reads_keeps ?_ _) fun m v hv => ?_
    · exact hu
    refine Res.Keeps.bind (State.updateReg_keeps ?_ _ _) fun _ w hw => Res.keeps_ok ?_
    · exact hv
    · exact State.produce_same hw (reconstruct w.px w.e w.sign)
  · exact Res.keeps_stop

theorem State.decodeInterruption_keeps {s t : State} (h : s.SameScan t) : t.decodeInterruption.Keeps s := by
  unfold State.decodeInterruption
  split_ifs
  · refine Res.Keeps.bind (State.runK_keeps ?_ _) fun k u hu => ?_
    · exact h
    refine Res.Keeps.bind (State.reads_keeps ?_ _) fun m v hv => ?_
    · exact hu
    refine Res.Keeps.bind (State.updateRi_keeps ?_ _ _ _) fun _ w hw => Res.keeps_ok ?_
    · exact hv
    · exact State.produce_same hw (runReconstruct w.ra w.rb w.e)
  · exact Res.keeps_stop

theorem State.decodeRun_keeps {s t : State} (h : s.SameScan t) : t.decodeRun.Keeps s := by
  unfold State.decodeRun
  refine Res.Keeps.bind (State.decodeRunLength_keeps h _) fun _ u hu => ?_
  have hf := hu.trans ((u.fillCur_same u.x u.ra u.r).trans (State.fillOut_same _ u.y u.x u.ra u.r))
  simp only []
  split_ifs
  · exact Res.keeps_ok hf
  · refine Res.Keeps.bind (State.decodeInterruption_keeps ?_) fun _ w hw => Res.keeps_ok ?_
    · exact hf
    · exact hw
  · exact Res.keeps_stop

/-- The frame of `DEC.STEP` (R211). -/
theorem State.decodeStep_keeps (s : State) : s.decodeStep.Keeps s := by
  refine Res.Keeps.bind (State.fetchContext_keeps (.refl s)) fun _ t ht => ?_
  split_ifs
  · exact State.decodeRegular_keeps ht
  · exact State.decodeRun_keeps (t := { t with mode := .run }) ht

/-- The next state of an operation whose parts keep the frame: it is kept, but for STATUS where a fault is raised. -/
theorem Res.Keeps.next {α : Type} {r : Res α} {s t : State} {f : α → State → State} (h : r.Keeps s)
    (ht : r.outcome f = .next t) (hf : ∀ a u, s.SameScan u → s.SameScan (f a u)) :
    s.SameScan { t with status := s.status } ∧ (t.status = s.status ∨ t.status = .fault) := by
  rcases Res.outcome_eq_next ht with ⟨a, u, h1, rfl⟩ | h1
  · obtain ⟨h1, h2, h3, h4, h5, h6, h7, h8, h9, h10, h11⟩ := hf a u (h.1 a u h1)
    exact ⟨⟨h1, h2, h3, h4, rfl, h6, h7, h8, h9, h10, h11⟩, .inl h5⟩
  · exact ⟨(h.2 t h1).1, .inr (h.2 t h1).2⟩

end Sys2Proof.Machine
end

