-- ==== Sys2Proof/Laws/Mirror.lean ====
section
/-! SUPPORT. A whole encode and the decode of what it wrote, side by side (R217). -/

namespace Sys2Proof.Machine

/-- The row above after `ROW.START`: the row just finished, its last sample repeated on the right (R191). -/
theorem State.prevAt_rowStart {s : State} (h : Memory.wf s = true) {i : Int} (hi : -1 ≤ i) :
    s.rowStart.prevAt i = if i = s.w then s.curAt ((s.w : Int) - 1) else s.curAt i := by
  have hc := (Memory.wf_iff.mp h).2.1
  show readCell (writeCell s.cur (lineAddr s.w) (readCell s.cur (lineAddr ((s.w : Int) - 1)))) (lineAddr i) = _
  rw [readCell_writeCell hc]
  by_cases he : i = s.w
  · rw [if_pos (by rw [he]), if_pos he]
    rfl
  · rw [if_neg fun h' => he (lineAddr_inj hi (by omega) h'), if_neg he]
    rfl

/-- The current row after `ROW.START`: its left border is the first sample of the row above (R191). -/
theorem State.curAt_rowStart {s : State} (h : Memory.wf s = true) (hw : 1 ≤ s.w) {i : Int} (hi : -1 ≤ i) :
    s.rowStart.curAt i = if i = -1 then s.curAt 0 else s.prevAt i := by
  have hp := (Memory.wf_iff.mp h).1
  have hc := (Memory.wf_iff.mp h).2.1
  show readCell (writeCell s.prev (lineAddr (-1)) (readCell (writeCell s.cur (lineAddr s.w)
    (readCell s.cur (lineAddr ((s.w : Int) - 1)))) (lineAddr 0))) (lineAddr i) = _
  rw [readCell_writeCell hp]
  by_cases he : i = -1
  · rw [if_pos (by rw [he]), if_pos he, readCell_writeCell hc,
      if_neg fun h' => absurd (lineAddr_inj (by omega) (by omega) h') (by omega)]
    rfl
  · rw [if_neg fun h' => he (lineAddr_inj hi (by omega) h'), if_neg he]
    rfl

/-- A decode under way mirrors an encode under way; between rows the whole row just finished is the same. -/
def State.Follows (d s : State) : Prop :=
  d.Mirrors s ∧ Memory.wf d = true ∧ d.status = .busy ∧ d.dir = .decode ∧ d.issued = none ∧
    (s.rowOpen = false → ∀ i : Int, -1 ≤ i → i < s.w → d.curAt i = s.curAt i)

/-- A sample the scan has still to pass. -/
def State.toCome (s : State) (y x : Nat) : Prop :=
  y < s.rows ∧ x < s.w ∧ (s.y < y ∨ (y = s.y ∧ (s.rowOpen = true → s.x ≤ x)))

/-- What is claimed of an encode under way, which ends in t after it wrote the bits given, and of every decode that
follows it. -/
def State.Ends (s t : State) (bits : Bits) : Prop :=
  (∃ n, core.run n s = .next t) ∧ t.status = .done ∧ t.issued = none ∧
    (∃ p ≤ 7, unstuff t.bw.sink = s.bw.stream ++ bits ++ List.replicate p false) ∧
    ∀ (d : State) (rest : Bits), d.Follows s → d.pending = bits ++ rest →
      ∃ (m : Nat) (u : State), core.run m d = .next u ∧ u.status = .done ∧ u.reg = t.reg ∧ u.ri = t.ri ∧
        u.runIndex = t.runIndex ∧ (∀ y x, s.toCome y x → u.outAt y x = s.srcAt y x) ∧
        ∀ y x, x < s.w → ¬s.toCome y x → u.outAt y x = d.outAt y x

/-- One step of the encoder before a run that ends, and the step or steps of every decoder beside it. -/
theorem State.Ends.step {s s' t : State} {a b : Bits} (h : s'.Ends t b) (hs : Machine.step s = .next s')
    (hb : s'.bw.stream = s.bw.stream ++ a) (hsrc : s'.src = s.src) (hw : s'.w = s.w)
    (hsub : ∀ y x, s'.toCome y x → s.toCome y x)
    (hd : ∀ (d : State) (rest : Bits), d.Follows s → d.pending = a ++ rest → ∃ u, Machine.step d = .next u ∧ u.Follows s' ∧
      u.pending = rest ∧ (∀ y x, s.toCome y x → ¬s'.toCome y x → u.outAt y x = s.srcAt y x) ∧
      ∀ y x, x < s.w → ¬s.toCome y x → u.outAt y x = d.outAt y x) : s.Ends t (a ++ b) := by
  obtain ⟨⟨n, h1⟩, h2, h3, ⟨p, h4, h5⟩, h6⟩ := h
  refine ⟨⟨n + 1, by rw [core_run_next hs, h1]⟩, h2, h3, ⟨p, h4, by rw [h5, hb]; simp only [List.append_assoc]⟩,
    fun d rest hf hp => ?_⟩
  obtain ⟨u, u1, u2, u3, u4, u5⟩ := hd d (b ++ rest) hf (by rw [hp, List.append_assoc])
  obtain ⟨m, v, v1, v2, v3, v4, v5, v6, v7⟩ := h6 u rest u2 u3
  refine ⟨m + 1, v, by rw [core_run_next u1, v1], v2, v3, v4, v5, fun y x hc => ?_, fun y x hx hc => ?_⟩
  · by_cases hc' : s'.toCome y x
    · rw [v6 y x hc']
      unfold State.srcAt
      rw [hsrc]
    · rw [v7 y x (by rw [hw]; exact hc.2.1) hc', u4 y x hc hc']
  · rw [v7 y x (by rw [hw]; exact hx) (fun h' => hc (hsub y x h')), u5 y x hx hc]

/-- A pixel. -/
theorem State.ScanInv.ends_pixel {s t t' : State} {b : Bits} (h : s.ScanInv) (hi : s.issued = none)
    (hb : s.status = .busy) (hdir : s.dir = .encode) (ho : s.rowOpen = true) (hx : s.x < s.w)
    (hs : Machine.step s = .next t) (he : t.Ends t' b) : ∃ a, s.Ends t' a := by
  obtain ⟨hm, hl, -, hy, hn, hbz, hbd, -⟩ := h
  obtain ⟨hmode, hw, hopen⟩ := hbz hb
  obtain ⟨hI, -, -⟩ := hn (by rw [hb]; decide)
  have hB := hbd hb hdir
  obtain ⟨t₁, a, e1, e2, -⟩ := State.encodeStep_coded hI hB (hopen ho) hx
  rw [step_encStep hi hb ho hx hdir, e1] at hs
  have hs' : Machine.step s = .next t₁ := by rw [step_encStep hi hb ho hx hdir, e1]; rfl
  obtain rfl : t₁ = t := by simpa using hs
  obtain ⟨hss, -, -, b1, b2, b3, b4, b5, b6, -⟩ := id e2
  have htw : t₁.w = s.w := hss.w_eq
  obtain ⟨a1, a2, a3, a4, a5, a6, a7, a8, a9, a10, a11⟩ := hss
  have hto : ∀ y x, t₁.toCome y x ↔ s.toCome y x ∧ ¬(y = s.y ∧ x < t₁.x) := by
    intro y x
    unfold State.toCome
    rw [a3, htw, a6, a10, ho]
    constructor
    · rintro ⟨c1, c2, c3⟩
      refine ⟨⟨c1, c2, c3.imp id fun c => ⟨c.1, fun _ => ?_⟩⟩, ?_⟩
      · have := c.2 rfl
        omega
      · rintro ⟨d1, d2⟩
        rcases c3 with c | c
        · omega
        · have := c.2 rfl
          omega
    · rintro ⟨⟨c1, c2, c3⟩, c4⟩
      refine ⟨c1, c2, c3.imp id fun c => ⟨c.1, fun _ => ?_⟩⟩
      by_contra hlt
      exact c4 ⟨c.1, by omega⟩
  refine ⟨a ++ b, he.step hs' (by rw [b4, Writer.stream_put hI.2.2.2.1]) a9 htw (fun y x hc => ((hto y x).mp hc).1) ?_⟩
  rintro d rest ⟨f1, f2, f3, f4, f5, -⟩ hp
  obtain ⟨t₂, a', g1, g2, -, g4⟩ := State.encodeStep_mirrored hI hB (hopen ho) hx hmode f1 f2
  rw [e1] at g1
  cases g1
  obtain rfl : a' = a := by
    have hbits : s.bw.put a' = s.bw.put a := by rw [← b4, g2.2.2.2.2.2.2.1]
    have := congrArg Writer.stream hbits
    rw [Writer.stream_put hI.2.2.2.1, Writer.stream_put hI.2.2.2.1] at this
    exact List.append_cancel_left this
  obtain ⟨m1, m2, m3, m4, m5, m6, -⟩ := id f1
  have hdw : d.w = s.w := congrArg BitVec.toNat m1
  obtain ⟨u, u1, ⟨⟨k1, k2, k3, k4, k5, k6, k7, k8, k9, k10, k11⟩, -, -, -, l1, l2, -, -, -, l3, l4⟩, -, u4⟩ := g4 rest hp
  have hux : u.x = t₁.x := u4.2.2.2.1
  have hb' : s.w < 65536 := s.width.isLt
  refine ⟨u, by rw [step_decStep f5 f3 (m6.trans ho) (by omega) f4, u1]; rfl,
    ⟨u4, l1, k5.trans f3, k1.trans f4, k11.trans f5, fun hr => ?_⟩, l2, fun y x hc hc' => ?_, fun y x hx' hc => ?_⟩
  · rw [a10, ho] at hr
    cases hr
  · have hyx : y = s.y ∧ x < t₁.x := by
      by_contra hne
      exact hc' ((hto y x).mpr ⟨hc, hne⟩)
    have hle : s.x ≤ x := by
      rcases hc.2.2 with c | c
      · omega
      · exact c.2 ho
    rw [hyx.1, ← m3]
    exact (l3 x (by omega) (by omega)).trans (by rw [m3])
  · refine l4 y x (by omega) fun ⟨c1, c2, c3⟩ => hc ⟨?_, hx', .inr ⟨by omega, fun _ => by omega⟩⟩
    have := hopen ho
    omega

/-- The end of a row. -/
theorem State.ends_rowEnd {s t' : State} {b : Bits} (hi : s.issued = none)
    (hb : s.status = .busy) (ho : s.rowOpen = true) (hx : ¬s.x < s.w)
    (he : State.Ends { s with y := s.y + 1, rowOpen := false } t' b) : ∃ a, s.Ends t' a := by
  have hto : ∀ y x, State.toCome { s with y := s.y + 1, rowOpen := false } y x ↔ s.toCome y x := by
    intro y x
    unfold State.toCome
    show y < s.rows ∧ x < s.w ∧ (s.y + 1 < y ∨ (y = s.y + 1 ∧ (false = true → s.x ≤ x))) ↔ _
    constructor
    · rintro ⟨c1, c2, c3⟩
      exact ⟨c1, c2, .inl (by rcases c3 with c | c <;> omega)⟩
    · rintro ⟨c1, c2, c3⟩
      refine ⟨c1, c2, ?_⟩
      rcases c3 with c | c
      · by_cases hlt : s.y + 1 < y
        · exact .inl hlt
        · exact .inr ⟨by omega, fun h' => by cases h'⟩
      · have := c.2 ho
        omega
  refine ⟨[] ++ b, he.step (step_rowEnd hi hb ho hx) (by rw [List.append_nil]) rfl rfl (fun y x hc => (hto y x).mp hc) ?_⟩
  rintro d rest ⟨f1, f2, f3, f4, f5, -⟩ hp
  obtain ⟨m1, m2, m3, m4, m5, m6, m7, m8, m9, m10, m11⟩ := f1
  have hdw : d.w = s.w := congrArg BitVec.toNat m1
  refine ⟨_, step_rowEnd f5 f3 (m6.trans ho) (by omega), ⟨⟨m1, m2, ?_, m4, m5, rfl, m7, m8, m9, m10, m11⟩, f2, f3, f4, f5,
    fun _ i i1 i2 => ?_⟩, hp, fun y x hc hc' => absurd ((hto y x).mpr hc) hc', fun _ _ _ _ => rfl⟩
  · show d.y + 1 = s.y + 1
    rw [m3]
  · have i2 : i < s.w := i2
    exact m11 i i1 (by omega)

/-- `ROW.START` passes no sample. -/
theorem State.toCome_rowStart {s : State} (ho : s.rowOpen = false) (y x : Nat) :
    s.rowStart.toCome y x ↔ s.toCome y x := by
  unfold State.toCome
  show y < s.rows ∧ x < s.w ∧ (s.y < y ∨ (y = s.y ∧ (true = true → 0 ≤ x))) ↔ _
  rw [ho]
  simp

/-- `ROW.START` keeps the line buffers in their canonical form. -/
theorem State.wf_rowStart {d : State} (h : Memory.wf d = true) : Memory.wf d.rowStart = true := by
  obtain ⟨h1, h2, h3⟩ := Memory.wf_iff.mp h
  have hsw : Memory.wf { d with prev := d.cur, cur := d.prev } = true := Memory.wf_iff.mpr ⟨h2, h1, h3⟩
  exact Memory.wf_setCur (Memory.wf_setPrev hsw _ _) _ _

/-- A decoder beside an encoder stays beside it over `ROW.START`. -/
theorem State.Follows.rowStart {d s : State} (h : d.Follows s) (hm : Memory.wf s = true) (hw : 1 ≤ s.w)
    (ho : s.rowOpen = false) : d.rowStart.Follows s.rowStart := by
  obtain ⟨f1, f2, f3, f4, f5, f6⟩ := h
  obtain ⟨m1, m2, m3, m4, m5, m6, m7, m8, m9, m10, m11⟩ := f1
  have hdw : d.w = s.w := congrArg BitVec.toNat m1
  have f6 := f6 ho
  refine ⟨⟨m1, m2, m3, rfl, rfl, rfl, m7, m8, m9, fun i i1 i2 => ?_, fun i i1 i2 => ?_⟩, State.wf_rowStart f2, f3, f4, f5,
    fun h' => by cases h'⟩
  · have i2 : i ≤ s.w := i2
    rw [State.prevAt_rowStart f2 i1, State.prevAt_rowStart hm i1, hdw, f6 _ (by omega) (by omega)]
    split_ifs
    · rfl
    · exact f6 i i1 (by omega)
  · have i2 : i < ((0 : Nat) : Int) := i2
    rw [State.curAt_rowStart f2 (by omega) i1, State.curAt_rowStart hm hw i1, if_pos (by omega), if_pos (by omega)]
    exact f6 0 (by omega) (by omega)

/-- The start of a row. -/
theorem State.ScanInv.ends_rowStart {s t' : State} {b : Bits} (h : s.ScanInv) (hi : s.issued = none)
    (hb : s.status = .busy) (ho : s.rowOpen = false) (hy : s.y < s.rows) (he : s.rowStart.Ends t' b) :
    ∃ a, s.Ends t' a := by
  have hto := State.toCome_rowStart ho
  refine ⟨[] ++ b, he.step (step_rowStart hi hb ho hy) (by rw [List.append_nil]; rfl) rfl rfl (fun y x hc => (hto y x).mp hc) ?_⟩
  intro d rest hf hp
  have hd : Machine.step d = .next d.rowStart := by
    obtain ⟨⟨-, m2, m3, -, -, m6, -⟩, -, f3, -, f5, -⟩ := hf
    exact step_rowStart f5 f3 (m6.trans ho) (by omega)
  exact ⟨_, hd, hf.rowStart h.1 (h.2.2.2.2.2.1 hb).2.1 ho, hp, fun y x hc hc' => absurd ((hto y x).mpr hc) hc',
    fun _ _ _ _ => rfl⟩

/-- The end of the scan. -/
theorem State.ScanInv.ends_scan {s : State} (h : s.ScanInv) (hi : s.issued = none) (hb : s.status = .busy)
    (hdir : s.dir = .encode) (ho : s.rowOpen = false) (hy : ¬s.y < s.rows) :
    s.Ends { s with bw := s.bw.flush, status := .done } [] := by
  obtain ⟨hI, -, -⟩ := h.2.2.2.2.1 (by rw [hb]; decide)
  obtain ⟨⟨p, hp, e⟩, -⟩ := Writer.flush_spec hI.2.2.2.1
  have hto : ∀ y x, ¬s.toCome y x := by
    rintro y x ⟨c1, c2, c3⟩
    rcases c3 with c | c <;> omega
  refine ⟨⟨1, by rw [core_run_next (step_encEnd hi hb ho hy hdir)]; rfl⟩, rfl, hi, ⟨p, hp, ?_⟩,
    fun d rest ⟨f1, f2, f3, f4, f5, f6⟩ hp => ?_⟩
  · show unstuff s.bw.flush.sink = _
    rw [e, List.append_nil]
  · obtain ⟨m1, m2, m3, m4, m5, m6, m7, m8, m9, m10, m11⟩ := f1
    exact ⟨1, { d with status := .done }, by rw [core_run_next (step_decEnd f5 f3 (m6.trans ho) (by omega) f4)]; rfl, rfl, m7, m8, m9,
      fun y x hc => absurd hc (hto y x), fun _ _ _ _ => rfl⟩

/-- An encode under way ends, and every decode that follows it ends with the same samples and contexts (R217, R218). -/
theorem State.ScanInv.ends {s : State} (h : s.ScanInv) (hi : s.issued = none) (hb : s.status = .busy)
    (hdir : s.dir = .encode) : ∃ t bits, s.Ends t bits := by
  suffices H : ∀ N (s : State), s.remaining < N → s.ScanInv → s.issued = none → s.status = .busy → s.dir = .encode →
      ∃ t bits, s.Ends t bits from H _ s (Nat.lt_succ_self _) h hi hb hdir
  intro N
  induction N with
  | zero => intro s hN; omega
  | succ N ih =>
    intro s hN h hi hb hdir
    obtain ⟨t, h1, h2, h3, h4, h5, h6, h7⟩ := h.driver hi hb
    rcases h7 with ⟨hbt, hmv⟩ | ⟨-, ho, hy⟩ | ⟨-, hd, -⟩
    · have hlt := h.remaining_lt hb h2 h5 h4 hmv
      obtain ⟨t', b, he⟩ := ih t (by omega) h2 h3 hbt (h6.trans hdir)
      refine ⟨t', ?_⟩
      cases ho : s.rowOpen with
      | true =>
        by_cases hx : s.x < s.w
        · exact h.ends_pixel hi hb hdir ho hx h1 he
        · rw [step_rowEnd hi hb ho hx] at h1
          cases h1
          exact State.ends_rowEnd hi hb ho hx he
      | false =>
        by_cases hy : s.y < s.rows
        · rw [step_rowStart hi hb ho hy] at h1
          cases h1
          exact h.ends_rowStart hi hb ho hy he
        · rw [step_encEnd hi hb ho hy hdir] at h1
          cases h1
          cases hbt
    · exact ⟨_, _, h.ends_scan hi hb hdir ho (by omega)⟩
    · rw [hdir] at hd
      cases hd

end Sys2Proof.Machine
end

