-- ==== Sys2Proof/Tests/Slice0.lean ====
section
/-! SUPPORT. Tests of the model against the spec's own vectors (spec/95_test_vectors.md, numbers 2.1 to 3.8) and against
words written out from spec/30_encoding.md, and, for every statement with hypotheses, concrete states and operands that meet
them. -/

namespace Sys2Proof.Tests

open Sys2Proof Sys2Proof.Machine

/-! ## Helpers -/

/-- What a next state shows; nothing where the step stopped. -/
def show? {α : Type} (o : Host.Outcome State Fault Refusal) (f : State → α) : Option α :=
  match o with
  | .next t => some (f t)
  | .fault _ => none
  | .refused _ => none

/-- The next state; power-on where the step stopped. -/
def nextState (o : Host.Outcome State Fault Refusal) : State := (show? o id).getD State.reset

/-- Does an outcome answer a next state? -/
def goesOn (o : Host.Outcome State Fault Refusal) : Bool := (show? o id).isSome

theorem eq_next {o : Host.Outcome State Fault Refusal} (h : goesOn o = true) : o = .next (nextState o) := by
  cases o with
  | next t => rfl
  | fault e => cases h
  | refused r => cases h

/-- A memory space that holds these cells from address 0 on. -/
def cells {w : Nat} (vs : List (BitVec w)) : Space w := vs.zipIdx.foldl (fun m p => writeCell m p.2 p.1) []

/-- An open row of an encode of one row of these samples. -/
def encoding (row : List Sample) : State :=
  { State.scanInit { State.reset with width := .ofNat 16 row.length, rows := 1, src := cells row } with rowOpen := true }

/-- An open row of a decode of one row of this width from these bytes. -/
def decoding (width : Nat) (bytes : List Byte) : State :=
  { State.scanInit { State.reset with
      dir := .decode, width := .ofNat 16 width, rows := 1, size := bytes.length, inp := cells bytes } with rowOpen := true }

/-- A regular context, as (A, B, C, N). -/
def ctx (a b c n : Int) : RegCtx := { a := .ofInt 32 a, b := .ofInt 32 b, c := .ofInt 8 c, n := .ofInt 32 n }

/-- The context as (A, B, C, N). -/
def ctxOf (c : RegCtx) : Int × Int × Int × Int := (c.a.toInt, c.b.toInt, c.c.toInt, c.n.toInt)

/-- A run-interruption context of type t, as (A, N, Nn). -/
def rctx (t : Fin 2) (a n nn : Int) : RunCtx :=
  { RunCtx.init t with a := .ofInt 32 a, n := .ofInt 32 n, nn := .ofInt 32 nn }

/-- The context as (A, N, Nn). -/
def rctxOf (c : RunCtx) : Int × Int × Int := (c.a.toInt, c.n.toInt, c.nn.toInt)

/-- A reader before these bytes. -/
def reader (bytes : List Byte) : State := { State.reset with size := bytes.length, inp := cells bytes }

/-- A reader that has fetched these bits, the last of its input. -/
def fetched (bits : Bits) : State := { State.reset with br := { State.reset.br with rq := bits } }

/-- SINK after these operations and `BW.FLUSH`, from an empty writer. -/
def flushed (is : List Instr) : Option (List Byte) :=
  show? (exec .bwFlush (is.foldl (fun s i => nextState (exec i s)) State.reset)) (·.bw.sink)

/-- n bits of one value. -/
abbrev rep (n : Nat) (b : Bool) : Bits := List.replicate n b

/-! ## Well-formedness: each check refuses an ill-formed instruction -/

theorem test_wf_gr : (Instr.gr 33 64 0 0).wf = false ∧ (Instr.gr 0 47 0 0).wf = false ∧ (Instr.gr 0 65 0 0).wf = false ∧
    (Instr.gr 0 64 47 0).wf = false ∧ (Instr.gr 2 64 0 4).wf = false ∧ (Instr.gr 32 64 46 4294967295).wf = true := by decide

theorem test_wf_esc : (Instr.esc 47 0).wf = false ∧ (Instr.esc 65 0).wf = false ∧ (Instr.esc 48 0).wf = true := by decide

theorem test_wf_runterm : (Instr.runterm 16 0).wf = false ∧ (Instr.runterm 3 8).wf = false ∧
    (Instr.runterm 15 32767).wf = true := by decide

theorem test_wf_bits : (Instr.bwWritebin 0 33).wf = false ∧ (Instr.brReadbin 33).wf = false ∧
    (Instr.brReadbin 32).wf = true := by decide

theorem test_wf_quant : (Instr.quant (-65536)).wf = false ∧ (Instr.quant 65536).wf = false ∧
    (Instr.quant 65535).wf = true := by decide

theorem test_wf_ctxsel : (Instr.ctxsel (-365)).wf = false ∧ (Instr.ctxsel 365).wf = false ∧
    (Instr.ctxsel (-364)).wf = true := by decide

theorem test_wf_context_zero : (Instr.rcGetk 0).wf = false ∧ (Instr.rcGetcorr 0 0).wf = false ∧
    (Instr.rcUpdate 0 0).wf = false ∧ (Instr.rcUpdate 1 0).wf = true := by decide

theorem test_wf_golomb : (Instr.grEnc 33 0 64).wf = false ∧ (Instr.grEnc 0 0 65).wf = false ∧
    (Instr.grEnc 0 65537 64).wf = true ∧ (Instr.grDec 33 64).wf = false ∧ (Instr.grDec 0 47).wf = false ∧
    (Instr.grEnc 0 65536 48).wf = true := by decide

theorem test_wf_command : (Instr.scanEncode 0 1).wf = false ∧ (Instr.scanEncode 65536 1).wf = false ∧
    (Instr.scanDecode 0 1 1).wf = false ∧ (Instr.scanDecode 65536 1 1).wf = false ∧
    (Instr.scanDecode 65535 0 0).wf = true := by decide

theorem test_wf_runlen : (Instr.encRunlen 65536 false).wf = false ∧ (Instr.encRunlen 0 true).wf = false ∧
    (Instr.decRunlen 0).wf = false ∧ (Instr.decRunlen 65536).wf = false ∧ (Instr.encRunlen 0 false).wf = true := by decide

/-! ## Decoding: words written out bit by bit from R91 and R95 to R98 -/

/-- R91: the byte 0x3E, its eight bits in stream order. -/
theorem test_decode_b8 : decode (.byte false) [false, false, true, true, true, true, true, false] = .ok (.b8 0x3E, []) := rfl

/-- R91, R103: after 0xFF, seven bits; bit 7 is dropped although it is 1. -/
theorem test_decode_b7 : decode (.byte true) [true, true, true, true, true, true, true, true] = .ok (.b7 0x7F, []) := rfl

/-- 2.6: (k, m, limit) = (2, 5, 64) is `0101`. -/
theorem test_decode_gr : decode (.golomb 2 64) [false, true, false, true, true] = .ok (.gr 2 64 1 1, [true]) := rfl

/-- 2.6: (0, 31, 48) is `0{31} 1` and the field 30. -/
theorem test_decode_esc : decode (.golomb 0 48) (rep 31 false ++ true :: (rep 11 false ++ [true, true, true, true, false])) =
    .ok (.esc 48 30, []) := rfl

/-- 2.7: `1`, at any run index. -/
theorem test_decode_runhit : decode (.run 3) [true, false] = .ok (.runhit, [false]) := rfl

/-- 2.7: i = 12, a run of 7 interrupted: `0 111`. -/
theorem test_decode_runterm : decode (.run 3) [false, true, true, true] = .ok (.runterm 3 7, []) := rfl

/-- R103: bits that end inside a codeword are the only ones that do not decode. -/
theorem test_decode_short : decode (.golomb 10 63) [false, true, true, true, true, true, false] = .error .endOfStream := rfl

/-- R108: an operation has no bits, so no table word names one. -/
theorem test_table_word : decodeTableWord 8 0x3E = some (.b8 0x3E) ∧ decodeTableWord 0 0 = none := by decide

/-! ## Byte formats and codewords as instructions -/

theorem test_b8 : show? (exec (.b8 0xFF) State.reset) (fun t => (t.bw.sink, t.bw.ffpend)) = some ([0xFF], true) := by decide

theorem test_b7 : show? (exec (.b7 0x40) { decoding 1 [] with br := { rq := [], ffpend := true, pos := 1 } })
    (fun t => (t.br.rq, t.br.ffpend)) = some ([true, false, false, false, false, false, false], false) := by decide

/-- 2.6: (10, 1999, 63) is `01 1111001111`. -/
theorem test_gr : show? (exec (.gr 10 63 1 975) State.reset) (·.bw.stream) =
    some [false, true, true, true, true, true, false, false, true, true, true, true] := by decide

/-- 2.6: an escape field of 46 assembles to 47. -/
theorem test_esc : show? (exec (.esc 64 46) (decoding 1 [])) (·.m) = some 47 := by decide

/-- 2.7: with rem = 8 at i = 12 the chunk of 8 is taken and the index becomes 13. -/
theorem test_runhit : show? (exec .runhit { State.reset with runIndex := 12, rem := 8 })
    (fun t => (t.bw.stream, t.rem, t.runIndex)) = some ([true], 0, 13) := by decide

/-- 2.9: at idx 4 of 5, one more sample leaves no room: `InvalidRunLength`, FAULTINFO = 5. -/
theorem test_runterm : show? (exec (.runterm 1 1) { decoding 5 [] with idx := 4 })
    (fun t => (t.status, t.faultKind, t.faultInfo)) = some (.fault, .invalidRunLength, 5) := by decide

/-! ## Bit writer (2.1) -/

theorem test_bw_writebit : flushed [.bwWritebit true, .bwWritebit false, .bwWritebit true] = some [0xa0] := by decide

theorem test_bw_writebin : flushed [.bwWritebin 0xffffffff 32] = some [0xff, 0x7f, 0xff, 0x7f, 0xc0] := by decide

theorem test_bw_writebin_unstuffed : flushed [.bwWritebin 0x7f8 12] = some [0x7f, 0x80] := by decide

theorem test_bw_writeunary : flushed [.bwWriteunary 3] = some [0x10] := by decide

theorem test_bw_drain : show? (exec .bwDrain { State.reset with bw := { wq := rep 9 true, ffpend := false, sink := [] } })
    (fun t => (t.bw.sink, t.bw.wq, t.bw.ffpend)) = some ([0xff], [true], true) := by decide

theorem test_bw_flush_final_ff : flushed [.bwWritebin 0xff 8] = some [0xff, 0x00] := by decide

theorem test_bw_flush_after_ff : flushed [.bwWritebin 0xff 8, .bwWritebit true] = some [0xff, 0x40] := by decide

/-! ## Bit reader (2.1) -/

/-- Twenty-two bits of `ff ff 80`: fifteen ones, then seven zeros; the last is 0 at position 3. -/
theorem test_br_readbit : show? (exec .brReadbit (nextState (exec (.brReadbin 21) (reader [0xff, 0xff, 0x80]))))
    (fun t => (t.ret, t.br.pos)) = some ([0], 3) := by decide

theorem test_br_readbit_end : show? (exec .brReadbit (nextState (exec (.brReadbin 8) (reader [0x3e]))))
    (fun t => (t.status, t.faultKind, t.faultInfo)) = some (.fault, .unexpectedEndOfStream, 1) := by decide

theorem test_br_readbin : show? (exec (.brReadbin 16) (reader [0xff, 0x7f, 0x80])) (fun t => (t.ret, t.br.pos)) =
    some ([65535], 3) := by decide

theorem test_br_readbin_none : show? (exec (.brReadbin 0) (reader [])) (fun t => (t.ret, t.br.pos, t.status)) =
    some ([0], 0, .idle) := by decide

theorem test_br_readunary : show? (exec .brReadunary (reader [0x10])) (fun t => (t.ret, t.br.pos)) = some ([3], 1) := by decide

/-! ## Quantizer and context id (2.2) -/

theorem test_quant : ([0, 1, -1, 17, 18, -17, -18, 66, 67, -66, -67, 275, 276, -275, -276, 65535, -65535] : List Int).map
    (fun d => show? (exec (.quant d) State.reset) (·.result)) =
    ([0, 1, -1, 1, 2, -1, -2, 2, 3, -2, -3, 3, 4, -3, -4, 4, -4] : List Int).map some := by decide

theorem test_ctxid : show? (exec (.ctxid 300 40 20 40) State.reset) (·.q) = some 14 := by decide

theorem test_ctxid_levels : show? (exec (.ctxid 0 0 65535 65535) State.reset) (·.q) = some 292 := by decide

theorem test_ctxsel : show? (exec (.ctxsel (-171)) State.reset) (fun t => (t.sign, t.ci)) = some (.minus, 171) := by decide

/-! ## Predictor (2.3) -/

theorem test_predict : show? (exec (.predict 10 20 15) State.reset) (·.ret) = some [15] := by decide

theorem test_predict_above : show? (exec (.predict 10 20 25) State.reset) (·.ret) = some [10] := by decide

theorem test_corrpred : show? (exec (.corrpred 1063 (-1) .minus) State.reset) (·.px) = some 1064 := by decide

theorem test_corrpred_clamp : show? (exec (.corrpred 65500 (-128) .minus) State.reset) (·.px) = some 65535 := by decide

theorem test_modrange : show? (exec (.modrange 32768) State.reset) (·.ret) = some [-32768] := by decide

theorem test_modrange_below : show? (exec (.modrange (-32769)) State.reset) (·.ret) = some [32767] := by decide

theorem test_errval : show? (exec (.errval 33768 1000 .minus) State.reset) (·.e) = some (-32768) := by decide

theorem test_recon : show? (exec (.recon 65535 1 .plus) State.reset) (·.ret) = some [0] := by decide

theorem test_recon_minus : show? (exec (.recon 0 1 .minus) State.reset) (·.ret) = some [65535] := by decide

/-! ## Regular context (2.4) -/

theorem test_rc_init : show? (exec .rcInit (State.reset.withReg 364 (ctx 5 (-1) 3 7))) (fun t => ctxOf (t.reg.get 364)) =
    some (1024, 0, 0, 1) := by decide

theorem test_rc_getk : show? (exec (.rcGetk 1) (State.reset.withReg 1 (ctx 65 0 0 64))) (·.k) = some 1 := by decide

theorem test_rc_getk_large : show? (exec (.rcGetk 1) (State.reset.withReg 1 (ctx 2064384 0 0 33))) (·.k) = some 16 := by decide

theorem test_rc_getcorr : show? (exec (.rcGetcorr 1 0) (State.reset.withReg 1 (ctx 0 (-2) 0 4))) (·.ret) = some [1] := by decide

theorem test_rc_getcorr_zero : show? (exec (.rcGetcorr 1 0) (State.reset.withReg 1 (ctx 0 (-1) 0 3))) (·.ret) = some [0] := by
  decide

theorem test_maperr : show? (exec (.maperr (-32768)) State.reset) (·.m) = some 65535 := by decide

theorem test_unmaperr : show? (exec (.unmaperr 519) State.reset) (·.e) = some (-260) := by decide

/-- N = RESET: both halved, with the floor; then the bias step. -/
theorem test_rc_update_halving : show? (exec (.rcUpdate 4 7) (State.reset.withReg 4 (ctx 100 (-3) 5 64)))
    (fun t => ctxOf (t.reg.get 4)) = some (53, -31, 6, 33) := by decide

theorem test_rc_update_overflow :
    show? (exec (.rcUpdate 4 (-3154116608)) (State.reset.withReg 4 (ctx 450118144 (-5) (-5) 6)))
      (fun t => (t.status, t.faultKind, t.faultInfo)) = some (.fault, .contextOverflow, 4) := by decide

/-! ## Run-interruption context (2.5) -/

theorem test_ri_init : show? (exec .riInit (State.reset.withRi 1 (rctx 1 5 3 2))) (fun t => rctxOf (t.ri.get 1)) =
    some (1024, 1, 0) := by decide

theorem test_ri_select : show? (exec (.riSelect 20 10) State.reset) (·.ret) = some [0] := by decide

theorem test_ri_errval : show? (exec (.riErrval 25 20 10) State.reset) (·.ret) = some [-15, -1] := by decide

theorem test_ri_errval_flat : show? (exec (.riErrval 32768 0 0) State.reset) (·.ret) = some [-32768, 1] := by decide

theorem test_ri_getk : show? (exec (.riGetk 1) (State.reset.withRi 1 (rctx 1 66 35 0))) (·.k) = some 2 := by decide

theorem test_ri_map : show? (exec (.riMap 0 2 0) (State.reset.withRi 0 (rctx 0 3 4 1))) (·.ret) = some [1] := by decide

theorem test_ri_emerr : show? (exec (.riEmerr 1 (-1) 0) (State.reset.withRi 1 (rctx 1 2 4 2))) (·.m) = some 0 := by decide

theorem test_ri_emerr_largest : show? (exec (.riEmerr 0 (-32768) 0) (State.reset.withRi 0 (rctx 0 3 4 1))) (·.m) =
    some 65536 := by decide

theorem test_ri_unmap : show? (exec (.riUnmap 1 0 0) (State.reset.withRi 1 (rctx 1 2 4 0))) (·.e) = some 1 := by decide

theorem test_ri_unmap_minus : show? (exec (.riUnmap 0 3 0) (State.reset.withRi 0 (rctx 0 3 4 2))) (·.e) = some (-2) := by
  decide

theorem test_ri_update : show? (exec (.riUpdate 1 (-3) 5) (State.reset.withRi 1 (rctx 1 2 64 10)))
    (fun t => rctxOf (t.ri.get 1)) = some (2, 33, 5) := by decide

theorem test_ri_recon : show? (exec (.riRecon 20 10 (-15)) State.reset) (·.ret) = some [25] := by decide

/-! ## Golomb-Rice codewords (2.6) -/

/-- The longest short form of k = 3, limit = 63. -/
theorem test_gr_enc : show? (exec (.grEnc 3 367 63) State.reset) (·.bw.stream) =
    some (rep 45 false ++ [true, true, true, true]) := by decide

/-- One more is an escape with field 367. -/
theorem test_gr_enc_escape : show? (exec (.grEnc 3 368 63) State.reset) (·.bw.stream) =
    some (rep 46 false ++ true :: (rep 7 false ++ [true, false, true, true, false, true, true, true, true])) := by decide

/-- R180, R121: m − 1 = 65536 leaves sixteen zeros in the escape field. -/
theorem test_gr_enc_truncated : show? (exec (.grEnc 0 65537 64) State.reset) (·.bw.stream) =
    some (rep 47 false ++ true :: rep 16 false) := by decide

/-- A short form no encoder emits: m = (46 << 27) + 2^27 - 1. -/
theorem test_gr_dec : show? (exec (.grDec 27 64) (fetched (rep 46 false ++ rep 28 true))) (·.m) = some 6308233215 := by decide

/-- More zeros than T are still an escape (R181). -/
theorem test_gr_dec_long : show? (exec (.grDec 0 64) (fetched (rep 50 false ++ true :: (rep 15 false ++ [true])))) (·.m) =
    some 2 := by decide

/-! ## The scan driver -/

theorem test_scan_encode : show? (exec (.scanEncode 4 2) State.reset)
    (fun t => (t.status, t.dir, t.width, t.rows, t.mode)) = some (.busy, .encode, 4, 2, .regular) := by decide

theorem test_scan_decode : show? (exec (.scanDecode 4 2 9) State.reset)
    (fun t => (t.status, t.dir, t.width, t.rows, t.size)) = some (.busy, .decode, 4, 2, 9) := by decide

theorem test_scan_init : show? (exec .scanInit { State.reset with runIndex := 7, y := 3, x := 2, prev := [(0, 1)] })
    (fun t => (t.runIndex, [t.y, t.x], t.prev)) = some (0, [0, 0], []) := by decide

/-- 3.3: row 1 of P3 starts with the row above in PREV, PREV[3] = PREV[2] = 40 and CUR[-1] = PREV[0] = 10. -/
theorem test_row_start : show? (exec .rowStart { encoding [10, 20, 40] with cur := [(1, 10), (2, 20), (3, 40)], x := 3 })
    (fun t => (t.prev, t.cur, t.x)) = some ([(1, 10), (2, 20), (3, 40), (4, 40)], [(0, 10)], 0) := by decide

/-- 3.3: the neighbours of (1, 2). -/
theorem test_nbr_fetch : show? (exec .nbrFetch { encoding [10, 20, 40] with
      prev := [(1, 10), (2, 20), (3, 40), (4, 40)], cur := [(0, 10), (1, 10), (2, 300)], x := 2 })
    (fun t => (t.ra, t.rb, t.rc, t.rd)) = some (300, 40, 20, 40) := by decide

/-- 3.1 (P1): both parts of the first sample. -/
theorem test_enc_step : show? (exec .encStep (encoding [1000]))
    (fun t => (t.bw.stream, t.curAt 0, rctxOf (t.ri.get 1), t.runIndex)) =
    some ([false, false, true, true, true, true, true, false, false, true, true, true, true], 1000, (2023, 2, 0), 0) := by
  decide

/-- 3.3: (1, 1) of P3. -/
theorem test_enc_regular : show? (exec .encRegular { encoding [10, 300, 40] with
      ra := 10, rb := 20, rc := 10, rd := 40, q := 171, x := 1 })
    (fun t => (t.k, [t.e, t.m], ctxOf (t.reg.get 171))) = some (10, [280, 560], (1304, 0, 1, 2)) := by decide

/-- 3.7 (P7): a run of two, interrupted, and its interruption sample. -/
theorem test_enc_run : show? (exec .encRun (encoding [0, 0, 1])) (fun t => (t.bw.stream, t.runIndex, t.x, t.mode)) =
    some ([true, true, false, true] ++ rep 9 false ++ [true], 1, 3, .regular) := by decide

/-- 2.7: i = 31, 40000 samples, interrupted: `1 0` and 7232 in 15 bits. -/
theorem test_enc_runlen : show? (exec (.encRunlen 40000 false) { State.reset with runIndex := 31 })
    (fun t => (t.bw.stream, t.runIndex)) = some ([true, false, false, false, true, true, true, false, false, false, true] ++
      rep 6 false, 31) := by decide

/-- 2.7: i = 5, four samples to the end of the row: `11`, the index 7. -/
theorem test_enc_runlen_eol : show? (exec (.encRunlen 4 true) { State.reset with runIndex := 5 })
    (fun t => (t.bw.stream, t.runIndex)) = some ([true, true], 7) := by decide

theorem test_runidx_inc : show? (exec .runidxInc { State.reset with runIndex := 31 }) (·.runIndex) = some 31 := by decide

theorem test_runidx_dec : show? (exec .runidxDec State.reset) (·.runIndex) = some 0 := by decide

/-- 3.7: (1, 1) of P7, the second use of the entry. -/
theorem test_enc_ripixel : show? (exec .encRipixel { (encoding [0, 500, 0]).withRi 1 (rctx 1 1024 2 0) with
      x := 1, runIndex := 2 })
    (fun t => ([t.e, t.m], rctxOf (t.ri.get 1), t.runIndex)) = some ([500, 999], (1523, 3, 0), 1) := by decide

/-- R172, R173, R175, R177: x = Ra = Rb has E = 0, M = −1, and takes 1 off RI[1].A; its codeword is not compared. -/
theorem test_enc_ripixel_no_interruption : show? (exec .encRipixel { encoding [0] with runIndex := 2 })
    (fun t => ([t.e, t.m, t.x], t.k, rctxOf (t.ri.get 1), t.curAt 0, t.runIndex)) =
    some ([0, -1, 1], 10, (1023, 2, 0), 0, 1) := rfl

theorem test_row_end : show? (exec .rowEnd (encoding [5])) (fun t => (t.y, t.rowOpen)) = some (1, false) := by decide

/-- 3.1 (P1): the bytes. -/
theorem test_enc_end : show? (exec .encEnd (nextState (exec .encStep (encoding [1000])))) (fun t => (t.bw.sink, t.status)) =
    some ([0x3e, 0x78], .done) := by decide

/-- 3.1: the decode of P1; bytes after its own are never fetched. -/
theorem test_dec_step : show? (exec .decStep (decoding 1 [0x3e, 0x78, 0xaa, 0xbb])) (fun t => (t.outAt 0 0, t.br.pos)) =
    some (1000, 2) := by decide

/-- 2.9: `f4` at WIDTH 5. -/
theorem test_dec_runlen : show? (exec (.decRunlen 5) (reader [0xf4])) (fun t => (t.faultKind, t.faultInfo, t.runIndex)) =
    some (.invalidRunLength, 5, 4) := by decide

/-- 2.7: i = 12, eight samples then an interruption: `1 0 000`. -/
theorem test_dec_runlen_run : show? (exec (.decRunlen 9) { fetched [true, false, false, false, false] with runIndex := 12 })
    (fun t => (t.ret, t.runIndex)) = some ([8, 0], 13) := by decide

/-- 3.3: (1, 1) of P3 decoded from its codeword `1 1000110000`. -/
theorem test_dec_regular : show? (exec .decRegular { decoding 3 [] with
      ra := 10, rb := 20, rc := 10, rd := 40, q := 171, x := 1,
      br := { rq := [true, true, false, false, false, true, true, false, false, false, false], ffpend := false, pos := 0 } })
    (fun t => (t.e, t.outAt 0 1, ctxOf (t.reg.get 171))) = some (280, 300, (1304, 0, 1, 2)) := by decide

/-- 3.8: a row of two zeros is `11`. -/
theorem test_dec_run : show? (exec .decRun { decoding 2 [0xc0] with ra := 7 })
    (fun t => (t.out, t.runIndex, t.x, t.mode)) = some ([(0, 7), (1, 7)], 2, 2, .regular) := by decide

/-- 2.9: `3e` after its first bit, at WIDTH 1: too few bits for the codeword. -/
theorem test_dec_ripixel : show? (exec .decRipixel (nextState (exec .brReadbit (decoding 1 [0x3e]))))
    (fun t => (t.status, t.faultKind, t.faultInfo)) = some (.fault, .unexpectedEndOfStream, 1) := by decide

/-- 3.1: the interruption sample of P1. -/
theorem test_dec_ripixel_sample : show? (exec .decRipixel (nextState (exec .brReadbit (decoding 1 [0x3e, 0x78]))))
    (fun t => (t.m, t.e, t.outAt 0 0, t.x)) = some (1999, 1000, 1000, 1) := by decide

theorem test_dec_end : show? (exec .decEnd (decoding 1 [])) (·.status) = some .done := by decide

/-- 2.9: a scan of no rows is done at its first step, no bit read. -/
theorem test_step_empty_scan : show? (step (nextState (exec (.scanDecode 1 0 0) State.reset))) (fun t => (t.status, t.br.pos)) =
    some (.done, 0) := by decide

/-- A table word placed runs at the very next step, the first after power-on. -/
theorem test_step_word : show? (step (State.reset.withFetchWord 8 0x3E)) (fun t => (t.bw.sink, t.issued)) =
    some ([0x3E], none) := by decide

/-! ## What the statements assume: concrete states and operands that meet it -/

theorem meets_DecodeInvertsEncode_byte : (Expect.byte false).admits (.b8 0xFF) = true ∧ (Instr.b8 0xFF).wf = true ∧
    encode (.b8 0xFF) = some (rep 8 true) := by decide

theorem meets_DecodeInvertsEncode_stuffed : (Expect.byte true).admits (.b7 0x7F) = true ∧ (Instr.b7 0x7F).wf = true ∧
    encode (.b7 0x7F) = some (false :: rep 7 true) := by decide

theorem meets_DecodeInvertsEncode_golomb : (Expect.golomb 2 48).admits (.gr 2 48 30 3) = true ∧
    (Instr.gr 2 48 30 3).wf = true ∧ encode (.gr 2 48 30 3) = some (rep 30 false ++ [true, true, true]) := by decide

theorem meets_DecodeInvertsEncode_escape : (Expect.golomb 32 64).admits (.esc 64 0xFFFF) = true ∧
    (Instr.esc 64 0xFFFF).wf = true ∧ encode (.esc 64 0xFFFF) = some (rep 47 false ++ true :: rep 16 true) := by decide

theorem meets_DecodeInvertsEncode_run : (Expect.run 15).admits (.runterm 15 32767) = true ∧
    (Instr.runterm 15 32767).wf = true ∧ encode (.runterm 15 32767) = some (false :: rep 15 true) ∧
    (Expect.run 15).admits .runhit = true ∧ encode .runhit = some [true] := by decide

theorem meets_DecodedBitsAreAnEncoding_byte : decode (.byte true) (rep 9 true) = .ok (.b7 0x7F, [true]) := rfl

theorem meets_DecodedBitsAreAnEncoding_golomb : (32 : Nat) ≤ 32 ∧ limitOk 48 = true ∧
    decode (.golomb 32 48) (rep 40 false ++ rep 17 true) = .ok (.esc 48 0xFFFF, []) := ⟨by decide, by decide, rfl⟩

theorem meets_DecodedBitsAreAnEncoding_run : (15 : Nat) ≤ 15 ∧ decode (.run 15) (false :: rep 15 true) =
    .ok (.runterm 15 32767, []) := ⟨by decide, rfl⟩

theorem meets_FlushedWriterHoldsStuff : ∃ t, State.reset.bw = { wq := [], ffpend := false, sink := [] } ∧
    exec .bwFlush { State.reset with bw := [[true], [false, true]].foldl Writer.put State.reset.bw } = .next t :=
  ⟨_, rfl, eq_next (by decide)⟩

theorem meets_WritesAppendTheirBits : (32 : Nat) ≤ 32 ∧ State.reset.bw.flagOk = true := by decide

theorem meets_DrainFormsBytes_few : State.reset.bw.wq.length < (if State.reset.bw.ffpend then 7 else 8) := by decide

theorem meets_DrainFormsBytes_eight : ∃ (w : Writer) (q rest : Bits), w.wq = q ++ rest ∧
    q.length = (if w.ffpend then 7 else 8) ∧ (0xFF : Byte) = BitVec.ofNat 8 (valOf q) :=
  ⟨{ wq := rep 8 true, ffpend := false, sink := [] }, rep 8 true, [], by decide⟩

theorem meets_DrainFormsBytes_seven : ∃ (w : Writer) (q rest : Bits), w.wq = q ++ rest ∧
    q.length = (if w.ffpend then 7 else 8) ∧ (0x7F : Byte) = BitVec.ofNat 8 (valOf q) :=
  ⟨{ wq := rep 8 true, ffpend := true, sink := [0xFF] }, rep 7 true, [true], by decide⟩

theorem meets_FlushPadsAndStuffs : ({ wq := [true], ffpend := false, sink := [] } : Writer).drain.wq ≠ [] ∧
    ({ wq := rep 8 true, ffpend := false, sink := [] } : Writer).drain = { wq := [], ffpend := true, sink := [0xFF] } ∧
    State.reset.bw.drain = { wq := [], ffpend := false, sink := [] } ∧ State.reset.bw.flagOk = true := by decide

theorem meets_PseudoOperationsAgree : (31 : Nat) + 1 ≤ 32 ∧ (32 : Nat) ≤ 32 ∧ State.reset.status ≠ .fault := by decide

theorem meets_ReadsTakeTheNextBits_fetched : (fetched [true]).br.rq = [true] := rfl

theorem meets_ReadsTakeTheNextBits_byte : (reader [0xFF]).br.rq = [] ∧ (reader [0xFF]).br.pos < (reader [0xFF]).size ∧
    (0xFF : Byte) = readCell (reader [0xFF]).inp (reader [0xFF]).br.pos ∧
    bitsOf 8 (0xFF : Byte).toNat = true :: rep 7 true ∧ bitsOf 7 ((0xFF : Byte).toNat % 128) = true :: rep 6 true := by decide

theorem meets_ReadsTakeTheNextBits_end : (reader []).br.rq = [] ∧ (reader []).size ≤ (reader []).br.pos ∧
    (reader []).br.pos ≤ (reader []).size ∧ (reader []).pending.length < 1 ∧ true ∉ (reader []).pending := by decide

theorem meets_ReadsTakeTheNextBits_number : (32 : Nat) ≤ 32 ∧ (rep 32 true).length = 32 ∧
    (reader [0xFF, 0xFF, 0xFF, 0xFF, 0xFF]).pending = rep 32 true ++ rep 4 true := by decide

theorem meets_ReadsTakeTheNextBits_unary : (reader [0x01]).pending = List.replicate 7 false ++ true :: [] := by decide

theorem meets_ContextIdOperations : (-65535 : Int) ≤ -65535 ∧ (-65535 : Int) ≤ -276 ∧ (65535 : Int) ≤ 65535 ∧
    (276 : Int) ≤ 65535 ∧ (-364 : Int) ≤ -364 ∧ (364 : Int) ≤ 364 := by decide

theorem meets_ContextIdLaws : contextId 10 20 10 40 = contextId 10 20 10 50 ∧ (-276 : Int) ≤ -275 := by decide

theorem meets_PredictAndCorrect : max (20 : Sample).toNat (10 : Sample).toNat ≤ (20 : Sample).toNat ∧
    (10 : Sample).toNat < max (20 : Sample).toNat (10 : Sample).toNat ∧
    (10 : Sample).toNat ≤ min (20 : Sample).toNat (10 : Sample).toNat ∧
    min (20 : Sample).toNat (10 : Sample).toNat < (11 : Sample).toNat := by decide

theorem meets_ReconstructionInvertsResidual : ∃ x ra rb : Sample, ra = rb ∧ x ≠ ra := ⟨32768, 0, 0, by decide⟩

theorem meets_GolombParameterIsLeast :
    1 ≤ ((State.reset.withReg 364 (ctx 2147483647 0 0 1)).reg.get 364).n.toInt ∧
    1 ≤ ((State.reset.withRi 1 (rctx 1 2147483647 1 0)).ri.get 1).n.toInt := by decide

theorem meets_CorrectionAndMapping : (0 : Nat) % 2 = 0 ∧ (65535 : Nat) % 2 = 1 := by decide

theorem meets_ResidualMappingLaws : (-32768 : Int) ≤ -32768 ∧ (-32768 : Int) ≤ 32767 ∧ (1 : Nat) ≤ 1 ∧
    mapErr (-32768) = 65535 := by decide

theorem meets_RcUpdateFiveSteps_halving : ∃ (s : State) (e a b n : Int), 1 ≤ (s.reg.get 4).n.toInt ∧
    (s.reg.get 4).n.toInt < 2147483647 ∧ (s.reg.get 4).n.toInt = 64 ∧
    a = (if (s.reg.get 4).n.toInt = 64 then ((s.reg.get 4).a.toInt + |e|) / 2 else (s.reg.get 4).a.toInt + |e|) ∧
    b = (if (s.reg.get 4).n.toInt = 64 then ((s.reg.get 4).b.toInt + e) / 2 else (s.reg.get 4).b.toInt + e) ∧
    n = (if (s.reg.get 4).n.toInt = 64 then (s.reg.get 4).n.toInt / 2 + 1 else (s.reg.get 4).n.toInt + 1) ∧
    (s.reg.get 4).a.toInt + |e| ≤ 2147483647 ∧ -2147483648 ≤ (s.reg.get 4).b.toInt + e ∧
    (s.reg.get 4).b.toInt + e ≤ 2147483647 :=
  ⟨State.reset.withReg 4 (ctx 100 (-3) 5 64), 7, 53, 2, 33, by decide⟩

theorem meets_RcUpdateFiveSteps_overflow :
    ((State.reset.withReg 4 (ctx 2147483647 0 0 1)).reg.get 4).a.toInt + |(1 : Int)| > 2147483647 ∧
    ((State.reset.withReg 4 (ctx 0 (-2147483648) 0 1)).reg.get 4).b.toInt + (-1) < -2147483648 ∧
    ((State.reset.withReg 4 (ctx 0 2147483647 0 1)).reg.get 4).b.toInt + 1 > 2147483647 := by decide

theorem meets_RunInterruptionResidual : ∃ (ra rb : Sample) (base sg : Int),
    base = (if ra = rb then (ra.toNat : Int) else rb.toNat) ∧ sg = (if rb.toNat < ra.toNat then -1 else 1) :=
  ⟨65535, 0, 0, -1, by decide⟩

theorem meets_RunInterruptionMapping : ∃ (em temp mp ab c : Nat), temp = em + (1 : Fin 2).val ∧ mp = temp % 2 ∧
    ab = (temp + mp) / 2 ∧
    c = (if (0 : Nat) ≠ 0 ∨ 2 * (State.reset.ri.get 1).nn.toInt ≥ (State.reset.ri.get 1).n.toInt then 1 else 0) :=
  ⟨65536, 65537, 1, 32769, 0, by decide⟩

theorem meets_RunInterruptionMappingIsBijective : ((1 : Fin 2) = 1 → (-1 : Int) ≠ 0) ∧ ((0 : Fin 2) = 1 → (0 : Int) ≠ 0) := by
  decide

theorem meets_RiUpdateAccumulates_halving : ∃ (s : State) (a nn : Int), 1 ≤ (s.ri.get 1).n.toInt ∧
    (s.ri.get 1).n.toInt < 2147483647 ∧ 0 ≤ (s.ri.get 1).nn.toInt ∧ (s.ri.get 1).nn.toInt < 2147483647 ∧
    a = (s.ri.get 1).a.toInt + (((5 : Nat) : Int) + 1 - (1 : Fin 2).val) / 2 ∧
    nn = (s.ri.get 1).nn.toInt + (if (-3 : Int) < 0 then 1 else 0) ∧ a ≤ 2147483647 ∧
    (s.ri.get 1).n.toInt = (s.ri.get 1).resetThreshold.toInt :=
  ⟨State.reset.withRi 1 (rctx 1 2 64 10), 4, 11, by decide⟩

theorem meets_RiUpdateAccumulates_counting : ∃ (s : State) (a nn : Int), 1 ≤ (s.ri.get 0).n.toInt ∧
    (s.ri.get 0).n.toInt < 2147483647 ∧ 0 ≤ (s.ri.get 0).nn.toInt ∧ (s.ri.get 0).nn.toInt < 2147483647 ∧
    a = (s.ri.get 0).a.toInt + (((65536 : Nat) : Int) + 1 - (0 : Fin 2).val) / 2 ∧
    nn = (s.ri.get 0).nn.toInt + (if (-32768 : Int) < 0 then 1 else 0) ∧ a ≤ 2147483647 ∧
    (s.ri.get 0).n.toInt ≠ (s.ri.get 0).resetThreshold.toInt :=
  ⟨State.reset, 33792, 1, by decide⟩

theorem meets_RiUpdateAccumulates_overflow : ∃ (s : State) (a : Int), 1 ≤ (s.ri.get 0).n.toInt ∧
    a = (s.ri.get 0).a.toInt + (((1 : Nat) : Int) + 1 - (0 : Fin 2).val) / 2 ∧ a > 2147483647 :=
  ⟨State.reset.withRi 0 (rctx 0 2147483647 1 0), 2147483648, by decide⟩

theorem meets_UpdatesKeepContextBounds : (State.reset.scanInit.reg.get 364).Inv ∧ (State.reset.scanInit.reg.get 364).Bounded ∧
    |(-32768 : Int)| ≤ 32768 ∧ (State.reset.scanInit.ri.get 1).Inv 1 ∧ (State.reset.scanInit.ri.get 1).Bounded ∧
    (65536 : Nat) ≤ 65536 :=
  ⟨(State.inv_scanInit (s := State.reset) (by decide)).1 364, (State.bounded_scanInit State.reset).1 364, by decide,
    (State.inv_scanInit (s := State.reset) (by decide)).2.1 1, (State.bounded_scanInit State.reset).2 1, le_rfl⟩

theorem meets_ContextOverflowExactly : State.reset.status ≠ .fault ∧ 1 ≤ (State.reset.reg.get 364).n.toInt ∧
    (State.reset.reg.get 364).n.toInt ≤ 64 ∧ 1 ≤ (State.reset.ri.get 1).n.toInt ∧ (State.reset.ri.get 1).n.toInt ≤ 64 := by
  decide

theorem meets_GrEncWritesCodeword_short : (32 : Nat) ≤ 32 ∧ (48 : Nat) ≤ 48 ∧ (48 : Nat) ≤ 64 ∧ State.reset.status ≠ .fault ∧
    65536 / 2 ^ 32 < 48 - 17 ∧ State.reset.bw.flagOk = true := by decide

theorem meets_GrEncWritesCodeword_escape : (0 : Nat) ≤ 32 ∧ (48 : Nat) ≤ 64 ∧ (64 : Nat) ≤ 64 ∧ State.reset.status ≠ .fault ∧
    ¬65536 / 2 ^ 0 < 64 - 17 ∧ ¬65537 / 2 ^ 0 < 64 - 17 := by decide

theorem meets_GrDecReadsCodeword_escape : ∃ (h : Nat) (v rest : Bits), (fetched (rep 47 false ++ rep 17 true)).pending =
    List.replicate h false ++ true :: (v ++ rest) ∧ 64 - 17 ≤ h ∧ v.length = 16 :=
  ⟨47, rep 16 true, [], by decide⟩

theorem meets_GrDecReadsCodeword_short_form : ∃ (h : Nat) (v rest : Bits), (fetched (rep 46 false ++ [true, true])).pending =
    List.replicate h false ++ true :: (v ++ rest) ∧ h < 64 - 17 ∧ v.length = 1 :=
  ⟨46, [true], [], by decide⟩

theorem meets_GrDecReadsCodeword_missing : (reader [0x01]).br.pos ≤ (reader [0x01]).size ∧
    (reader [0x01]).pending = List.replicate 7 false ++ true :: [] ∧ ([] : Bits).length < (if 48 - 17 ≤ 7 then 16 else 1) ∧
    (reader [0x00]).br.pos ≤ (reader [0x00]).size ∧ true ∉ (reader [0x00]).pending := by decide

theorem meets_GrDecInvertsGrEnc : ∃ (t : State) (bits : Bits), State.reset.bw.flagOk = true ∧
    exec (.grEnc 0 65536 48) State.reset = .next t ∧ t.bw.stream = State.reset.bw.stream ++ bits ∧
    (fetched (bits ++ [true])).pending = bits ++ [true] :=
  ⟨nextState (exec (.grEnc 0 65536 48) State.reset), rep 31 false ++ rep 17 true, by decide, eq_next (by decide),
    by decide, by decide⟩

theorem meets_EmittedPatterns : State.reset.dir = .encode ∧ State.reset.bw.flagOk = true ∧ State.reset.rem < chunk 0 ∧
    chunk 31 ≤ ({ State.reset with rem := 32768, runIndex := 31 } : State).rem := by decide

theorem meets_ParsedPatterns : (decoding 5 []).dir = .decode ∧ (decoding 5 []).idx + 4 < (decoding 5 []).w - (decoding 5 []).x ∧
    (decoding 5 []).w - (decoding 5 []).x ≤ (decoding 5 []).idx + 5 ∧
    (decoding 2 []).idx + chunk (decoding 2 []).runIndex < (decoding 2 []).w - (decoding 2 []).x ∧
    (decoding 1 []).idx + chunk (decoding 1 []).runIndex = (decoding 1 []).w - (decoding 1 []).x ∧
    (decoding 1 []).idx ≤ (decoding 1 []).w - (decoding 1 []).x ∧
    (decoding 1 []).w - (decoding 1 []).x < (decoding 1 []).idx + chunk 4 := by decide

theorem meets_CommandsLatchAndStart : State.reset.status ≠ .busy ∧ (1 : Nat) ≤ 1 ∧ (65535 : Nat) ≤ 65535 ∧
    (encoding [0]).status = .busy ∧ (65535 : Nat) < 65536 := by decide

theorem meets_RowStartExchangesLines : Memory.wf (encoding [7]) = true ∧ 1 ≤ (encoding [7]).w := by decide

theorem meets_NeighbourFetch : (encoding [7]).x < (encoding [7]).w := by decide

theorem meets_EncRunlenWritesChunks : (65535 : Nat) ≤ 65535 ∧ (true = true → (1 : Nat) ≤ 65535) ∧
    (false = true → (1 : Nat) ≤ 0) ∧ State.reset.bw.flagOk = true := by decide

theorem meets_RowLongRunIsShort : ∃ t, State.reset.bw.flagOk = true ∧ exec (.encRunlen 1 true) State.reset = .next t :=
  ⟨_, by decide, eq_next (by decide)⟩

theorem meets_DecRunlenReadsChunks_interrupted : (1 : Nat) ≤ 5 ∧ chunkSum (reader [0xf0]).runIndex 4 < 5 ∧
    (reader [0xf0]).pending = List.replicate 4 true ++ false :: ([false] ++ rep 2 false) ∧
    [false].length = jTable (indexInc^[4] (reader [0xf0]).runIndex) ∧ 4 = chunkSum (reader [0xf0]).runIndex 4 + valOf [false] :=
  ⟨by decide, by decide, by decide, by decide, by decide⟩

theorem meets_DecRunlenReadsChunks_no_room : (1 : Nat) ≤ 5 ∧ chunkSum (reader [0xf4]).runIndex 4 < 5 ∧
    (reader [0xf4]).pending = List.replicate 4 true ++ false :: ([true] ++ rep 2 false) ∧
    5 ≤ chunkSum (reader [0xf4]).runIndex 4 + valOf [true] :=
  ⟨by decide, by decide, by decide, by decide⟩

theorem meets_DecRunlenReadsChunks_row_end : chunkSum (reader [0xf8]).runIndex 4 < 5 ∧
    (reader [0xf8]).pending = List.replicate (4 + 1) true ++ rep 3 false ∧ 5 ≤ chunkSum (reader [0xf8]).runIndex (4 + 1) ∧
    6 = chunkSum (reader [0xf8]).runIndex (4 + 1) :=
  ⟨by decide, by decide, by decide, by decide⟩

theorem meets_DecRunlenReadsChunks_missing : (reader [0xfe]).br.pos ≤ (reader [0xfe]).size ∧
    chunkSum (reader [0xfe]).runIndex 0 < 1 ∧ (fetched []).pending = List.replicate 0 true ∧
    (reader [0xfe]).pending = List.replicate 7 true ++ false :: [] ∧
    ([] : Bits).length < jTable (indexInc^[7] (reader [0xfe]).runIndex) :=
  ⟨by decide, by decide, by decide, by decide, by decide⟩

theorem meets_StepsChooseTheMode : (encoding [7]).status ≠ .fault ∧ (encoding [7]).x < (encoding [7]).w := by decide

theorem meets_EncRegularSteps : ∃ s : State, s.status ≠ .fault ∧ s.y < s.rows ∧ s.x < s.w ∧ s.q ≠ 0 ∧ -364 ≤ s.q ∧ s.q ≤ 364 :=
  ⟨{ encoding [7] with q := -364 }, by decide⟩

theorem meets_EncRunSteps_row_end : (encoding [0, 0]).status ≠ .fault ∧ (encoding [0, 0]).y < (encoding [0, 0]).rows ∧
    (encoding [0, 0]).x < (encoding [0, 0]).w ∧ 2 ≤ (encoding [0, 0]).w - (encoding [0, 0]).x ∧
    (∀ i < 2, (encoding [0, 0]).srcAt (encoding [0, 0]).y ((encoding [0, 0]).x + i) = (encoding [0, 0]).ra) := by decide

theorem meets_EncRunSteps_interrupted : 0 < (encoding [9]).w - (encoding [9]).x ∧
    (encoding [9]).srcAt (encoding [9]).y ((encoding [9]).x + 0) ≠ (encoding [9]).ra := by decide

theorem meets_EncRipixelSteps : ∃ s : State, s.status ≠ .fault ∧ s.y < s.rows ∧ s.x < s.w ∧
    ¬(s.srcAt s.y s.x = s.ra ∧ s.prevAt s.x = s.ra) :=
  ⟨encoding [9], by decide⟩

/-- The sample equals Ra, and PREV[X] does not. -/
theorem meets_EncRipixelSteps_equal : ∃ s : State, s.status ≠ .fault ∧ s.y < s.rows ∧ s.x < s.w ∧ s.srcAt s.y s.x = s.ra ∧
    ¬(s.srcAt s.y s.x = s.ra ∧ s.prevAt s.x = s.ra) :=
  ⟨{ encoding [9] with ra := 9 }, by decide⟩

theorem meets_EncodeStepsComplete : ∃ s : State, s.Inv ∧ s.Bounded ∧ s.status ≠ .fault ∧ s.y < s.rows ∧ s.x < s.w ∧
    s.q ≠ 0 ∧ -364 ≤ s.q ∧ s.q ≤ 364 ∧ ¬(s.srcAt s.y s.x = s.ra ∧ s.prevAt s.x = s.ra) :=
  ⟨{ encoding [9] with q := 364 }, State.inv_scanInit (by decide),
    State.bounded_scanInit { State.reset with width := 1, rows := 1, src := cells [9] }, by decide⟩

theorem meets_EncodeStepsComplete_open : ∃ s : State, s.Inv ∧ s.Bounded ∧ s.status ≠ .fault ∧ s.y < s.rows ∧ s.x < s.w ∧
    s.srcAt s.y s.x = s.ra ∧ s.prevAt s.x = s.ra :=
  ⟨encoding [0], State.inv_scanInit (by decide), State.bounded_scanInit _, by decide⟩

theorem meets_DecRegularSteps : ∃ (s : State) (k : Nat) (i : Instr) (rest : Bits), s.status ≠ .fault ∧ s.y < s.rows ∧
    s.x < s.w ∧ s.q ≠ 0 ∧ -364 ≤ s.q ∧ s.q ≤ 364 ∧ Memory.wf s = true ∧ (s.reg.get (contextIndex s.q)).Inv ∧
    (s.reg.get (contextIndex s.q)).Bounded ∧
    (s.reg.get (contextIndex s.q)).a.toInt ≤ (s.reg.get (contextIndex s.q)).n.toInt * 2 ^ k ∧
    (∀ j < k, (s.reg.get (contextIndex s.q)).n.toInt * 2 ^ j < (s.reg.get (contextIndex s.q)).a.toInt) ∧
    decode (.golomb k 64) s.pending = .ok (i, rest) ∧ golombValue i ≤ 65535 :=
  ⟨{ decoding 1 [0x80, 0x00] with q := 364 }, 10, .gr 10 64 0 0, rep 5 false, by decide, by decide, by decide, by decide,
    by decide, by decide, by decide, (State.inv_scanInit (s := State.reset) (by decide)).1 364,
    (State.bounded_scanInit State.reset).1 364, by decide, by decide, rfl, by decide⟩

theorem meets_DecRunSteps : ∃ (s : State) (n : Nat) (rest : Bits), s.status ≠ .fault ∧ s.y < s.rows ∧ s.x < s.w ∧
    Memory.wf s = true ∧ chunkSum s.runIndex n < s.w - s.x ∧ s.w - s.x ≤ chunkSum s.runIndex (n + 1) ∧
    s.pending = List.replicate (n + 1) true ++ rest :=
  ⟨decoding 2 [0xc0], 1, rep 6 false, by decide⟩

theorem meets_DecRipixelSteps : ∃ (s : State) (t : Fin 2) (k : Nat) (i : Instr) (rest : Bits), s.status ≠ .fault ∧
    s.y < s.rows ∧ s.x < s.w ∧ Memory.wf s = true ∧ (s.ri.get t).Inv t ∧ (s.ri.get t).Bounded ∧
    t = (if s.ra = s.prevAt s.x then 1 else 0) ∧
    (s.ri.get t).a.toInt + (s.ri.get t).n.toInt / 2 * t.val ≤ (s.ri.get t).n.toInt * 2 ^ k ∧
    (∀ j < k, (s.ri.get t).n.toInt * 2 ^ j < (s.ri.get t).a.toInt + (s.ri.get t).n.toInt / 2 * t.val) ∧
    decode (.golomb k (64 - jTable s.runIndex - 1)) s.pending = .ok (i, rest) ∧ golombValue i ≤ 65536 :=
  ⟨decoding 1 [0x7c, 0xf0], 1, 10, .gr 10 63 1 975, rep 4 false, by decide, by decide, by decide, by decide,
    (State.inv_scanInit (s := State.reset) (by decide)).2.1 1, (State.bounded_scanInit State.reset).2 1, by decide, by decide,
    by decide, rfl, by decide⟩

/-- A row of a decode whose left border is 1000, before a codeword of k = 10 for the mapped value 0. -/
def beside : State := { decoding 1 [0x80, 0x00] with cur := [(0, 1000)] }

theorem meets_DecodeStepCompletes_regular : beside.status ≠ .fault ∧ beside.y < beside.rows ∧ beside.x < beside.w ∧
    Memory.wf beside = true ∧ 1000 = beside.curAt ((beside.x : Int) - 1) ∧
    -4 = contextId 1000 (beside.prevAt beside.x) (beside.prevAt ((beside.x : Int) - 1)) (beside.prevAt ((beside.x : Int) + 1)) ∧
    (beside.reg.get (contextIndex (-4))).Inv ∧ (beside.reg.get (contextIndex (-4))).Bounded ∧
    (beside.reg.get (contextIndex (-4))).a.toInt ≤ (beside.reg.get (contextIndex (-4))).n.toInt * 2 ^ 10 ∧
    (∀ j < 10, (beside.reg.get (contextIndex (-4))).n.toInt * 2 ^ j < (beside.reg.get (contextIndex (-4))).a.toInt) ∧
    decode (.golomb 10 64) beside.pending = .ok (.gr 10 64 0 0, rep 5 false) ∧ golombValue (.gr 10 64 0 0) ≤ 65535 :=
  ⟨by decide, by decide, by decide, by decide, by decide, by decide,
    (State.inv_scanInit (s := State.reset) (by decide)).1 4, (State.bounded_scanInit State.reset).1 4, by decide, by decide, rfl,
    by decide⟩

theorem meets_DecodeStepCompletes_run : ∃ (s : State) (n : Nat) (rest : Bits), s.status ≠ .fault ∧ s.y < s.rows ∧
    s.x < s.w ∧ Memory.wf s = true ∧ 0 = s.curAt ((s.x : Int) - 1) ∧
    0 = contextId 0 (s.prevAt s.x) (s.prevAt ((s.x : Int) - 1)) (s.prevAt ((s.x : Int) + 1)) ∧
    chunkSum s.runIndex n < s.w - s.x ∧ s.w - s.x ≤ chunkSum s.runIndex (n + 1) ∧
    s.pending = List.replicate (n + 1) true ++ rest :=
  ⟨decoding 2 [0xc0], 1, rep 6 false, by decide⟩

theorem meets_StopsByName_search : ((State.reset.withReg 364 (ctx 1 0 0 0)).reg.get 364).n.toInt = 0 ∧
    0 < ((State.reset.withReg 364 (ctx 1 0 0 0)).reg.get 364).a.toInt ∧
    ((State.reset.withRi 1 (rctx 1 1 0 0)).ri.get 1).n.toInt = 0 ∧
    0 < ((State.reset.withRi 1 (rctx 1 1 0 0)).ri.get 1).a.toInt := by decide

theorem meets_StopsByName_index : ¬(State.reset.y < State.reset.rows ∧ State.reset.x < State.reset.w) ∧
    State.reset.w ≤ State.reset.x ∧ ({ encoding [7] with y := 1 } : State).rows ≤ 1 ∧ (encoding [7]).x < (encoding [7]).w := by
  decide

theorem meets_StopsByName_run : ∃ (s t : State), s.status ≠ .fault ∧ s.rows ≤ s.y ∧ s.x < s.w ∧
    exec (.decRunlen (s.w - s.x)) s = .next t ∧ t.status ≠ .fault :=
  ⟨{ decoding 1 [0x80] with y := 1 }, _, by decide, by decide, by decide, eq_next (by decide), by decide⟩

theorem meets_PowerOnIsIdle : (-129 : Int) ≤ -129 ∧ (128 : Int) ≤ 128 := by decide

theorem meets_StepRunsIssuedOrDriver_issued : (State.reset.issue .rcInit).issued = some .rcInit ∧ Instr.rcInit.wf = true ∧
    (State.reset.issue (.rcGetk 0)).issued = some (.rcGetk 0) ∧ (Instr.rcGetk 0).wf = false ∧
    decodeTableWord 8 0x3E = some (.b8 0x3E) ∧ (Instr.b8 0x3E).wf = true := by decide

theorem meets_StepRunsIssuedOrDriver_rest : State.reset.issued = none ∧ State.reset.status ≠ .busy := by decide

theorem meets_StepRunsIssuedOrDriver_row : (encoding [7]).issued = none ∧ (encoding [7]).status = .busy ∧
    (encoding [7]).rowOpen = true ∧ (encoding [7]).x < (encoding [7]).w ∧ (encoding [7]).dir = .encode ∧
    (decoding 1 []).rowOpen = true ∧ (decoding 1 []).x < (decoding 1 []).w ∧ (decoding 1 []).dir = .decode ∧
    (decoding 1 []).w ≤ ({ decoding 1 [] with x := 1 } : State).x := by decide

theorem meets_StepRunsIssuedOrDriver_ends : ∃ s d : State, s.issued = none ∧ s.status = .busy ∧ s.rowOpen = false ∧
    s.rows ≤ s.y ∧ s.dir = .encode ∧ d.status = .busy ∧ d.rowOpen = false ∧ d.rows ≤ d.y ∧ d.dir = .decode ∧
    ({ s with rows := 1 } : State).y < 1 :=
  ⟨State.reset.scanInit, State.scanInit { State.reset with dir := .decode }, by decide⟩

theorem meets_FaultEndsTheScan_rest : ∃ t : State, (decoding 1 [0x3e]).issued = none ∧ step (decoding 1 [0x3e]) = .next t ∧
    t.status = .fault :=
  ⟨_, by decide, eq_next (by decide), by decide⟩

theorem meets_FaultEndsTheScan_command : ∃ s t : State, s.HostLegal ∧ s.status = .fault ∧ step s = .next t ∧
    t.status = .busy :=
  ⟨{ State.reset.issue (.scanDecode 1 1 0) with status := .fault }, _, fun i h => by cases h; rfl, rfl,
    eq_next (by decide), by decide⟩

theorem meets_ParametersAreConstant : ∃ t : State, step (encoding [7]) = .next t ∧
    ∀ i, (encoding [7]).issued = some i → i.isCommand = false :=
  ⟨_, eq_next (by decide), fun i h => by cases h⟩

theorem meets_StatusIsTheDrivers_busy : ∃ s t : State, s.HostLegal ∧ step s = .next t ∧ t.status ≠ s.status ∧ t.status = .busy :=
  ⟨State.reset.issue (.scanEncode 1 1), _, fun i h => by cases h; rfl, eq_next (by decide), by decide⟩

theorem meets_StatusIsTheDrivers_done : ∃ s t : State, s.HostLegal ∧ step s = .next t ∧ t.status ≠ s.status ∧ t.status = .done :=
  ⟨State.reset.scanInit, _, fun i h => (by cases h), eq_next (by decide), by decide⟩

theorem meets_StatusIsTheDrivers_fault : ∃ s t : State, s.HostLegal ∧ step s = .next t ∧ t.status ≠ s.status ∧
    t.status = .fault :=
  ⟨decoding 1 [], _, fun i h => (by cases h), eq_next (by decide), by decide⟩

theorem meets_StepKeepsInv : ∃ s t : State, s.Inv ∧ step s = .next t ∧ t.status ≠ .fault :=
  ⟨encoding [9], _, State.inv_scanInit (by decide), eq_next (by decide), by decide⟩

/-- `ENC.RIPIXEL` by name on a sample that did not interrupt the run, with RI[1].A = 0. -/
theorem meets_StepKeepsInv_open : ∃ s t : State, s.Inv ∧ step s = .next t ∧ t.status ≠ .fault ∧
    s.issued = some .encRipixel ∧ s.srcAt s.y s.x = s.ra ∧ s.prevAt s.x = s.ra ∧ (s.ri.get 1).a.toInt = 0 ∧
    (t.ri.get 1).a.toInt = -1 :=
  ⟨((encoding [0]).withRi 1 (rctx 1 0 1 0)).issue .encRipixel, _,
    State.Inv.withRi (s := encoding [0]) (State.inv_scanInit (by decide)) ⟨by decide, by decide, by decide, by decide, by decide,
      rfl, by decide⟩,
    eq_next rfl, by decide, rfl, by decide, by decide, by decide, rfl⟩

/-- The machine after a command to encode one row of one sample (3.1, P1). -/
def p1 : State := nextState (exec (.scanEncode 1 1) { State.reset with src := [(0, 1000)] })

theorem p1_scanInv : p1.ScanInv :=
  (State.scanInv_command (s := { State.reset with src := [(0, 1000)] }) (dir := .encode) (width := 1) (rows := 1)
    (size := 0) (by decide) rfl (eq_next (by decide))).1

theorem meets_StepKeepsScanInv : ∃ t : State, p1.ScanInv ∧ step p1 = .next t := ⟨_, p1_scanInv, eq_next (by decide)⟩

theorem meets_ScanTerminates : p1.ScanInv ∧ p1.status = .busy ∧ p1.issued = none ∧ p1.dir = .encode :=
  ⟨p1_scanInv, by decide⟩

theorem meets_DecodeStepMirrorsEncodeStep : ∃ (s t d : State) (bits rest : Bits), s.Inv ∧ s.Bounded ∧ s.status ≠ .fault ∧
    s.y < s.rows ∧ s.x < s.w ∧ s.mode = .regular ∧ exec .encStep s = .next t ∧ t.bw.stream = s.bw.stream ++ bits ∧
    d.Mirrors s ∧ Memory.wf d = true ∧ d.status ≠ .fault ∧ d.pending = bits ++ rest :=
  ⟨encoding [1000], nextState (exec .encStep (encoding [1000])), decoding 1 [0x3e, 0x78],
    [false, false, true, true, true, true, true, false, false, true, true, true, true], rep 3 false,
    State.inv_scanInit (by decide), State.bounded_scanInit _, by decide, by decide, by decide, by decide, eq_next (by decide),
    by decide, ⟨rfl, rfl, rfl, rfl, rfl, rfl, rfl, rfl, rfl, fun _ _ _ => rfl, fun _ _ _ => rfl⟩, by decide, by decide,
    by decide⟩

theorem meets_DecodedScanEqualsSource : ∃ (s₀ t d₀ : State), Memory.wf { State.reset with src := [(0, 1000)] } = true ∧
    exec (.scanEncode 1 1) { State.reset with src := [(0, 1000)] } = .next s₀ ∧ core.run 4 s₀ = .next t ∧ t.status = .done ∧
    Memory.wf (reader [0x3e, 0x78, 0xaa, 0xbb]) = true ∧ t.bw.sink.length ≤ 4 ∧
    (∀ i (h : i < t.bw.sink.length), readCell (reader [0x3e, 0x78, 0xaa, 0xbb]).inp i = t.bw.sink[i]) ∧
    exec (.scanDecode 1 1 4) (reader [0x3e, 0x78, 0xaa, 0xbb]) = .next d₀ :=
  ⟨p1, nextState (core.run 4 p1), nextState (exec (.scanDecode 1 1 4) (reader [0x3e, 0x78, 0xaa, 0xbb])), by decide,
    eq_next (by decide), eq_next (by decide), by decide, by decide, by decide, by decide, eq_next (by decide)⟩

end Sys2Proof.Tests
end

section
/-! PROOFS. What a step does to the scan parameters, to SRC and IN, and to STATUS (R21, R22): one inversion of `step`, the
frame of every operation that is no command, and the effect of the two commands. -/

namespace Sys2Proof.Machine

/-! The scan parameters, and what the scan is given. -/

/-- The scan parameters and the two spaces a scan reads are the same in both states (R21, R33, R35). -/
def State.SameParameters (s t : State) : Prop :=
  t.dir = s.dir ∧ t.width = s.width ∧ t.rows = s.rows ∧ t.size = s.size ∧ t.inp = s.inp ∧ t.src = s.src

theorem State.SameParameters.refl (s : State) : s.SameParameters s := ⟨rfl, rfl, rfl, rfl, rfl, rfl⟩

theorem State.SameScan.parameters {s t : State} (h : s.SameScan t) : s.SameParameters t := by
  obtain ⟨hdir, hwidth, hrows, hsize, -, -, -, hinp, hsrc, -, -⟩ := h
  exact ⟨hdir, hwidth, hrows, hsize, hinp, hsrc⟩

/-- An operation whose parts keep the frame leaves the parameters alone, whether it finishes or raises a fault. -/
theorem Res.Keeps.parameters {α : Type} {r : Res α} {s t : State} {f : α → State → State} (h : r.Keeps s)
    (ht : r.outcome f = .next t) (hf : ∀ a u, s.SameScan u → s.SameScan (f a u)) : s.SameParameters t :=
  (h.next ht hf).1.parameters

/-! The frame of the shared operations that are also run by name. -/

theorem State.fetchNeighbours_keeps (s : State) : s.fetchNeighbours.Keeps s := by
  unfold State.fetchNeighbours
  split_ifs
  · exact Res.keeps_ok (.refl s)
  · exact Res.keeps_stop

theorem State.decodeTerm_keeps (s : State) (rem0 n : Nat) : (s.decodeTerm rem0 n).Keeps s := by
  unfold State.decodeTerm
  simp only []
  split_ifs
  · exact Res.keeps_raised (t := { s with idx := s.idx + n }) (.refl s)
  · exact Res.keeps_ok (.refl s)

theorem State.decodeHit_same (s : State) (rem0 : Nat) : s.SameScan (s.decodeHit rem0) := by
  unfold State.decodeHit
  split_ifs <;> exact .refl s

theorem State.byteFormat_same (s : State) (b : Byte) (bits : Bits) : s.SameScan (s.byteFormat b bits) := by
  unfold State.byteFormat
  split <;> exact .refl s

theorem State.golombWord_same (s : State) (bits : Bits) (m : Nat) : s.SameScan (s.golombWord bits m) := by
  unfold State.golombWord
  split <;> exact .refl s

/-- `RUNHIT`, emitted or parsed (R97). -/
theorem execRunhit_same {s t : State} (h : execRunhit s = .next t) : s.SameScan t := by
  unfold execRunhit at h
  split at h
  · cases h
    exact s.encodeHit_same.1
  · have hd := s.decodeHit_same (s.w - s.x)
    cases h
    split_ifs <;> exact hd

/-- `RUNTERM`, emitted or parsed (R98). -/
theorem execRunterm_parameters {j r : Nat} {s t : State} (h : execRunterm j r s = .next t) : s.SameParameters t := by
  unfold execRunterm at h
  split at h
  · cases h
    exact .refl s
  · exact (s.decodeTerm_keeps _ _).parameters h fun _ _ hu => hu

/-- No operation but a command writes a scan parameter, IN or SRC (R21). -/
theorem exec_parameters {i : Instr} {s t : State} (hi : i.isCommand = false) (h : exec i s = .next t) :
    s.SameParameters t := by
  cases i with
  | scanEncode | scanDecode => cases hi
  | b8 | b7 => cases h; exact (s.byteFormat_same _ _).parameters
  | gr | esc => cases h; exact (s.golombWord_same _ _).parameters
  | runhit => exact (execRunhit_same h).parameters
  | runterm => exact execRunterm_parameters h
  | brReadbit | brReadbin | brReadunary | grDec =>
    exact (State.reads_keeps (.refl s) _).parameters h fun _ _ hu => hu
  | rcGetk => exact (State.regK_keeps (.refl s) _).parameters h fun _ _ hu => hu
  | rcUpdate => exact (State.updateReg_keeps (.refl s) _ _).parameters h fun _ _ hu => hu
  | riGetk => exact (State.runK_keeps (.refl s) _).parameters h fun _ _ hu => hu
  | riUpdate => exact (State.updateRi_keeps (.refl s) _ _ _).parameters h fun _ _ hu => hu
  | nbrFetch => exact s.fetchNeighbours_keeps.parameters h fun _ _ hu => hu
  | encStep => exact s.encodeStep_keeps.parameters h fun _ _ hu => hu
  | encRegular => exact (State.encodeRegular_keeps (.refl s)).parameters h fun _ _ hu => hu
  | encRun => exact (State.encodeRun_keeps (.refl s)).parameters h fun _ _ hu => hu
  | encRipixel => exact (State.encodeInterruption_keeps (.refl s)).parameters h fun _ _ hu => hu
  | encRunlen => cases h; exact (s.encodeRunLength_same _ _).1.parameters
  | decStep => exact s.decodeStep_keeps.parameters h fun _ _ hu => hu
  | decRunlen => exact (State.decodeRunLength_keeps (.refl s) _).parameters h fun _ _ hu => hu
  | decRegular => exact (State.decodeRegular_keeps (.refl s)).parameters h fun _ _ hu => hu
  | decRun => exact (State.decodeRun_keeps (.refl s)).parameters h fun _ _ hu => hu
  | decRipixel => exact (State.decodeInterruption_keeps (.refl s)).parameters h fun _ _ hu => hu
  | bwWritebit | bwWritebin | bwWriteunary | bwDrain | bwFlush | grEnc
  | quant | ctxid | ctxsel | predict | corrpred | modrange | errval | recon
  | rcInit | rcGetcorr | maperr | unmaperr
  | riInit | riSelect | riErrval | riMap | riEmerr | riUnmap | riRecon
  | scanInit | rowStart | runidxInc | runidxDec | rowEnd | encEnd | decEnd =>
    cases h
    exact .refl s

/-! The commands. -/

/-- A command that is taken finds no scan under way, latches its parameters and runs `SCAN.INIT` (R190, R210, U12). -/
theorem State.command_eq_next {s t : State} {dir : Dir} {width rows size : Nat}
    (h : s.command dir width rows size = .next t) : s.status ≠ .busy ∧
      t = State.scanInit { s with dir := dir, width := .ofNat 16 width, rows := rows, size := size } := by
  unfold State.command at h
  split_ifs at h with hb
  cases h
  exact ⟨hb, rfl⟩

/-- A command that is taken begins a scan from outside BUSY, and writes neither IN nor SRC. -/
theorem exec_command {i : Instr} {s t : State} (hi : i.isCommand = true) (h : exec i s = .next t) :
    s.status ≠ .busy ∧ t.status = .busy ∧ t.inp = s.inp ∧ t.src = s.src := by
  obtain ⟨dir, width, rows, size, hc⟩ :
      ∃ dir width rows size, s.command dir width rows size = .next t := by
    cases i with
    | scanEncode width rows => exact ⟨_, _, _, _, h⟩
    | scanDecode width rows size => exact ⟨_, _, _, _, h⟩
    | _ => cases hi
  obtain ⟨hb, rfl⟩ := State.command_eq_next hc
  exact ⟨hb, rfl, rfl, rfl⟩

/-! What a step performs. -/

/-- A step that goes on has performed the operation issued, or the driver's next, or nothing. -/
theorem step_eq_next {s t : State} (h : step s = .next t) :
    (∃ i, s.issued = some i ∧ exec i { s with issued := none } = .next t) ∨
      (s.issued = none ∧ ((∃ i, s.driverNext = some i ∧ exec i s = .next t) ∨ t = s)) := by
  unfold step State.fetch at h
  cases hi : s.issued with
  | some i =>
    simp only [hi] at h
    split_ifs at h
    exact .inl ⟨i, rfl, h⟩
  | none =>
    cases hd : s.driverNext with
    | some i =>
      simp only [hi, hd, Option.map_some] at h
      split_ifs at h
      exact .inr ⟨rfl, .inl ⟨i, rfl, h⟩⟩
    | none =>
      simp only [hi, hd, Option.map_none] at h
      cases h
      exact .inr ⟨rfl, .inr rfl⟩

/-- The driver issues no command of its own (R190, R210). -/
theorem State.driverNext_isCommand {s : State} {i : Instr} (h : s.driverNext = some i) : i.isCommand = false := by
  unfold State.driverNext at h
  split at h
  · split_ifs at h
    · split at h <;> cases h <;> rfl
    · cases h; rfl
    · cases h; rfl
    · split at h <;> cases h <;> rfl
  all_goals cases h

/-- Settles O53: SRC and IN stay as they are in every step, and the parameters in a step that performs no command. -/
theorem parametersAreConstant : Obligations.ParametersAreConstant := by
  intro s t h
  rcases step_eq_next h with ⟨i, hi, he⟩ | ⟨-, ⟨i, hd, he⟩ | rfl⟩
  · cases hc : i.isCommand with
    | true =>
      obtain ⟨-, -, hinp, hsrc⟩ := exec_command hc he
      exact ⟨hsrc, hinp, fun hno => by rw [hno i hi] at hc; cases hc⟩
    | false =>
      obtain ⟨hdir, hwidth, hrows, hsize, hinp, hsrc⟩ := exec_parameters hc he
      exact ⟨hsrc, hinp, fun _ => ⟨hdir, hwidth, hrows, hsize⟩⟩
  · obtain ⟨hdir, hwidth, hrows, hsize, hinp, hsrc⟩ := exec_parameters (State.driverNext_isCommand hd) he
    exact ⟨hsrc, hinp, fun _ => ⟨hdir, hwidth, hrows, hsize⟩⟩
  · exact ⟨rfl, rfl, fun _ => ⟨rfl, rfl, rfl, rfl⟩⟩

/-! STATUS. -/

/-- In an open row a pixel step leaves STATUS or raises a fault (R193, R211, R237). -/
theorem step_pixel_status {s t : State} (hi : s.issued = none) (hb : s.status = .busy) (ho : s.rowOpen = true)
    (hx : s.x < s.w) (h : step s = .next t) : t.status = s.status ∨ t.status = .fault := by
  cases hd : s.dir with
  | encode =>
    rw [step_encStep hi hb ho hx hd] at h
    exact (s.encodeStep_keeps.next h fun _ _ hu => hu).2
  | decode =>
    rw [step_decStep hi hb ho hx hd] at h
    exact (s.decodeStep_keeps.next h fun _ _ hu => hu).2

/-- After the last row the scan's last operation ends it (R200, R216). -/
theorem step_end_status {s t : State} (hi : s.issued = none) (hb : s.status = .busy) (ho : s.rowOpen = false)
    (hy : ¬s.y < s.rows) (h : step s = .next t) : t.status = .done := by
  cases hd : s.dir with
  | encode =>
    rw [step_encEnd hi hb ho hy hd] at h
    cases h
    rfl
  | decode =>
    rw [step_decEnd hi hb ho hy hd] at h
    cases h
    rfl

/-- A step of the driver that changes STATUS ends the scan after its last row, or faults at a pixel of an open row. -/
theorem step_driver_status {s t : State} (hi : s.issued = none) (h : step s = .next t) (hne : t.status ≠ s.status) :
    s.status = .busy ∧
      ((t.status = .done ∧ s.rowOpen = false ∧ s.rows ≤ s.y) ∨ (t.status = .fault ∧ s.rowOpen = true ∧ s.x < s.w)) := by
  by_cases hb : s.status = .busy
  · refine ⟨hb, ?_⟩
    cases ho : s.rowOpen with
    | true =>
      by_cases hx : s.x < s.w
      · exact .inr ⟨(step_pixel_status hi hb ho hx h).resolve_left hne, rfl, hx⟩
      · rw [step_rowEnd hi hb ho hx] at h
        cases h
        exact absurd rfl hne
    | false =>
      by_cases hy : s.y < s.rows
      · rw [step_rowStart hi hb ho hy] at h
        cases h
        exact absurd rfl hne
      · exact .inl ⟨step_end_status hi hb ho hy h, rfl, Nat.le_of_not_lt hy⟩
  · rw [step_at_rest hi hb] at h
    cases h
    exact absurd rfl hne

/-- Settles O54: an issued operation is a command, which sets BUSY; any other change of STATUS is the driver's. -/
theorem statusIsTheDrivers : Obligations.StatusIsTheDrivers := by
  intro s t hl h hne
  rcases step_eq_next h with ⟨i, hi, he⟩ | ⟨hi, -⟩
  · obtain ⟨hb, ht, -, -⟩ := exec_command (hl i hi) he
    exact .inl ⟨ht, hb, i, hi⟩
  · obtain ⟨hb, ⟨ht, ho, hy⟩ | ⟨ht, ho, hx⟩⟩ := step_driver_status hi h hne
    · exact .inr (.inl ⟨ht, hb, hi, ho, hy⟩)
    · exact .inr (.inr ⟨ht, hb, hi, ho, hx⟩)

end Sys2Proof.Machine
end

section
/-! PROOFS. The pseudo-operations (R106): the fixed operands give the same bits, and a written code may be split. -/

namespace Sys2Proof

/-! The bits of the fixed operands 0 and 1. -/

/-- The n low bits of 0 (R121). -/
theorem bitsOf_zero_right (n : Nat) : bitsOf n 0 = List.replicate n false := by
  have h := bitsOf_valOf (List.replicate n false)
  rwa [List.length_replicate, valOf_replicate_false] at h

/-- A unary code read as a number is 1 (R93). -/
theorem valOf_unary (n : Nat) : valOf (unary n) = 1 := by
  rw [unary, valOf_append]
  show valOf (List.replicate n false) * 2 ^ 1 + 1 = 1
  rw [valOf_replicate_false, Nat.zero_mul, Nat.zero_add]

/-- The unary code of n is the number 1 in n + 1 bits (R93, R106). -/
theorem bitsOf_succ_one (n : Nat) : bitsOf (n + 1) 1 = unary n := by
  have h := bitsOf_valOf (unary n)
  rwa [unary_length, valOf_unary] at h

/-- Zeros before a unary code lengthen it (R93, R106). -/
theorem replicate_append_unary (m n : Nat) : List.replicate m false ++ unary n = unary (m + n) := by
  rw [unary, unary, List.replicate_add, List.append_assoc]
  rfl

end Sys2Proof

namespace Sys2Proof.Machine

/-! What the three writes do to the state. -/

theorem exec_bwWritebit (b : Bool) (s : State) : exec (.bwWritebit b) s = .next (s.withBw (s.bw.writeBit b)) := rfl

theorem exec_bwWritebin (v n : Nat) (s : State) :
    exec (.bwWritebin v n) s = .next (s.withBw (s.bw.writeBin v n)) := rfl

theorem exec_bwWriteunary (n : Nat) (s : State) :
    exec (.bwWriteunary n) s = .next (s.withBw (s.bw.writeUnary n)) := rfl

/-! The writes. -/

/-- `BW.WRITEUNARY n` is `BW.WRITEBIN 1, n+1` (R106, R122). -/
theorem Writer.writeUnary_eq_writeBin (w : Writer) (n : Nat) : w.writeUnary n = w.writeBin 1 (n + 1) := by
  rw [Writer.writeUnary, Writer.writeBin, bitsOf_mod, bitsOf_succ_one]

/-- A unary code may be written as leading zeros and the unary code of what is left (R106). -/
theorem Writer.writeUnary_writeBin_zero (w : Writer) (m n : Nat) :
    (w.writeBin 0 m).writeUnary n = w.writeUnary (m + n) := by
  rw [Writer.writeBin, Writer.writeUnary, Writer.put_put, bitsOf_mod, bitsOf_zero_right, replicate_append_unary,
    ← Writer.writeUnary]

/-- `BW.WRITEUNARY n` after m of its zeros: no write raises a fault, so the rest follows (R106, R122). -/
theorem exec_bwWriteunary_split {s : State} (hs : s.status ≠ .fault) {m n : Nat} (h : m ≤ n) :
    exec (.bwWriteunary n) s = thenDo (exec (.bwWritebin 0 m) s) (exec (.bwWriteunary (n - m))) := by
  have hrest : exec (.bwWriteunary (n - m)) (s.withBw (s.bw.writeBin 0 m)) =
      .next (s.withBw ((s.bw.writeBin 0 m).writeUnary (n - m))) := rfl
  rw [exec_bwWritebin, thenDo_next (t := s.withBw (s.bw.writeBin 0 m)) hs, hrest, Writer.writeUnary_writeBin_zero,
    Nat.add_sub_cancel' h, exec_bwWriteunary]

/-! The reads. -/

/-- A number of one bit is that bit (R125, R126). -/
theorem readBin_one_of_ok {inp : Space 8} {size : Nat} {r r' : Reader} {b : Bool}
    (h : readBit inp size r = .ok (b, r')) : readBin inp size 1 r = .ok (b.toNat, r') := by
  simp [readBin, readBinFrom, h]

/-- A number of one bit is missing where the bit is (R125, R126). -/
theorem readBin_one_of_error {inp : Space 8} {size : Nat} {r r' : Reader} (h : readBit inp size r = .error r') :
    readBin inp size 1 r = .error r' := by
  simp [readBin, readBinFrom, h]

/-- `BR.READBIT` is `BR.READBIN 1` (R106, R125, R126). -/
theorem exec_brReadbit_eq_brReadbin (s : State) : exec .brReadbit s = exec (.brReadbin 1) s := by
  show execBrReadbit s = execBrReadbin 1 s
  unfold execBrReadbit execBrReadbin
  obtain ⟨b, r, hr, hs⟩ | ⟨r, hr, hs⟩ := s.reads_cases readBit
  · rw [hs, State.reads_of_ok (readBin_one_of_ok hr), Res.outcome_ok, Res.outcome_ok]
  · rw [hs, State.reads_of_error (readBin_one_of_error hr), Res.outcome_raised, Res.outcome_raised]

/-- Settles O9: the writes put the same bits, in one piece or in two, and a bit is a number of one bit. -/
theorem pseudoOperationsAgree : Obligations.PseudoOperationsAgree := by
  intro s
  have hbit (b : Bool) : exec (.bwWritebit b) s = exec (.bwWritebin b.toNat 1) s := by
    rw [exec_bwWritebit, exec_bwWritebin, Writer.writeBit_eq]
  have hunary (n : Nat) : exec (.bwWriteunary n) s = exec (.bwWritebin 1 (n + 1)) s := by
    rw [exec_bwWriteunary, exec_bwWritebin, Writer.writeUnary_eq_writeBin]
  exact ⟨hbit, fun n _ => hunary n, fun _ _ _ hmn hs => exec_bwWriteunary_split hs hmn, exec_brReadbit_eq_brReadbin s⟩

end Sys2Proof.Machine
end

section
/-! PROOFS. The bit writer's operations as the rules give them: the writes, the drain and the flush (R120 to R124). -/

namespace Sys2Proof.Machine

/-! Draining after bits joined the queue. -/

theorem exec_bwDrain (s : State) : exec .bwDrain s = .next (s.withBw s.bw.drain) := rfl

/-- Bits that joined the queue are drained as `Writer.put` drains them (R120 to R122). -/
theorem exec_bwDrain_append (s : State) (bits : Bits) :
    exec .bwDrain { s with bw := { s.bw with wq := s.bw.wq ++ bits } } = .next (s.withBw (s.bw.put bits)) := rfl

/-- `BW.WRITEBIN v, n` puts the n low bits of v (R121). -/
theorem Writer.writeBin_eq_put (w : Writer) (v n : Nat) : w.writeBin v n = w.put (bitsOf n v) := by
  rw [Writer.writeBin, bitsOf_mod]

/-- Settles O6: each write is a `Writer.put`, which is a drain after the bits joined the queue and which extends the
stream of a writer whose flag is right. -/
theorem writesAppendTheirBits : Obligations.WritesAppendTheirBits := by
  intro s
  refine ⟨fun b => ?_, fun v n _ => ?_, fun n => ?_, fun hflag => ⟨fun b => ?_, fun v n _ => ?_, fun n => ?_⟩⟩
  · rw [exec_bwDrain_append, exec_bwWritebit, Writer.writeBit]
  · rw [exec_bwDrain_append, exec_bwWritebin, Writer.writeBin]
  · rw [exec_bwDrain_append, exec_bwWriteunary, Writer.writeUnary]
    rfl
  · exact ⟨s.bw.writeBit b, exec_bwWritebit b s, Writer.wrote_put hflag [b]⟩
  · refine ⟨s.bw.writeBin v n, exec_bwWritebin v n s, ?_⟩
    rw [Writer.writeBin_eq_put]
    exact Writer.wrote_put hflag (bitsOf n v)
  · exact ⟨s.bw.writeUnary n, exec_bwWriteunary n s, Writer.wrote_put hflag (unary n)⟩

/-! The passes of the drain. -/

/-- A queue whose first bits are those of the next byte gives that byte and sets FFPEND by it (R123). -/
theorem Writer.formByte_eq {w : Writer} {q rest : Bits} (hw : w.wq = q ++ rest) (hq : q.length = needBits w.ffpend) :
    w.formByte = { wq := rest, ffpend := ffAfter (.ofNat 8 (valOf q)), sink := w.sink ++ [.ofNat 8 (valOf q)] } := by
  rw [Writer.formByte, hw, List.take_left' hq, List.drop_left' hq, Writer.emit]

/-- With the bits of a byte queued, draining begins with one pass (R123). -/
theorem Writer.drain_of_ready {w : Writer} (h : needBits w.ffpend ≤ w.wq.length) : w.drain = w.formByte.drain := by
  rw [Writer.drain_eq, if_neg (Nat.not_lt.mpr h)]

/-- Settles O7: with too few bits queued the writer is drained already, else one pass comes first, and draining ends with
too few bits queued. -/
theorem drainFormsBytes : Obligations.DrainFormsBytes := by
  intro s
  refine ⟨fun hshort => ?_, fun q rest b hwq hq hb => ?_, s.bw.drain, exec_bwDrain s, ?_⟩
  · have hdrained : s.bw.drained = true := decide_eq_true hshort
    rw [exec_bwDrain, Writer.drain_of_drained hdrained]
    rfl
  · subst hb
    have hready : needBits s.bw.ffpend ≤ s.bw.wq.length := by
      rw [hwq, List.length_append, hq]
      exact Nat.le_add_right _ _
    rw [exec_bwDrain, exec_bwDrain, Writer.drain_of_ready hready, Writer.formByte_eq hwq hq]
    rfl
  · exact of_decide_eq_true s.bw.drained_drain

/-! The flush. -/

theorem exec_bwFlush (s : State) : exec .bwFlush s = .next (s.withBw s.bw.drain.pad) := rfl

/-- Padding leaves nothing queued and FFPEND at 0, and appends to SINK: the queued bits and zeros as one byte, or 0x00
after a final 0xFF, or nothing (R124). -/
theorem Writer.pad_cases (w : Writer) : ∃ tail : List Byte,
    w.pad = { wq := [], ffpend := false, sink := w.sink ++ tail } ∧
    (w.wq ≠ [] →
      tail = [BitVec.ofNat 8 (valOf (w.wq ++ List.replicate (needBits w.ffpend - w.wq.length) false))]) ∧
    (w.wq = [] → w.ffpend = true → tail = [0x00]) ∧ (w.wq = [] → w.ffpend = false → tail = []) := by
  obtain ⟨wq, ffpend, sink⟩ := w
  cases wq with
  | cons b q =>
    exact ⟨_, if_pos (Nat.succ_pos q.length), fun _ => rfl, fun h => (List.cons_ne_nil b q h).elim,
      fun h => (List.cons_ne_nil b q h).elim⟩
  | nil =>
    cases ffpend with
    | true => exact ⟨[0x00], rfl, fun h => (h rfl).elim, fun _ _ => rfl, fun _ h => Bool.noConfusion h⟩
    | false =>
      have hpad : (⟨[], false, sink⟩ : Writer).pad = ⟨[], false, sink ++ []⟩ := by
        rw [List.append_nil]
        rfl
      exact ⟨[], hpad, fun h => (h rfl).elim, fun _ h => Bool.noConfusion h, fun _ _ => rfl⟩

/-- Settles O8: the flush is the padding of the drained writer, and what is padded does not end in 0xFF. -/
theorem flushPadsAndStuffs : Obligations.FlushPadsAndStuffs := by
  intro s
  obtain ⟨tail, hpad, hqueued, hstuffed, hclean⟩ := s.bw.drain.pad_cases
  refine ⟨s.bw.drain, tail, exec_bwDrain s, ?_, hqueued, hstuffed, hclean, fun hflag => ?_⟩
  · rw [exec_bwFlush, hpad]
    rfl
  · have hlast := (Writer.pad_spec (Writer.flagOk_drain hflag) s.bw.drained_drain).2.1
    rwa [hpad] at hlast

end Sys2Proof.Machine
end

section
/-! PROOFS. The bit reader's operations as the rules give them (R125 to R127). -/

namespace Sys2Proof.Machine

/-! An operation that reads, and how it raises the fault. -/

theorem exec_brReadbit (s : State) :
    exec .brReadbit s = (s.reads readBit).outcome fun b t => t.withRet [(b.toNat : Int)] := rfl

theorem exec_brReadbin (n : Nat) (s : State) :
    exec (.brReadbin n) s =
      (s.reads fun inp size => readBin inp size n).outcome fun v t => t.withRet [(v : Int)] := rfl

theorem exec_brReadunary (s : State) :
    exec .brReadunary s = (s.reads readUnary).outcome fun n t => t.withRet [(n : Int)] := rfl

/-- The outcome of a raised fault raises that fault (R237). -/
theorem raises_outcome_raised {α : Type} (s : State) (f : α → State → State) (kind : FaultKind) (info : Nat) :
    Raises ((Res.raised (s.raise kind info)).outcome f) kind info :=
  ⟨s.raise kind info, rfl, rfl, rfl, rfl⟩

/-! `BR.READBIT`. -/

/-- A fetched bit is taken (R125). -/
theorem readBit_of_fetched {inp : Space 8} {size : Nat} {r : Reader} {b : Bool} {q : Bits} (h : r.rq = b :: q) :
    readBit inp size r = .ok (b, { r with rq := q }) := by
  unfold readBit
  rw [h]

/-- With no bit fetched, the next byte is fetched and its first stream bit is taken (R125). -/
theorem readBit_of_fetch {inp : Space 8} {size : Nat} {r : Reader} {b : Bool} {q : Bits} (hq : r.rq = [])
    (hpos : r.pos < size) (hbits : unstuffByte r.ffpend (readCell inp r.pos) = b :: q) :
    readBit inp size r = .ok (b, { rq := q, ffpend := ffAfter (readCell inp r.pos), pos := r.pos + 1 }) := by
  unfold readBit
  simp only [hq, if_neg (Nat.not_le.mpr hpos), Reader.receive, hbits, List.nil_append]

/-- With no bit fetched and no byte left, no bit is pending (R33). -/
theorem Reader.pending_of_exhausted {inp : Space 8} {size : Nat} {r : Reader} (hq : r.rq = []) (hpos : size ≤ r.pos) :
    r.pending inp size = [] := by
  rw [Reader.pending, hq, Reader.unread_of_ge hpos, unstuffFrom, List.append_nil]

/-! `BR.READUNARY`. -/

theorem takeUnary_of_not_mem {s : Bits} (h : true ∉ s) : takeUnary s = .error .endOfStream := by
  cases ht : takeUnary s with
  | error e => rfl
  | ok p =>
    have hmem : true ∈ unary p.1 ++ p.2 := by simp [unary, Config.unaryStop]
    exact (h (takeUnary_eq_ok ht ▸ hmem)).elim

/-- Pending zeros and the one after them are counted and consumed (R127). -/
theorem State.reads_readUnary {s : State} {n : Nat} {rest : Bits} (h : s.pending = unary n ++ rest) :
    ∃ r, s.reads readUnary = .ok n (s.withBr r) ∧ r.pending s.inp s.size = rest := by
  have htake : takeUnary (s.br.pending s.inp s.size) = .ok (n, rest) :=
    (congrArg takeUnary h).trans (takeUnary_append n rest)
  obtain ⟨r, hr, hrest, -⟩ := readUnary_of_takeUnary htake
  exact ⟨r, State.reads_of_ok hr, hrest⟩

/-- With no one pending, the count ends in the fault at the end of IN (R127). -/
theorem State.reads_readUnary_missing {s : State} (h : true ∉ s.pending) :
    ∃ r, s.reads readUnary = .raised ((s.withBr r).raise .unexpectedEndOfStream r.pos) ∧
      (s.br.pos ≤ s.size → r.pos = s.size) := by
  obtain ⟨r, hr, hpos⟩ := readUnary_of_error (takeUnary_of_not_mem h)
  exact ⟨r, State.reads_of_error hr, hpos⟩

/-! The reads run by name. -/

theorem exec_brReadbit_of_exhausted {s : State} (hq : s.br.rq = []) (hpos : s.size ≤ s.br.pos) :
    Raises (exec .brReadbit s) .unexpectedEndOfStream s.br.pos := by
  obtain ⟨hr, -⟩ := State.reads_readBit_nil (s := s) (Reader.pending_of_exhausted hq hpos)
  rw [exec_brReadbit, hr]
  exact raises_outcome_raised _ _ _ _

theorem exec_brReadbin_of_pending {s : State} {n : Nat} {v rest : Bits} (hv : v.length = n)
    (h : s.pending = v ++ rest) :
    ∃ r, exec (.brReadbin n) s = .next { s with br := r, ret := [(valOf v : Int)] } ∧
      r.pending s.inp s.size = rest := by
  obtain ⟨r, hr, hrest, -⟩ := State.reads_readBin h hv
  refine ⟨r, ?_, hrest⟩
  rw [exec_brReadbin, hr]
  rfl

theorem exec_brReadbin_of_short {s : State} {n : Nat} (h : s.pending.length < n) (hpos : s.br.pos ≤ s.size) :
    Raises (exec (.brReadbin n) s) .unexpectedEndOfStream s.size := by
  obtain ⟨r, hr, hend⟩ := State.reads_readBin_short h
  rw [exec_brReadbin, hr, hend hpos]
  exact raises_outcome_raised _ _ _ _

theorem exec_brReadunary_of_pending {s : State} {n : Nat} {rest : Bits} (h : s.pending = unary n ++ rest) :
    ∃ r, exec .brReadunary s = .next { s with br := r, ret := [(n : Int)] } ∧ r.pending s.inp s.size = rest := by
  obtain ⟨r, hr, hrest⟩ := State.reads_readUnary h
  refine ⟨r, ?_, hrest⟩
  rw [exec_brReadunary, hr]
  rfl

theorem exec_brReadunary_of_missing {s : State} (h : true ∉ s.pending) (hpos : s.br.pos ≤ s.size) :
    Raises (exec .brReadunary s) .unexpectedEndOfStream s.size := by
  obtain ⟨r, hr, hend⟩ := State.reads_readUnary_missing h
  rw [exec_brReadunary, hr, hend hpos]
  exact raises_outcome_raised _ _ _ _

/-- Settles O10: one bit by the reader's queue and next byte, numbers and unary codes by the bits pending. -/
theorem readsTakeTheNextBits : Obligations.ReadsTakeTheNextBits := by
  intro s
  refine ⟨fun b q hrq => ?_, fun byte b q hrq hpos hbyte hbits => ?_, exec_brReadbit_of_exhausted, rfl,
    fun n v rest _ hv hp => exec_brReadbin_of_pending hv hp, fun n _ hp hpos => exec_brReadbin_of_short hp hpos,
    fun n rest hp => exec_brReadunary_of_pending ?_, exec_brReadunary_of_missing⟩
  · rw [exec_brReadbit, State.reads_of_ok (readBit_of_fetched hrq)]
    rfl
  · subst hbyte
    rw [exec_brReadbit, State.reads_of_ok (readBit_of_fetch hrq hpos hbits)]
    rfl
  · rw [hp, unary, List.append_assoc]
    rfl

end Sys2Proof.Machine
end

section
/-! PROOFS. The quantizer, the context id and the context index as operations run by name (R141, R143, R144). -/

namespace Sys2Proof.Machine

theorem exec_quant (d : Int) (s : State) : exec (.quant d) s = .next { s with ret := [quantize d] } := rfl

/-- The context id is composed of the levels of the three gradients (R143). -/
theorem exec_ctxid (ra rb rc rd : Sample) (s : State) :
    exec (.ctxid ra rb rc rd) s =
      .next { s with q := contextId ra rb rc rd, ret := [contextId ra rb rc rd] } := rfl

theorem exec_ctxsel (q : Int) (s : State) :
    exec (.ctxsel q) s = .next { s with
      sign := signOf q, ci := contextIndex q, ret := [(signOf q).toInt, ((contextIndex q).val : Int)] } := rfl

theorem signOf_toInt (q : Int) : (signOf q).toInt = if q < 0 then -1 else 1 := by
  unfold signOf
  split <;> rfl

/-- Settles O11: the level by `quantize_cases`, the context id by its definition, the index by `contextIndex_val`. -/
theorem contextIdOperations : Obligations.ContextIdOperations := by
  intro s
  refine ⟨fun d _ _ => ⟨quantize d, exec_quant d s, ?_⟩, fun ra rb rc rd => ?_, fun q hlow hhigh => ?_⟩
  · have hlevels := quantize_cases d
    omega
  · exact ⟨_, _, _, exec_quant _ s, exec_quant _ s, exec_quant _ s, exec_ctxid ra rb rc rd s⟩
  · refine ⟨contextIndex q, contextIndex_val hlow hhigh, ?_⟩
    rw [exec_ctxsel, signOf_toInt, contextIndex_val hlow hhigh, signOf]

end Sys2Proof.Machine
end

section
/-! PROOFS. The predictor, its correction, the residual and the reconstruction as operations run by name (R150 to
R154). -/

namespace Sys2Proof.Machine

theorem exec_predict (ra rb rc : Sample) (s : State) :
    exec (.predict ra rb rc) s = .next { s with ret := [sampleInt (medPredict ra rb rc)] } := rfl

theorem exec_corrpred (p : Sample) (c : BitVec 8) (sign : Sign) (s : State) :
    exec (.corrpred p c sign) s = .next { s with
      px := correctPrediction p c sign, ret := [sampleInt (correctPrediction p c sign)] } := rfl

theorem exec_modrange (d : Int) (s : State) : exec (.modrange d) s = .next { s with ret := [modRange d] } := rfl

theorem exec_errval (x px : Sample) (sign : Sign) (s : State) :
    exec (.errval x px sign) s = .next { s with e := errVal x px sign, ret := [errVal x px sign] } := rfl

theorem exec_recon (px : Sample) (e : Int) (sign : Sign) (s : State) :
    exec (.recon px e sign) s = .next { s with ret := [sampleInt (reconstruct px e sign)] } := rfl

/-- The outcomes of the two tests, with their conditions; the first test wins when all three samples agree (R150). -/
theorem medPredict_cases (ra rb rc : Sample) :
    (max ra.toNat rb.toNat ≤ rc.toNat ∧ (medPredict ra rb rc).toNat = min ra.toNat rb.toNat) ∨
    (rc.toNat < max ra.toNat rb.toNat ∧ rc.toNat ≤ min ra.toNat rb.toNat ∧
      (medPredict ra rb rc).toNat = max ra.toNat rb.toNat) ∨
    (rc.toNat < max ra.toNat rb.toNat ∧ min ra.toNat rb.toNat < rc.toNat ∧
      ((medPredict ra rb rc).toNat : Int) = ra.toNat + rb.toNat - rc.toNat) := by
  have hval := sampleInt_medPredict ra rb rc
  simp only [sampleInt] at hval
  split_ifs at hval <;> omega

/-- The residual is the reduction of the signed difference: sign first, reduction second (R153). -/
theorem errVal_eq (x px : Sample) (sign : Sign) :
    errVal x px sign = modRange (sign.toInt * (sampleInt x - sampleInt px)) := by
  rw [errVal, applySign_eq]

/-- The reconstruction adds the signed residual modulo 65536 (R154). -/
theorem sampleInt_reconstruct (px : Sample) (e : Int) (sign : Sign) :
    sampleInt (reconstruct px e sign) = (sampleInt px + sign.toInt * e) % 65536 := by
  rw [reconstruct, sampleInt_toSample_mod, applySign_eq]

/-- Settles O14: the residue by `modRange_spec`, the residual by `errVal_eq`, the sample by `sampleInt_reconstruct`. -/
theorem residualAndReconstruction : Obligations.ResidualAndReconstruction := by
  intro s
  refine ⟨fun d => ⟨modRange d, exec_modrange d s, modRange_spec d⟩, fun x px sign => ?_, fun px e sign => ?_⟩
  · refine ⟨errVal x px sign, ?_, exec_errval x px sign s⟩
    rw [exec_modrange, errVal_eq, sampleInt, sampleInt]
  · exact ⟨reconstruct px e sign, exec_recon px e sign s, sampleInt_reconstruct px e sign⟩

/-- Settles O13: the prediction by `medPredict_cases`, the clamp by `sampleInt_correctPrediction`. -/
theorem predictAndCorrect : Obligations.PredictAndCorrect := by
  intro s
  refine ⟨fun ra rb rc => ?_, fun p c sign => ?_⟩
  · have hcases := medPredict_cases ra rb rc
    exact ⟨medPredict ra rb rc, exec_predict ra rb rc s, by omega, by omega, by omega⟩
  · refine ⟨correctPrediction p c sign, exec_corrpred p c sign s, ?_⟩
    rw [← applySign_eq]
    exact sampleInt_correctPrediction p c sign

end Sys2Proof.Machine
end

section
/-! PROOFS. The context files as operations run by name: their creation, the search for k, the correction bit, the
residual mapping and the update of a regular context (R160 to R165, R170, R173). -/

namespace Sys2Proof.Machine

/-! Creation. -/

theorem exec_rcInit (s : State) : exec .rcInit s = .next { s with reg := Vector.replicate 365 RegCtx.init } := rfl

theorem exec_riInit (s : State) : exec .riInit s = .next { s with ri := #v[RunCtx.init 0, RunCtx.init 1] } := rfl

/-- The initial run-interruption file holds the initial entry of each index (R170). -/
theorem get_runCtxInit (t : Fin 2) : (#v[RunCtx.init 0, RunCtx.init 1] : Vector RunCtx 2).get t = RunCtx.init t := by
  fin_cases t <;> rfl

/-- The fields of an initial regular entry (R160). -/
theorem RegCtx.init_fields : RegCtx.init.a.toInt = 1024 ∧ RegCtx.init.b.toInt = 0 ∧ RegCtx.init.c.toInt = 0 ∧
    RegCtx.init.n.toInt = 1 := by decide

/-- The fields of an initial run-interruption entry (R170). -/
theorem RunCtx.init_fields (t : Fin 2) : (RunCtx.init t).a.toInt = 1024 ∧ (RunCtx.init t).n.toInt = 1 ∧
    (RunCtx.init t).nn.toInt = 0 ∧ (RunCtx.init t).rItype = t ∧ (RunCtx.init t).resetThreshold.toInt = 64 :=
  ⟨rfl, rfl, rfl, rfl, rfl⟩

/-- Settles O16: each file holds the initial entries, whose fields are `RegCtx.init_fields` and `RunCtx.init_fields`. -/
theorem initCreatesContexts : Obligations.InitCreatesContexts := by
  intro s
  refine ⟨⟨_, exec_rcInit s, fun i => ?_⟩, _, exec_riInit s, fun t => ?_⟩
  · rw [Vector.get_replicate]
    exact RegCtx.init_fields
  · rw [get_runCtxInit]
    exact RunCtx.init_fields t

/-! The search for k. -/

theorem exec_rcGetk (i : Fin Config.nctx) (s : State) :
    exec (.rcGetk i) s = (s.regK i).outcome fun k t => { t with k := k, ret := [(k : Int)] } := rfl

theorem exec_riGetk (t : Fin Config.nri) (s : State) :
    exec (.riGetk t) s = (s.runK t).outcome fun k u => { u with k := k, ret := [(k : Int)] } := rfl

/-- `RC.GETK` with the k its search ends at (R161). -/
theorem exec_rcGetk_of_getK {s : State} {i : Fin Config.nctx} {k : Nat} (h : (s.reg.get i).getK = some k) :
    exec (.rcGetk i) s = .next { s with k := k, ret := [(k : Int)] } := by
  rw [exec_rcGetk, State.regK_ok h, Res.outcome_ok]

/-- `RI.GETK` with the k its search ends at (R173). -/
theorem exec_riGetk_of_getK {s : State} {t : Fin Config.nri} {k : Nat} (h : (s.ri.get t).getK t = some k) :
    exec (.riGetk t) s = .next { s with k := k, ret := [(k : Int)] } := by
  rw [exec_riGetk, State.runK_ok h, Res.outcome_ok]

/-- With a count of at least 1 the search of a regular entry ends (R256), at the least k (R161). -/
theorem RegCtx.getK_spec {c : RegCtx} (hn : 1 ≤ c.n.toInt) :
    ∃ k, c.getK = some k ∧ c.a.toInt ≤ c.n.toInt * 2 ^ k ∧ ∀ j < k, c.n.toInt * 2 ^ j < c.a.toInt := by
  obtain ⟨-, ha⟩ := fits32_iff.mp (fits32_toInt c.a)
  obtain ⟨k, hk⟩ := leastShift_isSome hn (target := c.a.toInt) (by omega)
  obtain ⟨hle, hleast, -⟩ := leastShift_eq_some hk
  exact ⟨k, hk, hle, hleast⟩

/-- With a count of at least 1 the search of a run-interruption entry ends (R256), at the least k (R173). -/
theorem RunCtx.getK_spec {c : RunCtx} (t : Fin Config.nri) (hn : 1 ≤ c.n.toInt) :
    ∃ k, c.getK t = some k ∧ c.a.toInt + c.n.toInt / 2 * t.val ≤ c.n.toInt * 2 ^ k ∧
      ∀ j < k, c.n.toInt * 2 ^ j < c.a.toInt + c.n.toInt / 2 * t.val := by
  obtain ⟨-, ha⟩ := fits32_iff.mp (fits32_toInt c.a)
  obtain ⟨-, hn'⟩ := fits32_iff.mp (fits32_toInt c.n)
  have htarget : c.a.toInt + c.n.toInt / 2 * t.val ≤ 2 ^ 33 := by
    fin_cases t <;> norm_num <;> omega
  obtain ⟨k, hk⟩ := leastShift_isSome hn htarget
  obtain ⟨hle, hleast, -⟩ := leastShift_eq_some hk
  refine ⟨k, ?_, hle, hleast⟩
  rw [RunCtx.getK, asr_one, hk]

/-- Settles O17: both searches end at the least k, by `RegCtx.getK_spec` and `RunCtx.getK_spec`. -/
theorem golombParameterIsLeast : Obligations.GolombParameterIsLeast := by
  intro s
  refine ⟨fun i hn => ?_, fun t hn => ?_⟩
  · obtain ⟨k, hk, hleast⟩ := RegCtx.getK_spec hn
    exact ⟨k, exec_rcGetk_of_getK hk, hleast⟩
  · obtain ⟨k, hk, hleast⟩ := RunCtx.getK_spec t hn
    exact ⟨k, exec_riGetk_of_getK hk, hleast⟩

/-! The correction bit and the residual mapping. -/

theorem exec_rcGetcorr (i : Fin Config.nctx) (k : Nat) (s : State) :
    exec (.rcGetcorr i k) s = .next { s with ret := [((s.reg.get i).getCorr k : Int)] } := rfl

theorem exec_maperr (e : Int) (s : State) :
    exec (.maperr e) s = .next { s with m := mapErr e, ret := [(mapErr e : Int)] } := rfl

theorem exec_unmaperr (m : Nat) (s : State) :
    exec (.unmaperr m) s = .next { s with e := unmapErr m, ret := [unmapErr m] } := rfl

/-- The correction bit as an integer (R162). -/
theorem RegCtx.getCorr_eq (c : RegCtx) (k : Nat) :
    (c.getCorr k : Int) = if k ≠ 0 then 0 else if 2 * c.b.toInt + c.n.toInt - 1 < 0 then 1 else 0 := by
  unfold RegCtx.getCorr signBit
  split_ifs <;> rfl

/-- Settles O18: the correction bit by `RegCtx.getCorr_eq`, the mapping by `mapErr_eq`, its inverse by `unmapErr_spec`. -/
theorem correctionAndMapping : Obligations.CorrectionAndMapping := by
  intro s
  refine ⟨fun i k => ?_, fun e => ?_, fun m => ⟨unmapErr m, exec_unmaperr m s, unmapErr_spec m⟩⟩
  · rw [exec_rcGetcorr, RegCtx.getCorr_eq]
  · rw [exec_maperr, mapErr_eq]

/-! The update of a regular context. -/

theorem exec_rcUpdate (i : Fin Config.nctx) (e : Int) (s : State) :
    exec (.rcUpdate i e) s = (s.updateReg i e).outcome fun _ t => t := rfl

/-- An update that stores (R165). -/
theorem exec_rcUpdate_of_some {s : State} {i : Fin Config.nctx} {e : Int} {c : RegCtx}
    (h : (s.reg.get i).update e = some c) : exec (.rcUpdate i e) s = .next { s with reg := s.reg.set i c } := by
  rw [exec_rcUpdate, State.updateReg_ok h, Res.outcome_ok, State.withReg]

/-- An update that overflows raises ContextOverflow with the context index (R230, R233). -/
theorem raises_rcUpdate_of_none {s : State} {i : Fin Config.nctx} {e : Int} (h : (s.reg.get i).update e = none) :
    Raises (exec (.rcUpdate i e) s) .contextOverflow i.val := by
  have hraised : s.updateReg i e = .raised (s.raise .contextOverflow i.val) := by rw [State.updateReg, h]
  rw [exec_rcUpdate, hraised]
  exact raises_outcome_raised s _ .contextOverflow i.val

/-- Steps 1 and 2 of an update that does not overflow: the working copies, halved where the count read is 64, go to
steps 3 to 5 (R165). -/
theorem RegCtx.update_eq_bias {c : RegCtx} {e : Int} (ha : fits32 (c.a.toInt + |e|) = true)
    (hb : fits32 (c.b.toInt + e) = true) :
    c.update e = c.bias (if c.n.toInt = 64 then (c.a.toInt + |e|) / 2 else c.a.toInt + |e|)
      (if c.n.toInt = 64 then (c.b.toInt + e) / 2 else c.b.toInt + e)
      (if c.n.toInt = 64 then c.n.toInt / 2 + 1 else c.n.toInt + 1) := by
  rw [RegCtx.update, ha, hb, show Config.reset = 64 from rfl]
  simp only [asr_one, Bool.and_self, if_true]
  split_ifs <;> rfl

/-- Halving keeps an integer in the 32-bit range (R165). -/
theorem fits32_halved {v : Int} (p : Prop) [Decidable p] (h : fits32 v = true) :
    fits32 (if p then v / 2 else v) = true := by
  obtain ⟨hlow, hhigh⟩ := fits32_iff.mp h
  refine fits32_iff.mpr ?_
  split_ifs <;> omega

/-- Settles O20: within the range the working copies of `RegCtx.update_eq_bias` are stored as `RegCtx.bias_spec` says,
outside it `RegCtx.update_eq_none` gives the fault. -/
theorem rcUpdateFiveSteps : Obligations.RcUpdateFiveSteps := by
  intro s i e a b n hn hn' ha hb hnew
  refine ⟨fun hahigh hblow hbhigh => ?_, fun hover => ?_⟩
  · obtain ⟨halow, -⟩ := fits32_iff.mp (fits32_toInt (s.reg.get i).a)
    have habs := abs_nonneg e
    have hafits : fits32 ((s.reg.get i).a.toInt + |e|) = true := fits32_iff.mpr ⟨by omega, hahigh⟩
    have hbfits : fits32 ((s.reg.get i).b.toInt + e) = true := fits32_iff.mpr ⟨hblow, hbhigh⟩
    have hcount : 1 ≤ n ∧ n ≤ 2147483647 := by omega
    have hupdate := RegCtx.update_eq_bias hafits hbfits
    rw [← ha, ← hb, ← hnew] at hupdate
    obtain ⟨c, hbias, hca, hcn, hcb, hcc⟩ := (s.reg.get i).bias_spec (ha ▸ fits32_halved _ hafits)
      (hb ▸ fits32_halved _ hbfits) hcount.1 hcount.2
    refine ⟨c, exec_rcUpdate_of_some (hupdate.trans hbias), hca, hcn, ?_, hcc⟩
    rw [hcb]
    split_ifs <;> omega
  · refine raises_rcUpdate_of_none (RegCtx.update_eq_none fun hfits => ?_)
    rw [fits32_iff, fits32_iff] at hfits
    omega

end Sys2Proof.Machine
end

section
/-! PROOFS. The run-interruption context as operations run by name: the selection, the residual and its reconstruction,
the residual mapping and its inverse, the update of an entry (R171, R172, R174 to R178). -/

namespace Sys2Proof.Machine

/-! The selection, the residual and the reconstruction. -/

theorem exec_riSelect (ra rb : Sample) (s : State) :
    exec (.riSelect ra rb) s = .next { s with ret := [((runSelect ra rb).val : Int)] } := rfl

theorem exec_riErrval (x ra rb : Sample) (s : State) :
    exec (.riErrval x ra rb) s = .next { s with
      e := (runResidual x ra rb).1, ret := [(runResidual x ra rb).1, (runResidual x ra rb).2.toInt] } := rfl

theorem exec_riRecon (ra rb : Sample) (e : Int) (s : State) :
    exec (.riRecon ra rb e) s = .next { s with ret := [sampleInt (runReconstruct ra rb e)] } := rfl

/-- The context number as an integer (R171). -/
theorem runSelect_val (ra rb : Sample) : ((runSelect ra rb).val : Int) = if ra = rb then 1 else 0 := by
  rw [runSelect_eq]
  split_ifs <;> rfl

theorem runBase_eq (ra rb : Sample) : runBase ra rb = if ra = rb then (ra.toNat : Int) else rb.toNat := rfl

theorem runSign_eq (ra rb : Sample) : runSign ra rb = if rb.toNat < ra.toNat then -1 else 1 := by
  simp only [runSign, sampleInt, Nat.cast_lt]

/-- Settles O21: base and sign are `runBase` and `runSign`; the residual by `runResidual_eq` and `modRange_spec`, the
sample by `sampleInt_runReconstruct`. -/
theorem runInterruptionResidual : Obligations.RunInterruptionResidual := by
  intro s ra rb base sg hbase hsg
  rw [← runBase_eq] at hbase
  rw [← runSign_eq] at hsg
  subst hbase hsg
  refine ⟨?_, fun x => ?_, fun e => ⟨runReconstruct ra rb e, exec_riRecon ra rb e s, sampleInt_runReconstruct ra rb e⟩⟩
  · rw [exec_riSelect, runSelect_val]
  · obtain ⟨hresidual, hsign⟩ := runResidual_eq x ra rb
    refine ⟨_, ?_, modRange_spec ((sampleInt x - runBase ra rb) * runSign ra rb)⟩
    rw [exec_riErrval, hsign, hresidual]

/-! The residual mapping. -/

theorem exec_riMap (t : Fin Config.nri) (e : Int) (k : Nat) (s : State) :
    exec (.riMap t e k) s = .next { s with ret := [((s.ri.get t).map e k : Int)] } := rfl

theorem exec_riEmerr (t : Fin Config.nri) (e : Int) (k : Nat) (s : State) :
    exec (.riEmerr t e k) s = .next { s with
      m := (s.ri.get t).mappedErr t e k, ret := [(s.ri.get t).mappedErr t e k] } := rfl

theorem exec_riUnmap (t : Fin Config.nri) (em k : Nat) (s : State) :
    exec (.riUnmap t em k) s = .next { s with
      e := (s.ri.get t).unmap t em k, ret := [(s.ri.get t).unmap t em k] } := rfl

/-- The map bit as an integer, by its three conditions (R174). -/
theorem RunCtx.map_cast (c : RunCtx) (e : Int) (k : Nat) :
    (c.map e k : Int) = if k = 0 ∧ e > 0 ∧ 2 * c.nn.toInt < c.n.toInt then 1
      else if e < 0 ∧ 2 * c.nn.toInt ≥ c.n.toInt then 1 else if e < 0 ∧ k ≠ 0 then 1 else 0 := by
  unfold RunCtx.map
  split_ifs <;> rfl

/-- The unmapped residual is negative where the condition on k and Nn is the parity of EM + t (R176). -/
theorem RunCtx.unmap_eq (c : RunCtx) (t : Fin Config.nri) (em k : Nat) :
    c.unmap t em k = if (if k ≠ 0 ∨ 2 * c.nn.toInt ≥ c.n.toInt then 1 else 0) = (em + t.val) % 2
      then -(((em + t.val + (em + t.val) % 2) / 2 : Nat) : Int) else ((em + t.val + (em + t.val) % 2) / 2 : Nat) := by
  rw [RunCtx.unmap, Nat.shiftRight_one]

/-- Settles O22: the map bit by `RunCtx.map_cast`, the mapped value by its definition, the residual by
`RunCtx.unmap_eq`. -/
theorem runInterruptionMapping : Obligations.RunInterruptionMapping := by
  intro s t k
  refine ⟨fun e => ⟨((s.ri.get t).map e k : Int), exec_riMap t e k s, RunCtx.map_cast _ e k, exec_riEmerr t e k s⟩,
    fun em temp mp ab c htemp hmp hab hc => ?_⟩
  subst htemp hmp hab hc
  rw [exec_riUnmap, RunCtx.unmap_eq]

/-! The update of an entry. -/

theorem exec_riUpdate (t : Fin Config.nri) (e : Int) (em : Nat) (s : State) :
    exec (.riUpdate t e em) s = (s.updateRi t e em).outcome fun _ u => u := rfl

/-- Counting a negative residual writes Nn alone (R177). -/
theorem RunCtx.countNegative_frame (c : RunCtx) (e : Int) : (c.countNegative e).n = c.n ∧
    (c.countNegative e).rItype = c.rItype ∧ (c.countNegative e).resetThreshold = c.resetThreshold := by
  unfold RunCtx.countNegative
  split_ifs <;> exact ⟨rfl, rfl, rfl⟩

/-- A negative residual is counted in Nn (R177). -/
theorem RunCtx.toInt_nn_countNegative {c : RunCtx} (e : Int) (h : c.nn.toInt < 2147483647) :
    (c.countNegative e).nn.toInt = c.nn.toInt + if e < 0 then 1 else 0 := by
  obtain ⟨hlow, -⟩ := fits32_iff.mp (fits32_toInt c.nn)
  unfold RunCtx.countNegative
  split_ifs
  · exact toInt_storeCounter (fits32_iff.mpr ⟨by omega, by omega⟩)
  · rw [add_zero]

/-- Accumulating keeps the entry's context number and its threshold (R177). -/
theorem RunCtx.accumulate_frame (c : RunCtx) (a : Int) :
    (c.accumulate a).rItype = c.rItype ∧ (c.accumulate a).resetThreshold = c.resetThreshold := by
  unfold RunCtx.accumulate
  split_ifs <;> exact ⟨rfl, rfl⟩

theorem fits32_half {v : Int} (h : fits32 v = true) : fits32 (v / 2) = true := by
  simpa using fits32_halved True h

/-- Where N is the threshold, A, N and Nn are halved before N is incremented (R177). -/
theorem RunCtx.accumulate_of_threshold {c : RunCtx} {a : Int} (ha : fits32 a = true)
    (h : c.n.toInt = c.resetThreshold.toInt) : (c.accumulate a).a.toInt = a / 2 ∧
      (c.accumulate a).n.toInt = c.n.toInt / 2 + 1 ∧ (c.accumulate a).nn.toInt = c.nn.toInt / 2 := by
  obtain ⟨hnlow, hnhigh⟩ := fits32_iff.mp (fits32_toInt c.n)
  rw [RunCtx.accumulate, if_pos h]
  simp only [asr_one]
  exact ⟨toInt_ofInt_of_fits (fits32_half ha),
    toInt_storeCounter (fits32_iff.mpr ⟨by omega, by omega⟩),
    toInt_ofInt_of_fits (fits32_half (fits32_toInt c.nn))⟩

/-- Elsewhere A is stored, N is incremented and Nn is kept (R177). -/
theorem RunCtx.accumulate_of_ne_threshold {c : RunCtx} {a : Int} (ha : fits32 a = true) (hn : c.n.toInt < 2147483647)
    (h : c.n.toInt ≠ c.resetThreshold.toInt) : (c.accumulate a).a.toInt = a ∧
      (c.accumulate a).n.toInt = c.n.toInt + 1 ∧ (c.accumulate a).nn = c.nn := by
  obtain ⟨hlow, -⟩ := fits32_iff.mp (fits32_toInt c.n)
  rw [RunCtx.accumulate, if_neg h]
  exact ⟨toInt_ofInt_of_fits ha, toInt_storeCounter (fits32_iff.mpr ⟨by omega, by omega⟩), rfl⟩

/-- An update whose A fits stores the counted and accumulated entry (R177). -/
theorem exec_riUpdate_of_fits {s : State} {t : Fin Config.nri} {em : Nat} {a : Int} (e : Int)
    (ha : a = (s.ri.get t).a.toInt + ((em : Int) + 1 - t.val) / 2) (h : fits32 a = true) :
    exec (.riUpdate t e em) s =
      .next { s with ri := s.ri.set t (((s.ri.get t).countNegative e).accumulate a) } := by
  have hupdate : s.updateRi t e em = .ok () (s.withRi t (((s.ri.get t).countNegative e).accumulate a)) := by
    simp only [State.updateRi, RunCtx.a_countNegative, asr_one, ← ha]
    rw [if_pos h]
  rw [exec_riUpdate, hupdate, Res.outcome_ok, State.withRi]

/-- An update whose A does not fit raises ContextOverflow with 365 + t (R230, R233). -/
theorem raises_riUpdate_of_not_fits {s : State} {t : Fin Config.nri} {em : Nat} {a : Int} (e : Int)
    (ha : a = (s.ri.get t).a.toInt + ((em : Int) + 1 - t.val) / 2) (h : ¬fits32 a = true) :
    Raises (exec (.riUpdate t e em) s) .contextOverflow (365 + t.val) := by
  have hraised : s.updateRi t e em =
      .raised ((s.withRi t ((s.ri.get t).countNegative e)).raise .contextOverflow (365 + t.val)) := by
    simp only [State.updateRi, RunCtx.a_countNegative, asr_one, ← ha]
    rw [if_neg h]
  rw [exec_riUpdate, hraised]
  exact raises_outcome_raised _ _ _ _

/-- Settles O24: the entry stored is `accumulate` of `countNegative`, so the halving acts on the incremented A and Nn;
where A leaves the range `raises_riUpdate_of_not_fits` gives the fault. -/
theorem riUpdateAccumulates : Obligations.RiUpdateAccumulates := by
  intro s t e em a nn _ hn _ hnn ha hnew
  obtain ⟨halow, -⟩ := fits32_iff.mp (fits32_toInt (s.ri.get t).a)
  refine ⟨fun hahigh => ?_, fun hover => raises_riUpdate_of_not_fits e ha ?_⟩
  · have hfits : fits32 a = true := fits32_iff.mpr ⟨by omega, hahigh⟩
    obtain ⟨hkeptN, hkeptType, hkeptThreshold⟩ := (s.ri.get t).countNegative_frame e
    obtain ⟨htype, hthreshold⟩ := ((s.ri.get t).countNegative e).accumulate_frame a
    have hcounted : ((s.ri.get t).countNegative e).nn.toInt = nn := hnew ▸ RunCtx.toInt_nn_countNegative e hnn
    refine ⟨((s.ri.get t).countNegative e).accumulate a, exec_riUpdate_of_fits e ha hfits,
      htype.trans hkeptType, hthreshold.trans hkeptThreshold, fun h64 => ?_, fun h64 => ?_⟩
    · rw [← hkeptN, ← hkeptThreshold] at h64
      rw [← hkeptN, ← hcounted]
      exact RunCtx.accumulate_of_threshold hfits h64
    · rw [← hkeptN, ← hkeptThreshold] at h64
      obtain ⟨hstored, hcount, hkeptNn⟩ := RunCtx.accumulate_of_ne_threshold hfits (hkeptN ▸ hn) h64
      exact ⟨hstored, hkeptN ▸ hcount, hkeptNn ▸ hcounted⟩
  · rw [fits32_iff]
    omega

end Sys2Proof.Machine
end

section
/-! PROOFS. The reading of a Golomb-Rice codeword as an operation run by name: what the decoder of codewords answers on
the bits pending is what `GR.DEC` does (R181). -/

namespace Sys2Proof.Machine

/-! Codewords among the bits, and codewords that are cut off. -/

/-- Zeros and the one after them are a unary code (R93). -/
theorem replicate_false_append_true (n : Nat) (s : Bits) : List.replicate n false ++ true :: s = unary n ++ s := by
  rw [unary, List.append_assoc]
  rfl

theorem takeBits_of_short {n : Nat} {s : Bits} (h : s.length < n) : takeBits n s = .error .endOfStream := if_pos h

/-- A field shorter than the form its unary code selects does not decode (R101, R103). -/
theorem decodeGolomb_of_short_field {k limit h : Nat} {short : Bits}
    (hshort : short.length < if escThreshold limit ≤ h then Config.qbpp else k) :
    decode (.golomb k limit) (unary h ++ short) = .error .endOfStream := by
  rw [decode, decodeGolomb, takeUnary_append]
  by_cases hesc : escThreshold limit ≤ h
  · rw [if_pos hesc] at hshort
    simp only [if_neg (Nat.not_lt.mpr hesc), takeBits_of_short hshort]
  · rw [if_neg hesc] at hshort
    simp only [if_pos (Nat.not_le.mp hesc), takeBits_of_short hshort]

/-- Bits without a one do not decode (R101, R103). -/
theorem decodeGolomb_of_not_mem {k limit : Nat} {s : Bits} (h : true ∉ s) :
    decode (.golomb k limit) s = .error .endOfStream := by
  rw [decode, decodeGolomb, takeUnary_of_not_mem h]

/-- The value of an escape is its field plus 1 (R96). -/
theorem golombValue_esc_valOf {limit : Nat} {v : Bits} (hv : v.length = 16) :
    golombValue (.esc limit (.ofNat 16 (valOf v))) = valOf v + 1 := by
  have hlt : valOf v < 2 ^ 16 := hv ▸ valOf_lt v
  rw [golombValue_esc, BitVec.toNat_ofNat, Nat.mod_eq_of_lt hlt]

/-! `GR.DEC` by what its pending bits decode to. -/

theorem exec_grDec (k limit : Nat) (s : State) :
    exec (.grDec k limit) s = (s.reads fun inp size => readGolomb inp size k limit).outcome
      fun m t => { t with m := m, ret := [(m : Int)] } := rfl

/-- A codeword pending is consumed, and its value goes to M (R24, R181). -/
theorem exec_grDec_of_decode {s : State} {k limit : Nat} {i : Instr} {rest : Bits}
    (h : decode (.golomb k limit) s.pending = .ok (i, rest)) :
    ∃ r, exec (.grDec k limit) s =
        .next { s with br := r, m := golombValue i, ret := [(golombValue i : Int)] } ∧
      r.pending s.inp s.size = rest := by
  obtain ⟨r, hr, hrest, -⟩ := State.reads_readGolomb h
  refine ⟨r, ?_, hrest⟩
  rw [exec_grDec, hr]
  rfl

/-- Bits that end inside the codeword raise the fault at the end of IN (R125, R181). -/
theorem raises_grDec_of_decode_error {s : State} {k limit : Nat} {e : DecodeError}
    (h : decode (.golomb k limit) s.pending = .error e) (hpos : s.br.pos ≤ s.size) :
    Raises (exec (.grDec k limit) s) .unexpectedEndOfStream s.size := by
  obtain ⟨r, hr, hend⟩ := State.reads_readGolomb_error h
  rw [exec_grDec, hr, hend hpos]
  exact raises_outcome_raised _ _ _ _

/-- Settles O28: the bits pending decode to an escape or to a short form by the count of their zeros, or to an error,
and `GR.DEC` does what the decoder answers. -/
theorem grDecReadsCodeword : Obligations.GrDecReadsCodeword := by
  intro s k limit _ _ _
  refine ⟨fun h v rest hp hesc hv => ?_, fun h v rest hp hgr hv => ?_, fun h short hpos hp hshort => ?_,
    fun hpos hone => raises_grDec_of_decode_error (decodeGolomb_of_not_mem hone) hpos⟩
  · rw [replicate_false_append_true, ← List.append_assoc] at hp
    have hdec := exec_grDec_of_decode (k := k) (hp ▸ decodeGolomb_escape rest hesc hv)
    rwa [golombValue_esc_valOf hv, Nat.cast_succ] at hdec
  · rw [replicate_false_append_true, ← List.append_assoc] at hp
    exact exec_grDec_of_decode (hp ▸ decodeGolomb_short rest hgr hv)
  · rw [replicate_false_append_true] at hp
    exact raises_grDec_of_decode_error (hp ▸ decodeGolomb_of_short_field hshort) hpos

end Sys2Proof.Machine
end

section
/-! PROOFS. When an operation written as a sequence of parts agrees with its parts run by name, one after another: one rule
for each part that may stop or raise a fault (R237, U5). -/

namespace Sys2Proof.Machine

/-- Outcomes that are the same but for the place of returned results agree. -/
theorem agrees_next {t u : State} (h : t.withRet [] = u.withRet []) : Agrees (.next t) (.next u) :=
  ⟨congrArg (·.status) h, fun _ => ⟨congrArg (·.faultKind) h, congrArg (·.faultInfo) h⟩, fun _ => h⟩

/-- Of a raised fault only its kind and its information count (R237). -/
theorem agrees_raise (t u : State) (kind : FaultKind) (info : Nat) :
    Agrees (.next (t.raise kind info)) (.next (u.raise kind info)) :=
  ⟨rfl, fun _ => ⟨rfl, rfl⟩, fun h => absurd rfl h⟩

/-- After parts that keep the frame of a state without a fault, the next part follows (R70, R237). -/
theorem Res.Keeps.outcome_bind {r : Res Unit} {s : State} (hr : r.Keeps s) (hs : s.status ≠ .fault)
    (f : State → Res Unit) :
    (r.bind fun _ t => f t).outcome (fun _ t => t) =
      thenDo (r.outcome fun _ t => t) fun t => (f t).outcome fun _ t => t := by
  obtain ⟨hok, hraised⟩ := hr
  cases r with
  | ok a t =>
    obtain ⟨-, -, -, -, hstatus, -⟩ := hok a t rfl
    rw [Res.bind_ok, Res.outcome_ok, thenDo_next (hstatus ▸ hs)]
  | raised t => rw [Res.bind_raised, Res.outcome_raised, thenDo_fault (hraised t rfl).2]
  | stop e => rfl

section
variable {t u : State} {g : State → Host.Outcome State Fault Refusal}

/-- The search of `RC.GETK` as a part: both stop, or both go on with the same k (R161). -/
theorem agrees_regK_bind {f : Nat → State → Res Unit} (i : Fin Config.nctx) (hreg : t.reg = u.reg)
    (hu : u.status ≠ .fault)
    (h : ∀ k : Nat, Agrees ((f k t).outcome fun _ s => s) (g { u with k := k, ret := [(k : Int)] })) :
    Agrees (((t.regK i).bind f).outcome fun _ s => s) (thenDo (exec (.rcGetk i) u) g) := by
  rw [exec_rcGetk, State.regK, State.regK, hreg]
  cases (u.reg.get i).getK with
  | none => rfl
  | some k =>
    rw [Res.bind_ok, Res.outcome_ok, thenDo_next (by exact hu)]
    exact h k

/-- The search of `RI.GETK` as a part: both stop, or both go on with the same k (R173). -/
theorem agrees_runK_bind {f : Nat → State → Res Unit} (i : Fin Config.nri) (hri : t.ri = u.ri)
    (hu : u.status ≠ .fault)
    (h : ∀ k : Nat, Agrees ((f k t).outcome fun _ s => s) (g { u with k := k, ret := [(k : Int)] })) :
    Agrees (((t.runK i).bind f).outcome fun _ s => s) (thenDo (exec (.riGetk i) u) g) := by
  rw [exec_riGetk, State.runK, State.runK, hri]
  cases (u.ri.get i).getK i with
  | none => rfl
  | some k =>
    rw [Res.bind_ok, Res.outcome_ok, thenDo_next (by exact hu)]
    exact h k

/-- `RC.UPDATE` as a part: both raise the same fault, or both go on with the same entry stored (R165, R233). -/
theorem agrees_updateReg_bind {f : Unit → State → Res Unit} (i : Fin Config.nctx) (e : Int) (hreg : t.reg = u.reg)
    (hu : u.status ≠ .fault)
    (h : ∀ c, Agrees ((f () (t.withReg i c)).outcome fun _ s => s) (g (u.withReg i c))) :
    Agrees (((t.updateReg i e).bind f).outcome fun _ s => s) (thenDo (exec (.rcUpdate i e) u) g) := by
  rw [exec_rcUpdate, State.updateReg, State.updateReg, hreg]
  cases (u.reg.get i).update e with
  | none =>
    rw [Res.bind_raised, Res.outcome_raised, Res.outcome_raised, thenDo_fault rfl]
    exact agrees_raise t u .contextOverflow i.val
  | some c =>
    rw [Res.bind_ok, Res.outcome_ok, thenDo_next (by exact hu)]
    exact h c

/-- `RI.UPDATE` as a part: both raise the same fault, or both go on with the same entry stored (R177, R233). -/
theorem agrees_updateRi_bind {f : Unit → State → Res Unit} (i : Fin Config.nri) (e : Int) (em : Nat)
    (hri : t.ri = u.ri) (hu : u.status ≠ .fault)
    (h : ∀ c, Agrees ((f () (t.withRi i c)).outcome fun _ s => s) (g (u.withRi i c))) :
    Agrees (((t.updateRi i e em).bind f).outcome fun _ s => s) (thenDo (exec (.riUpdate i e em) u) g) := by
  simp only [exec_riUpdate, State.updateRi, hri]
  split_ifs
  · rw [Res.bind_ok, Res.outcome_ok, thenDo_next (by exact hu)]
    exact h _
  · rw [Res.bind_raised, Res.outcome_raised, Res.outcome_raised, thenDo_fault rfl]
    exact agrees_raise _ _ .contextOverflow _

end

end Sys2Proof.Machine
end

section
/-! PROOFS. The operations of a row, the run index and the ends of a scan as operations run by name (R191, R192, R197,
R199, R200, R216). -/

namespace Sys2Proof.Machine

theorem exec_rowStart (s : State) : exec .rowStart s = .next s.rowStart := rfl

theorem exec_runidxInc (s : State) : exec .runidxInc s = .next { s with runIndex := indexInc s.runIndex } := rfl

theorem exec_runidxDec (s : State) : exec .runidxDec s = .next { s with runIndex := indexDec s.runIndex } := rfl

theorem exec_rowEnd (s : State) : exec .rowEnd s = .next { s with y := s.y + 1, rowOpen := false } := rfl

theorem exec_encEnd (s : State) : exec .encEnd s = .next { s with bw := s.bw.flush, status := .done } := rfl

theorem exec_decEnd (s : State) : exec .decEnd s = .next { s with status := .done } := rfl

/-- `NBR.FETCH` below WIDTH, where its four indices are cells of the lines (R192). -/
theorem exec_nbrFetch_of_lt {s : State} (hx : s.x < s.w) : exec .nbrFetch s = .next { s with
    ra := s.curAt ((s.x : Int) - 1), rb := s.prevAt s.x, rc := s.prevAt ((s.x : Int) - 1),
    rd := s.prevAt ((s.x : Int) + 1) } := by
  show s.fetchNeighbours.outcome _ = _
  rw [State.fetchNeighbours, if_pos hx, Res.outcome_ok]

/-- Settles O34: the exchanged and extended lines cell by cell are `State.prevAt_rowStart` and `State.curAt_rowStart`. -/
theorem rowStartExchangesLines : Obligations.RowStartExchangesLines := by
  intro s hwf hw
  exact ⟨s.rowStart, exec_rowStart s, rfl, fun _ => State.prevAt_rowStart hwf, fun _ => State.curAt_rowStart hwf hw⟩

/-- Settles O35: below WIDTH the fetch does not stop. -/
theorem neighbourFetch : Obligations.NeighbourFetch := by
  intro s hx
  exact exec_nbrFetch_of_lt hx

/-- Settles O36: the clamped index is `indexInc` or `indexDec`, and the writer ENC.END leaves is the flushed one. -/
theorem runIndexAndEnds : Obligations.RunIndexAndEnds := by
  intro s
  refine ⟨⟨indexInc s.runIndex, exec_runidxInc s, rfl⟩, ⟨indexDec s.runIndex, exec_runidxDec s, ?_⟩, exec_rowEnd s,
    ⟨s.bw.flush, exec_bwFlush s, exec_encEnd s⟩, exec_decEnd s⟩
  rw [indexDec, Nat.zero_max]

end Sys2Proof.Machine
end

section
/-! PROOFS. The encoder's pixel operations, and the choice of the mode in both directions, as the operations their rules
list, in order (R193 to R195, R198, R211). -/

namespace Sys2Proof.Machine

theorem exec_encStep (s : State) : exec .encStep s = s.encodeStep.outcome fun _ t => t := rfl

theorem exec_encRegular (s : State) : exec .encRegular s = s.encodeRegular.outcome fun _ t => t := rfl

theorem exec_encRun (s : State) : exec .encRun s = s.encodeRun.outcome fun _ t => t := rfl

theorem exec_encRunlen (r : Nat) (eol : Bool) (s : State) :
    exec (.encRunlen r eol) s = .next (s.encodeRunLength r eol) := rfl

theorem exec_encRipixel (s : State) : exec .encRipixel s = s.encodeInterruption.outcome fun _ t => t := rfl

theorem exec_decStep (s : State) : exec .decStep s = s.decodeStep.outcome fun _ t => t := rfl

theorem exec_grEnc (k m limit : Nat) (s : State) :
    exec (.grEnc k m limit) s = .next { s with bw := s.bw.writeGolomb k m limit } := rfl

/-- Column x of a line is at address x + 1 (R66). -/
theorem lineAddr_natCast (x : Nat) : lineAddr x = x + 1 := by
  rw [lineAddr]
  omega

/-! The choice of the mode. -/

/-- `ENC.STEP` and `DEC.STEP` begin alike: neighbours, then context id (R193, R211). -/
theorem thenDo_nbrFetch_ctxid {s : State} (hs : s.status ≠ .fault) (hx : s.x < s.w)
    (f : State → Host.Outcome State Fault Refusal) :
    thenDo (exec .nbrFetch s) (fun t => thenDo (exec (.ctxid t.ra t.rb t.rc t.rd) t) f) =
      f { s.context with ret := [s.context.q] } := by
  rw [exec_nbrFetch_of_lt hx, thenDo_next (by exact hs), exec_ctxid, thenDo_next (by exact hs)]
  rfl

/-- `DEC.STEP` chooses (R211). -/
theorem State.decodeStep_eq {s : State} (hx : s.x < s.w) :
    s.decodeStep = if s.context.q ≠ 0 then s.context.decodeRegular
      else State.decodeRun { s.context with mode := .run } := by
  rw [State.decodeStep, State.fetchContext_eq hx]
  rfl

/-- Settles O40: after `NBR.FETCH` and `CTXID` the state is `State.context`, where both steps choose. -/
theorem stepsChooseTheMode : Obligations.StepsChooseTheMode := by
  intro s hs hx
  rw [thenDo_nbrFetch_ctxid hs hx, thenDo_nbrFetch_ctxid hs hx, exec_encStep, State.encodeStep_eq hx, exec_decStep,
    State.decodeStep_eq hx]
  by_cases hq : s.context.q ≠ 0
  · simp only [if_pos hq]
    exact ⟨agrees_refl _, agrees_refl _⟩
  · simp only [if_neg hq]
    exact ⟨agrees_refl _, agrees_refl _⟩

/-! Regular mode. -/

/-- Settles O41: both sides search for k in the same entry and update it alike; between and after the two no operation
stops or raises a fault, and both leave the same values. -/
theorem encRegularSteps : Obligations.EncRegularSteps := by
  intro s hs hy hx _ _ _
  rw [exec_encRegular, State.encodeRegular, if_pos (State.isSample_eq hy hx), exec_ctxsel, thenDo_next (by exact hs)]
  refine agrees_regK_bind _ rfl hs fun k => ?_
  simp only [exec_predict, exec_corrpred, exec_errval, exec_rcGetcorr, exec_maperr, exec_grEnc, thenDo_next, hs, ne_eq,
    not_false_eq_true, State.result, List.headD_cons, toSample_sampleInt, Int.toNat_natCast, State.srcAt]
  refine agrees_updateReg_bind _ _ rfl hs fun c => ?_
  rw [exec_recon, thenDo_next (by exact hs), Res.outcome_ok, ← lineAddr_natCast, List.headD_cons, toSample_sampleInt]
  exact agrees_next rfl

/-! Run interruption. -/

/-- What `RI.SELECT` returned is read back as the context it selects (R171, R198). -/
theorem ite_result_eq_one {u : State} (t : Fin 2) (h : u.ret = [(t.val : Int)]) :
    (if u.result = 1 then (1 : Fin 2) else 0) = t := by
  have hresult : u.result = t.val := congrArg (·.headD 0) h
  split_ifs <;> omega

/-- Settles O43: as in regular mode; the sample interrupts the run, so its mapped value is a natural number, of which
`GR.ENC` writes the codeword (R175, R179). -/
theorem encRipixelSteps : Obligations.EncRipixelSteps := by
  intro s hs hy hx hne
  rw [exec_encRipixel, State.encodeInterruption, if_pos (State.isSample_eq hy hx)]
  dsimp only
  rw [exec_riSelect, thenDo_next (by exact hs), ite_result_eq_one s.runContext rfl, exec_riErrval,
    thenDo_next (by exact hs)]
  refine agrees_runK_bind _ rfl hs fun k => ?_
  obtain ⟨em, hem⟩ := Int.eq_ofNat_of_zero_le
    (RunCtx.mappedErr_nonneg (s.ri.get s.runContext) k (State.runError_ne_zero hne))
  rw [State.runContext, State.runError] at hem
  simp only [exec_riEmerr, exec_grEnc, thenDo_next, hs, ne_eq, not_false_eq_true, State.runContext, State.withBw, hem,
    Writer.writeMapped_natCast, Int.toNat_natCast]
  refine agrees_updateRi_bind _ _ em rfl hs fun c => ?_
  simp only [exec_riRecon, exec_runidxDec, thenDo_next, State.status_withRi, hs, ne_eq, not_false_eq_true,
    Res.outcome_ok, ← lineAddr_natCast, State.result, List.headD_cons, toSample_sampleInt]
  exact agrees_next rfl

/-! Run mode. -/

/-- The state in which the run of r samples from X on has been found and copied into CUR (R195). -/
def State.withRun (s : State) (r : Nat) : State :=
  State.fillCur { s with r := r, eol := decide (r = s.w - s.x) } s.x s.ra r

theorem State.withRun_same (s : State) (r : Nat) : s.SameScan (s.withRun r) := by
  rw [State.withRun, State.fillCur_eq]
  exact .refl s

theorem State.eol_withRun (s : State) (r : Nat) : (s.withRun r).eol = decide (r = s.w - s.x) := by
  rw [State.withRun, State.fillCur_eq]

/-- Copying Ra cell by cell from X on fills the cells of the run (R195). -/
theorem foldl_setCur_eq_fillCur (s : State) (n : Nat) :
    (List.range n).foldl (fun t i => t.setCur ((t.x + i : Nat) : Int) t.ra) s = s.fillCur s.x s.ra n := by
  induction n with
  | zero => rfl
  | succ n ih => rw [List.range_succ, List.foldl_append, ih, List.foldl_cons, List.foldl_nil, State.fillCur,
      State.fillCur_eq]

/-- `ENC.RUN` of a run of r samples: copied, coded and passed, then the interruption sample unless the row ended (R195). -/
theorem State.encodeRun_of_runLength {s : State} {r : Nat} (hy : s.y < s.rows)
    (hr : runLength s.src s.y s.ra s.x (s.w - s.x) = r) :
    s.encodeRun =
      let t := (s.withRun r).encodeRunLength r (decide (r = s.w - s.x))
      if r = s.w - s.x then .ok () { t with x := t.x + r, mode := .regular }
      else (State.encodeInterruption { t with x := t.x + r }).bind fun _ u => .ok () { u with mode := .regular } := by
  obtain ⟨-, hcoded⟩ := (s.withRun r).encodeRunLength_same r (decide (r = s.w - s.x))
  rw [State.encodeRun]
  dsimp only
  rw [if_pos (.inr hy), hr, ← State.withRun, State.eol_withRun, hcoded, State.eol_withRun]
  simp only [decide_eq_true_eq]

/-- Settles O42: the run is the unique r with its two properties; coding it raises no fault, and where the interruption
sample raises one, nothing follows on either side. -/
theorem encRunSteps : Obligations.EncRunSteps := by
  intro s r hs hy _ hr heq hne
  have hlen : runLength s.src s.y s.ra s.x (s.w - s.x) = r := runLength_unique hr heq hne
  have hcopied := foldl_setCur_eq_fillCur { s with r := r, eol := decide (r = s.w - s.x) } r
  obtain ⟨-, -, -, -, hstatus, -⟩ :=
    (s.withRun_same r).trans ((s.withRun r).encodeRunLength_same r (decide (r = s.w - s.x))).1
  rw [← hstatus] at hs
  dsimp only at hcopied ⊢
  rw [exec_encRun, State.encodeRun_of_runLength hy hlen, hcopied, ← State.withRun, exec_encRunlen, thenDo_next hs]
  by_cases heol : r = s.w - s.x
  · rw [if_pos heol, if_pos (decide_eq_true heol)]
    exact agrees_refl _
  · rw [if_neg heol, if_neg (mt of_decide_eq_true heol), exec_encRipixel,
      Res.Keeps.outcome_bind (State.encodeInterruption_keeps (.refl _))]
    · exact agrees_refl _
    · exact hs

end Sys2Proof.Machine
end

section
/-! PROOFS. The length of a run as `DEC.RUNLEN` reads it: full chunks, then what ends the run or is missing (R212,
R232). -/

namespace Sys2Proof.Machine

theorem exec_decRunlen (rem0 : Nat) (s : State) :
    exec (.decRunlen rem0) s =
      (s.decodeRunLength rem0).outcome fun _ t => t.withRet [(t.r : Int), (t.eol.toNat : Int)] := rfl

/-- The state of `DEC.RUNLEN` after n full chunks, the reader at b (R212). -/
def State.afterChunks (s : State) (b : Reader) (n : Nat) : State :=
  { s with br := b, idx := chunkSum s.runIndex n, runIndex := indexInc^[n] s.runIndex }

/-- Full chunks below the end of the row are read, and a pass of the loop is left (R212). -/
theorem State.decodeRunLength_chunks {s : State} {rem0 n : Nat} {rest : Bits}
    (hp : s.pending = List.replicate n true ++ rest) (hlt : chunkSum s.runIndex n < rem0) :
    ∃ (fuel : Nat) (b : Reader), s.decodeRunLength rem0 = decodeHits rem0 (fuel + 1) (s.afterChunks b n) ∧
      b.pending s.inp s.size = rest ∧ (s.br.pos ≤ s.size → b.pos ≤ s.size) := by
  have hn := le_chunkSum s.runIndex n
  obtain ⟨b, hread, hrest, hpos⟩ := decodeHits_chunks (fuel := rem0 - n + 1) (s := { s with idx := 0 }) hp
    (by rwa [Nat.zero_add])
  refine ⟨rem0 - n, b, ?_, hrest, hpos⟩
  rw [State.decodeRunLength, show rem0 + 1 = rem0 - n + 1 + n by omega, hread, Nat.zero_add]
  rfl

/-- A bit missing after the full chunks, the first of what ends the run or one of the remainder, raises the fault at the
end of IN (R125, R212). -/
theorem raises_decRunlen_of_missing {s : State} {rem0 n : Nat} {tail : Bits} (hpos : s.br.pos ≤ s.size)
    (hp : s.pending = List.replicate n true ++ tail) (hlt : chunkSum s.runIndex n < rem0)
    (htail : tail = [] ∨ ∃ short, tail = false :: short ∧ short.length < jTable (indexInc^[n] s.runIndex)) :
    Raises (exec (.decRunlen rem0) s) .unexpectedEndOfStream s.size := by
  obtain ⟨fuel, b, hchunks, rfl, hb⟩ := State.decodeRunLength_chunks hp hlt
  obtain ⟨t, pos, hraised, hend⟩ := decodeHits_short (rem0 := rem0) (fuel := fuel) (s := s.afterChunks b n) htail
  rw [exec_decRunlen, hchunks, hraised, hend (hb hpos)]
  exact raises_outcome_raised _ _ _ _

/-- Settles O39: after the chunks the loop's next pass is a `RUNTERM`, the last `RUNHIT`, or misses a bit. -/
theorem decRunlenReadsChunks : Obligations.DecRunlenReadsChunks := by
  intro s rem0 n _ _ hlt
  refine ⟨?_, fun rest hp hge => ?_, fun hpos hp => ?_, fun short hpos hp hshort => ?_⟩
  · rintro v rest _ hp hv rfl
    obtain ⟨fuel, b, hchunks, hafter, -⟩ := State.decodeRunLength_chunks hp hlt
    obtain ⟨b', hterm, hrest, -⟩ := decodeHits_term (rem0 := rem0) (fuel := fuel) (s := s.afterChunks b n) hafter hv
    rw [exec_decRunlen, hchunks, hterm]
    refine ⟨fun hroom => ⟨b', ?_, hrest⟩, fun hfull => ?_⟩
    · rw [if_neg (by exact Nat.not_le.mpr hroom)]
      rfl
    · rw [if_pos (by exact hfull)]
      exact raises_outcome_raised _ _ _ _
  · rw [List.replicate_succ', List.append_assoc] at hp
    obtain ⟨fuel, b, hchunks, hafter, -⟩ := State.decodeRunLength_chunks hp hlt
    rw [chunkSum_succ] at hge ⊢
    obtain ⟨b', hlast, hrest, -⟩ := decodeHits_last (fuel := fuel) (s := s.afterChunks b n) hafter hlt hge
    refine ⟨b', ?_, hrest⟩
    rw [exec_decRunlen, hchunks, hlast, Function.iterate_succ_apply']
    rfl
  · exact raises_decRunlen_of_missing hpos (hp.trans (List.append_nil _).symm) hlt (.inl rfl)
  · exact raises_decRunlen_of_missing hpos hp hlt (.inr ⟨short, rfl, hshort⟩)

end Sys2Proof.Machine
end

section
/-! PROOFS. The decoder's pixel operations as the operations their rules list, in order, and when they complete (R213 to
R215). -/

namespace Sys2Proof.Machine

theorem exec_decRegular (s : State) : exec .decRegular s = s.decodeRegular.outcome fun _ t => t := rfl

theorem exec_decRun (s : State) : exec .decRun s = s.decodeRun.outcome fun _ t => t := rfl

theorem exec_decRipixel (s : State) : exec .decRipixel s = s.decodeInterruption.outcome fun _ t => t := rfl

/-- `GR.DEC` as a part: both raise the fault at the same position, or both go on with the same value (R181). -/
theorem agrees_grDec_bind {t u : State} {g : State → Host.Outcome State Fault Refusal} {f : Nat → State → Res Unit}
    (k limit : Nat) (hbr : t.br = u.br) (hinp : t.inp = u.inp) (hsize : t.size = u.size) (hu : u.status ≠ .fault)
    (h : ∀ (m : Nat) (r : Reader), Agrees ((f m (t.withBr r)).outcome fun _ s => s)
      (g { u with br := r, m := m, ret := [(m : Int)] })) :
    Agrees (((t.reads fun inp size => readGolomb inp size k limit).bind f).outcome fun _ s => s)
      (thenDo (exec (.grDec k limit) u) g) := by
  rw [exec_grDec, State.reads, State.reads, hbr, hinp, hsize]
  cases readGolomb u.inp u.size k limit u.br with
  | error r =>
    rw [Res.bind_raised, Res.outcome_raised, Res.outcome_raised, thenDo_fault rfl]
    exact agrees_raise _ _ .unexpectedEndOfStream r.pos
  | ok p =>
    rw [Res.bind_ok, Res.outcome_ok, thenDo_next (by exact hu)]
    exact h p.1 p.2

/-- There is one least shift (R161, R173). -/
theorem leastShift_unique {n target : Int} {j k : Nat} (hj : target ≤ n * 2 ^ j) (hj' : ∀ i < j, n * 2 ^ i < target)
    (hk : target ≤ n * 2 ^ k) (hk' : ∀ i < k, n * 2 ^ i < target) : j = k := by
  rcases lt_trichotomy j k with hlt | heq | hgt
  · exact absurd hj (not_le.mpr (hk' j hlt))
  · exact heq
  · exact absurd hk (not_le.mpr (hj' k hgt))

/-- A decoded sample stored in CUR and in OUT is the same in both (R213, R215). -/
theorem State.curAt_eq_outAt_of_stored {s u : State} {v : Sample} (hwf : Memory.wf s = true)
    (hcur : u.cur = writeCell s.cur (lineAddr s.x) v) (hout : u.out = writeCell s.out (sampleAddr s.y s.x) v) :
    u.curAt s.x = u.outAt s.y s.x := by
  obtain ⟨-, hcurwf, -, -, houtwf⟩ := Memory.wf_iff.mp hwf
  rw [State.curAt, State.outAt, hcur, hout, readCell_writeCell_same hcurwf, readCell_writeCell_same houtwf]

/-! Regular mode. -/

/-- A mapped value of 16 bits stands for a residual within the bound of R167 (R164). -/
theorem abs_unmapErr_le {m : Nat} (h : m ≤ 65535) : |unmapErr m| ≤ 32768 := by
  obtain ⟨heven, hodd⟩ := unmapErr_spec m
  rw [abs_le]
  omega

/-- `DEC.REGULAR` completes on a codeword of a bounded entry (R213). -/
theorem State.decodeRegular_completes {s : State} {k : Nat} {i : Instr} {rest : Bits} (hy : s.y < s.rows)
    (hx : s.x < s.w) (hwf : Memory.wf s = true) (hinv : (s.reg.get (contextIndex s.q)).Inv)
    (hbound : (s.reg.get (contextIndex s.q)).Bounded)
    (hle : (s.reg.get (contextIndex s.q)).a.toInt ≤ (s.reg.get (contextIndex s.q)).n.toInt * 2 ^ k)
    (hleast : ∀ j < k, (s.reg.get (contextIndex s.q)).n.toInt * 2 ^ j < (s.reg.get (contextIndex s.q)).a.toInt)
    (hd : decode (.golomb k 64) s.pending = .ok (i, rest)) (hm : golombValue i ≤ 65535) :
    ∃ u, s.decodeRegular = .ok () u ∧ u.status = s.status ∧ u.x = s.x + 1 ∧ u.k = k ∧ u.m = golombValue i ∧
      u.curAt s.x = u.outAt s.y s.x ∧ u.pending = rest := by
  obtain ⟨k', hk, hle', hleast'⟩ := RegCtx.getK_spec hinv.1
  obtain rfl := leastShift_unique hle hleast hle' hleast'
  have herr := abs_unmapErr_le (xor_le hm (getCorr_le (s.reg.get (contextIndex s.q)) k))
  obtain ⟨c, hc, -, -⟩ := RegCtx.update_bounded hinv hbound herr
  obtain ⟨r, hdone, hrest, -⟩ := State.decodeRegular_eq hy hx hk hd hc
  exact ⟨_, hdone, rfl, rfl, rfl, rfl, State.curAt_eq_outAt_of_stored hwf rfl rfl, hrest⟩

/-- Settles O45: both sides search, read and update alike, and no other operation stops or raises a fault. -/
theorem decRegularSteps : Obligations.DecRegularSteps := by
  intro s hs hy hx _ _ _
  refine ⟨?_, fun k i rest hwf hinv hbound hle hleast hd hm => ?_⟩
  · rw [exec_decRegular, State.decodeRegular, if_pos (State.isSample_eq hy hx), exec_ctxsel, thenDo_next (by exact hs)]
    refine agrees_regK_bind _ rfl hs fun k => ?_
    simp only [exec_predict, exec_corrpred, exec_rcGetcorr, thenDo_next, hs, ne_eq, not_false_eq_true, State.result,
      List.headD_cons, toSample_sampleInt, Int.toNat_natCast]
    refine agrees_grDec_bind _ _ rfl rfl rfl hs fun m r => ?_
    simp only [exec_unmaperr, thenDo_next, hs, ne_eq, not_false_eq_true, Int.toNat_natCast]
    refine agrees_updateReg_bind _ _ rfl hs fun c => ?_
    simp only [exec_recon, thenDo_next, State.status_withReg, hs, ne_eq, not_false_eq_true, Res.outcome_ok,
      ← lineAddr_natCast, List.headD_cons, toSample_sampleInt]
    exact agrees_next rfl
  · obtain ⟨u, hdone, hu⟩ := State.decodeRegular_completes hy hx hwf hinv hbound hle hleast hd hm
    exact ⟨u, by rw [exec_decRegular, hdone, Res.outcome_ok], hu⟩

/-! Run interruption. -/

/-- `DEC.RIPIXEL` completes on a codeword of a bounded entry (R215). -/
theorem State.decodeInterruption_completes {s : State} {k : Nat} {i : Instr} {rest : Bits} (hy : s.y < s.rows)
    (hx : s.x < s.w) (hwf : Memory.wf s = true) (hinv : (s.ri.get s.runContext).Inv s.runContext)
    (hbound : (s.ri.get s.runContext).Bounded)
    (hle : (s.ri.get s.runContext).a.toInt + (s.ri.get s.runContext).n.toInt / 2 * s.runContext.val ≤
      (s.ri.get s.runContext).n.toInt * 2 ^ k)
    (hleast : ∀ j < k, (s.ri.get s.runContext).n.toInt * 2 ^ j <
      (s.ri.get s.runContext).a.toInt + (s.ri.get s.runContext).n.toInt / 2 * s.runContext.val)
    (hd : decode (.golomb k (runLimit s.runIndex)) s.pending = .ok (i, rest)) (hm : golombValue i ≤ 65536) :
    ∃ u, s.decodeInterruption = .ok () u ∧ u.status = s.status ∧ u.x = s.x + 1 ∧ u.k = k ∧ u.m = golombValue i ∧
      u.curAt s.x = u.outAt s.y s.x ∧ u.pending = rest := by
  obtain ⟨k', hk, hle', hleast'⟩ := RunCtx.getK_spec s.runContext hinv.1
  obtain rfl := leastShift_unique hle hleast hle' hleast'
  obtain ⟨c, hc, -, -⟩ := State.updateRi_bounded s.runContext hinv hbound
    ((s.ri.get s.runContext).unmap s.runContext (golombValue i) k) hm
  obtain ⟨r, hdone, hrest, -⟩ := State.decodeInterruption_eq hy hx hk hd hc
  exact ⟨_, hdone, rfl, rfl, rfl, rfl, State.curAt_eq_outAt_of_stored hwf rfl rfl, hrest⟩

/-- Settles O47: as in regular mode, in the entry `RI.SELECT` selects. -/
theorem decRipixelSteps : Obligations.DecRipixelSteps := by
  intro s hs hy hx
  refine ⟨?_, fun t k i rest hwf hinv hbound ht hle hleast hd hm => ?_⟩
  · rw [exec_decRipixel, State.decodeInterruption, if_pos (State.isSample_eq hy hx)]
    dsimp only
    rw [exec_riSelect, thenDo_next (by exact hs), ite_result_eq_one s.runContext rfl]
    refine agrees_runK_bind _ rfl hs fun k => ?_
    refine agrees_grDec_bind _ _ rfl rfl rfl hs fun m r => ?_
    simp only [exec_riUnmap, thenDo_next, hs, ne_eq, not_false_eq_true, Int.toNat_natCast]
    refine agrees_updateRi_bind _ _ m rfl hs fun c => ?_
    simp only [exec_riRecon, exec_runidxDec, thenDo_next, State.status_withRi, hs, ne_eq, not_false_eq_true,
      Res.outcome_ok, ← lineAddr_natCast, State.result, List.headD_cons, toSample_sampleInt]
    exact agrees_next rfl
  · obtain rfl : t = s.runContext := ht.trans (runSelect_eq _ _).symm
    obtain ⟨u, hdone, hu⟩ := State.decodeInterruption_completes hy hx hwf hinv hbound hle hleast hd hm
    exact ⟨u, by rw [exec_decRipixel, hdone, Res.outcome_ok], hu⟩

/-! Run mode. -/

/-- The run of r samples equal to Ra is put into CUR and OUT, and passed (R214). -/
def State.putRun (s : State) : State :=
  { s with cur := (s.fillCur s.x s.ra s.r).cur, out := (s.fillOut s.y s.x s.ra s.r).out, x := s.x + s.r }

/-- Filling the run in CUR and then in OUT changes nothing else (R214). -/
theorem State.fillOut_fillCur_eq (s : State) (y x : Nat) (v : Sample) (n : Nat) :
    (s.fillCur x v n).fillOut y x v n =
      { s with cur := (s.fillCur x v n).cur, out := (s.fillOut y x v n).out } := by
  have hout : (s.fillCur x v n).out = s.out := by rw [State.fillCur_eq]
  rw [State.fillOut_eq, State.fillOut_congr hout, State.fillCur_eq]

/-- Copying Ra cell by cell from X on into CUR and OUT fills the cells of the run in both, whatever was returned before
(R214). -/
theorem foldl_setCur_setOut_eq (s : State) (vs : List Int) (n : Nat) :
    (List.range n).foldl (fun t i => (t.setCur ((t.x + i : Nat) : Int) t.ra).setOut t.y (t.x + i) t.ra) (s.withRet vs) =
      { s with cur := (s.fillCur s.x s.ra n).cur, out := (s.fillOut s.y s.x s.ra n).out, ret := vs } := by
  induction n with
  | zero => rfl
  | succ n ih =>
    rw [List.range_succ, List.foldl_append, ih]
    rfl

/-- `DEC.RUN` after its `DEC.RUNLEN` (R214). -/
theorem State.decodeRun_of_runLength {s t : State} (hlen : s.decodeRunLength (s.w - s.x) = .ok () t)
    (hy : t.y < t.rows) :
    s.decodeRun = if t.eol then .ok () { t.putRun with mode := .regular }
      else t.putRun.decodeInterruption.bind fun _ u => .ok () { u with mode := .regular } := by
  rw [State.decodeRun, hlen, Res.bind_ok]
  dsimp only
  rw [if_pos (.inr hy), State.fillOut_fillCur_eq]
  rfl

/-- `DEC.RUNLEN` of a row with samples left finishes, the reader, the run scratch and RUNINDEX alone changed, or raises a
fault (R212). -/
theorem State.decodeRunLength_cases (s : State) {rem0 : Nat} (h : 1 ≤ rem0) :
    (∃ t, s.decodeRunLength rem0 = .ok () t ∧
      t = { s with br := t.br, idx := t.idx, r := t.r, eol := t.eol, runIndex := t.runIndex }) ∨
    ∃ t, s.decodeRunLength rem0 = .raised t ∧ t.status = .fault := by
  have hmeets := decodeHits_meets (s := { s with idx := 0 }) h (Nat.lt_succ_self rem0)
  rw [State.decodeRunLength]
  cases hrun : decodeHits rem0 (rem0 + 1) { s with idx := 0 } with
  | ok a t =>
    rw [hrun] at hmeets
    exact .inl ⟨t, rfl, hmeets.1⟩
  | raised t =>
    rw [hrun] at hmeets
    exact .inr ⟨t, rfl, congrArg State.status hmeets⟩
  | stop e =>
    rw [hrun] at hmeets
    exact hmeets.elim

/-- n full chunks below r, and a 1 more that reaches r, are the bits of a run of r samples to the end of the row,
whether or not the last chunk is full (R196, R212). -/
theorem exists_runBits_of_row_end {i : Fin 32} {n r : Nat} (hlt : chunkSum i n < r) (hge : r ≤ chunkSum i (n + 1)) :
    ∃ m, chunkSum i m ≤ r ∧ r < chunkSum i (m + 1) ∧
      runBits i m true (r - chunkSum i m) = List.replicate (n + 1) true := by
  rcases hge.lt_or_eq with hpart | hfull
  · refine ⟨n, hlt.le, hpart, ?_⟩
    rw [runBits, runTail, if_pos rfl, if_neg (by omega), List.replicate_succ']
  · refine ⟨n + 1, hfull.ge, hfull.trans_lt (chunkSum_lt_succ i _), ?_⟩
    rw [runBits, runTail, if_pos rfl, if_pos (by omega), List.append_nil]

/-- `DEC.RUN` completes on the bits of a run to the end of the row, every sample of which it stores (R214). -/
theorem State.decodeRun_completes {s : State} {n : Nat} {rest : Bits} (hy : s.y < s.rows) (hx : s.x < s.w)
    (hwf : Memory.wf s = true) (hlt : chunkSum s.runIndex n < s.w - s.x) (hge : s.w - s.x ≤ chunkSum s.runIndex (n + 1))
    (hp : s.pending = List.replicate (n + 1) true ++ rest) :
    ∃ u, s.decodeRun = .ok () u ∧ u.status = s.status ∧ u.x = s.w ∧ u.mode = .regular ∧ u.pending = rest ∧
      ∀ x : Nat, s.x ≤ x → x < s.w → u.curAt x = s.ra ∧ u.outAt s.y x = s.ra := by
  obtain ⟨m, hm, hm', hbits⟩ := exists_runBits_of_row_end hlt hge
  obtain ⟨b, hdone, hrest, -⟩ := State.decodeRun_eq hy hx hm hm' le_rfl
    (by rw [decide_eq_true rfl, hbits, hp])
  rw [if_pos rfl] at hdone
  have hw : s.w < 65536 := s.width.isLt
  refine ⟨_, hdone, rfl, Nat.add_sub_cancel' hx.le, rfl, hrest, fun x hx1 hx2 => ⟨?_, ?_⟩⟩
  · exact (State.curAt_fillCur hwf s.x s.ra _ (by omega)).trans (if_pos (by omega))
  · exact (State.outAt_fillOut hwf s.ra (by omega) (by omega)).trans (if_pos ⟨rfl, hx1, by omega⟩)

/-- Settles O46: `DEC.RUNLEN` is the same part on both sides, and so is the interruption sample of a row that did not
end. -/
theorem decRunSteps : Obligations.DecRunSteps := by
  intro s hs hy hx
  refine ⟨?_, fun n rest hwf hlt hge hp => ?_⟩
  · rw [exec_decRun, exec_decRunlen]
    rcases s.decodeRunLength_cases (Nat.sub_pos_of_lt hx) with ⟨t, hlen, ht⟩ | ⟨t, hlen, hfault⟩
    · have hs' : t.status ≠ .fault := by rw [ht]; exact hs
      have hy' : t.y < t.rows := by rw [ht]; exact hy
      have hret : t.ret = s.ret := by rw [ht]
      rw [State.decodeRun_of_runLength hlen hy', hlen, Res.outcome_ok, thenDo_next (by exact hs')]
      dsimp only
      rw [foldl_setCur_setOut_eq]
      by_cases heol : t.eol = true
      · rw [if_pos heol, if_pos (by exact heol)]
        exact agrees_next rfl
      · rw [if_neg heol, if_neg (by exact heol), exec_decRipixel,
          Res.Keeps.outcome_bind (State.decodeInterruption_keeps (.refl _)) (by exact hs'), ← hret]
        exact agrees_refl _
    · rw [State.decodeRun, hlen, Res.bind_raised, Res.outcome_raised, Res.outcome_raised, thenDo_fault hfault]
      exact agrees_refl _
  · obtain ⟨u, hdone, hu⟩ := State.decodeRun_completes hy hx hwf hlt hge hp
    exact ⟨u, by rw [exec_decRun, hdone, Res.outcome_ok], hu⟩

end Sys2Proof.Machine
end

section
/-! PROOFS. The overflow of a context, exactly (R233): an update that stores raises nothing, whatever entry it stores. -/

namespace Sys2Proof.Machine

theorem status_eq_fault_of_raises_next {t : State} {kind : FaultKind} {info : Nat} (h : Raises (.next t) kind info) :
    t.status = .fault := by
  obtain ⟨_, ⟨⟩, hfault, -⟩ := h
  exact hfault

/-- With N in 1..64, in range for the incremented count, an update whose two sums fit stores an entry (R165). -/
theorem RegCtx.exists_update_eq_some {c : RegCtx} {e : Int} (hn : 1 ≤ c.n.toInt) (hn' : c.n.toInt ≤ 64)
    (ha : fits32 (c.a.toInt + |e|) = true) (hb : fits32 (c.b.toInt + e) = true) : ∃ c', c.update e = some c' := by
  obtain ⟨c', hbias, -⟩ := c.bias_spec (n := if c.n.toInt = 64 then c.n.toInt / 2 + 1 else c.n.toInt + 1)
    (fits32_halved (c.n.toInt = 64) ha) (fits32_halved (c.n.toInt = 64) hb) (by split_ifs <;> omega)
    (by split_ifs <;> omega)
  exact ⟨c', (RegCtx.update_eq_bias ha hb).trans hbias⟩

theorem raises_rcUpdate_iff {s : State} {i : Fin Config.nctx} {e : Int} (hs : s.status ≠ .fault)
    (hn : 1 ≤ (s.reg.get i).n.toInt) (hn' : (s.reg.get i).n.toInt ≤ 64) :
    Raises (exec (.rcUpdate i e) s) .contextOverflow i.val ↔
      ¬(fits32 ((s.reg.get i).a.toInt + |e|) = true ∧ fits32 ((s.reg.get i).b.toInt + e) = true) := by
  refine ⟨fun hraises ⟨ha, hb⟩ => ?_, fun hover => raises_rcUpdate_of_none (RegCtx.update_eq_none hover)⟩
  obtain ⟨c, hc⟩ := RegCtx.exists_update_eq_some hn hn' ha hb
  rw [exec_rcUpdate_of_some hc] at hraises
  exact absurd (status_eq_fault_of_raises_next hraises) hs

theorem raises_riUpdate_iff {s : State} (t : Fin Config.nri) (e : Int) (em : Nat) (hs : s.status ≠ .fault) :
    Raises (exec (.riUpdate t e em) s) .contextOverflow (365 + t.val) ↔
      ¬fits32 ((s.ri.get t).a.toInt + ((em : Int) + 1 - t.val) / 2) = true := by
  refine ⟨fun hraises hfits => ?_, raises_riUpdate_of_not_fits e rfl⟩
  rw [exec_riUpdate_of_fits e rfl hfits] at hraises
  exact absurd (status_eq_fault_of_raises_next hraises) hs

/-- Settles O26: each update raises exactly where a sum does not fit, which `fits32_iff` spells out. -/
theorem contextOverflowExactly : Obligations.ContextOverflowExactly := by
  refine fun s hs => ⟨fun i e hn hn' => ?_, fun t e em _ _ => ?_⟩
  · rw [raises_rcUpdate_iff hs hn hn', fits32_iff, fits32_iff]
  · rw [raises_riUpdate_iff t e em hs, fits32_iff]

end Sys2Proof.Machine
end

section
/-! PROOFS. After a raised fault (R237, R238): the scan driver rests, and only a command begins a scan again. -/

namespace Sys2Proof.Machine

/-- A pixel step issues nothing, whether it finishes or raises a fault (R193, R211). -/
theorem step_pixel_issued {s t : State} (hi : s.issued = none) (hb : s.status = .busy) (ho : s.rowOpen = true)
    (hx : s.x < s.w) (h : step s = .next t) : t.issued = none := by
  have hsame : s.SameScan { t with status := s.status } := by
    cases hd : s.dir with
    | encode =>
      rw [step_encStep hi hb ho hx hd] at h
      exact (s.encodeStep_keeps.next h fun _ _ hu => hu).1
    | decode =>
      rw [step_decStep hi hb ho hx hd] at h
      exact (s.decodeStep_keeps.next h fun _ _ hu => hu).1
  obtain ⟨-, -, -, -, -, -, -, -, -, -, hissued⟩ := hsame
  exact hissued.trans hi

/-- With nothing issued, a step that leaves STATUS = FAULT leaves nothing issued: the block was at rest in the fault, or
a pixel step raised it. -/
theorem step_fault_issued {s t : State} (hi : s.issued = none) (h : step s = .next t) (ht : t.status = .fault) :
    t.issued = none := by
  by_cases hs : s.status = .fault
  · rw [step_at_rest hi (by rw [hs]; decide)] at h
    cases h
    exact hi
  · have hne : t.status ≠ s.status := by rw [ht]; exact Ne.symm hs
    rcases step_driver_status hi h hne with ⟨hb, ⟨hdone, -⟩ | ⟨-, ho, hx⟩⟩
    · rw [ht] at hdone
      cases hdone
    · exact step_pixel_issued hi hb ho hx h

/-- The two commands (R239). -/
theorem exists_command_of_isCommand {i : Instr} (h : i.isCommand = true) :
    ∃ width rows size, i = .scanEncode width rows ∨ i = .scanDecode width rows size := by
  cases i with
  | scanEncode width rows => exact ⟨width, rows, 0, .inl rfl⟩
  | scanDecode width rows size => exact ⟨width, rows, size, .inr rfl⟩
  | _ => cases h

/-- Settles O52: `raise` by its definition; after a fault nothing is issued and the driver rests; what a host issues is a
command, which sets BUSY. -/
theorem faultEndsTheScan : Obligations.FaultEndsTheScan := by
  refine ⟨fun _ _ _ => rfl, fun s t hi h ht => ?_, fun s t hl hs h => ?_⟩
  · exact step_at_rest (step_fault_issued hi h ht) (by rw [ht]; decide)
  · rcases step_eq_next h with ⟨i, hi, he⟩ | ⟨hi, -⟩
    · obtain ⟨-, hbusy, -, -⟩ := exec_command (hl i hi) he
      obtain ⟨width, rows, size, hcommand⟩ := exists_command_of_isCommand (hl i hi)
      exact .inr ⟨⟨width, rows, size, by rw [hi]; exact hcommand.imp (congrArg some) (congrArg some)⟩, hbusy⟩
    · rw [step_at_rest hi (by rw [hs]; decide)] at h
      cases h
      exact .inl ⟨hi, rfl⟩

end Sys2Proof.Machine
end

section
/-! PROOFS. The encodings (R91, R95 to R98): every instruction with bits is decoded from them, and what is decoded was
encoded, but for the two patterns that R103 tolerates. -/

namespace Sys2Proof.Machine

/-! Words and the bits of their values. -/

/-- Writing the value of n bits in n bits gives the bits back. -/
theorem bitsOf_toNat_ofNat_valOf {n : Nat} {s : Bits} (h : s.length = n) :
    bitsOf n (BitVec.ofNat n (valOf s)).toNat = s := by
  subst h
  rw [BitVec.toNat_ofNat, bitsOf_mod, bitsOf_valOf]

/-- The word of n bits with the value of a word's bits is that word. -/
theorem ofNat_valOf_bitsOf {n : Nat} (v : BitVec n) : BitVec.ofNat n (valOf (bitsOf n v.toNat)) = v := by
  rw [valOf_bitsOf_of_lt v.isLt, BitVec.ofNat_toNat, BitVec.setWidth_eq]

/-! Decoding in each context. -/

/-- A byte whose eight bits are there is decoded in the format of its predecessor (R91). -/
theorem decode_byte_append {p : Bits} (ff : Bool) (rest : Bits) (hp : p.length = 8) :
    decode (.byte ff) (p ++ rest) =
      .ok (if ff then .b7 (.ofNat 7 (valOf (p.drop 1))) else .b8 (.ofNat 8 (valOf p)), rest) := by
  rw [decode, decodeByte, takeBits_append hp]

/-- A 0 and j bits after it are a `RUNTERM` (R98). -/
theorem decode_run_append {j : Nat} {v : Bits} (rest : Bits) (hv : v.length = j) :
    decode (.run j) (false :: (v ++ rest)) = .ok (.runterm j (valOf v), rest) := by
  simp only [decode, decodeRun, takeBits_append hv]

/-- A byte format is decoded from its bits where it is expected (R91). -/
theorem decode_byte_encode {ff : Bool} {i : Instr} {bits : Bits} (rest : Bits) (ha : (Expect.byte ff).admits i = true)
    (he : encode i = some bits) : decode (.byte ff) (bits ++ rest) = .ok (i, rest) := by
  cases ff with
  | false =>
    cases i with
    | b8 s =>
      cases he
      rw [decode_byte_append false rest (bitsOf_length 8 _), if_neg Bool.false_ne_true, ofNat_valOf_bitsOf]
    | _ => cases ha
  | true =>
    cases i with
    | b7 s =>
      cases he
      have hlen : (false :: bitsOf 7 s.toNat).length = 8 := congrArg Nat.succ (bitsOf_length 7 _)
      rw [decode_byte_append true rest hlen, if_pos rfl, List.drop_one, List.tail_cons, ofNat_valOf_bitsOf]
    | _ => cases ha

/-- A Golomb-Rice codeword is decoded from its bits where it is expected (R95, R96, R101). -/
theorem decode_golomb_encode {k limit : Nat} {i : Instr} {bits : Bits} (rest : Bits)
    (ha : (Expect.golomb k limit).admits i = true) (hwf : i.wf = true) (he : encode i = some bits) :
    decode (.golomb k limit) (bits ++ rest) = .ok (i, rest) := by
  cases i with
  | gr k' limit' h low =>
    obtain ⟨rfl, rfl⟩ : k = k' ∧ limit = limit' := by simpa [Expect.admits] using ha
    obtain ⟨⟨-, hh⟩, hlow⟩ : (_ ∧ h < escThreshold limit) ∧ low < 2 ^ k := by
      simpa [Instr.wf, escThreshold] using hwf
    cases he
    rw [decodeGolomb_short rest hh (bitsOf_length k low), valOf_bitsOf_of_lt hlow]
  | esc limit' v =>
    obtain rfl : limit = limit' := by simpa [Expect.admits] using ha
    cases he
    rw [decodeGolomb_escape rest le_rfl (bitsOf_length Config.qbpp v.toNat), Config.qbpp, ofNat_valOf_bitsOf]
  | _ => cases ha

/-- A run codeword is decoded from its bits where it is expected (R97, R98). -/
theorem decode_run_encode {j : Nat} {i : Instr} {bits : Bits} (rest : Bits) (ha : (Expect.run j).admits i = true)
    (hwf : i.wf = true) (he : encode i = some bits) : decode (.run j) (bits ++ rest) = .ok (i, rest) := by
  cases i with
  | runhit =>
    cases he
    rfl
  | runterm j' r =>
    obtain rfl : j = j' := by simpa [Expect.admits] using ha
    obtain ⟨-, hr⟩ : _ ∧ r < 2 ^ j := by simpa [Instr.wf] using hwf
    cases he
    rw [List.cons_append, decode_run_append rest (bitsOf_length j r), valOf_bitsOf_of_lt hr]
  | _ => cases ha

/-- Settles O2: each context admits the two forms, or the one, that its lemma decodes. -/
theorem decodeInvertsEncode : Obligations.DecodeInvertsEncode := by
  intro c i bits rest ha hwf he
  cases c with
  | byte ff => exact decode_byte_encode rest ha he
  | golomb k limit => exact decode_golomb_encode rest ha hwf he
  | run j => exact decode_run_encode rest ha hwf he

/-! What was decoded. -/

/-- What decodes where a byte is expected is that byte in its format, bit 7 of a `B7` byte dropped (R91, R103). -/
theorem decode_byte_eq_ok {ff : Bool} {s rest : Bits} {i : Instr} (h : decode (.byte ff) s = .ok (i, rest)) :
    (Expect.byte ff).admits i = true ∧
      ∃ b w, s = b :: (w ++ rest) ∧ encode i = some ((if ff then false else b) :: w) := by
  rw [decode, decodeByte] at h
  cases ht : takeBits 8 s with
  | error e => rw [ht] at h; cases h
  | ok p =>
    obtain ⟨p, rest'⟩ := p
    rw [ht] at h
    cases h
    obtain ⟨rfl, hlen⟩ := takeBits_eq_ok ht
    cases p with
    | nil => cases hlen
    | cons b w =>
      cases ff with
      | false => exact ⟨rfl, b, w, rfl, congrArg some (bitsOf_toNat_ofNat_valOf hlen)⟩
      | true =>
        exact ⟨rfl, b, w, rfl, congrArg (fun v => some (false :: v)) (bitsOf_toNat_ofNat_valOf (Nat.succ.inj hlen))⟩

/-- What decodes where a Golomb-Rice codeword is expected is a short form or an escape, told apart by the number of its
zeros (R95, R96, R101). -/
theorem decode_golomb_eq_ok {k limit : Nat} {s rest : Bits} {i : Instr}
    (h : decode (.golomb k limit) s = .ok (i, rest)) : ∃ (n : Nat) (v : Bits), s = unary n ++ v ++ rest ∧
      ((n < escThreshold limit ∧ v.length = k ∧ i = .gr k limit n (valOf v)) ∨
        (escThreshold limit ≤ n ∧ v.length = 16 ∧ i = .esc limit (.ofNat 16 (valOf v)))) := by
  rw [decode, decodeGolomb] at h
  cases hu : takeUnary s with
  | error e => rw [hu] at h; cases h
  | ok p =>
    obtain ⟨n, tail⟩ := p
    obtain rfl := takeUnary_eq_ok hu
    rw [hu] at h
    dsimp only at h
    split_ifs at h with hn
    · cases ht : takeBits k tail with
      | error e => rw [ht] at h; cases h
      | ok q =>
        rw [ht] at h
        cases h
        obtain ⟨rfl, hlen⟩ := takeBits_eq_ok ht
        exact ⟨n, q.1, (List.append_assoc _ _ _).symm, .inl ⟨hn, hlen, rfl⟩⟩
    · cases ht : takeBits Config.qbpp tail with
      | error e => rw [ht] at h; cases h
      | ok q =>
        rw [ht] at h
        cases h
        obtain ⟨rfl, hlen⟩ := takeBits_eq_ok ht
        exact ⟨n, q.1, (List.append_assoc _ _ _).symm, .inr ⟨Nat.le_of_not_lt hn, hlen, rfl⟩⟩

/-- A decoded Golomb-Rice codeword is well-formed and was encoded there, the zeros of an escape possibly more than
the encoder's (R95, R96, R103). -/
theorem encode_of_decode_golomb {k limit : Nat} {s rest : Bits} {i : Instr} (hk : k ≤ 32) (hl : limitOk limit = true)
    (h : decode (.golomb k limit) s = .ok (i, rest)) :
    (Expect.golomb k limit).admits i = true ∧ i.wf = true ∧
      ∃ w extra, s = List.replicate extra false ++ w ++ rest ∧ encode i = some w ∧
        (extra ≠ 0 → ∃ v, i = .esc limit v) := by
  obtain ⟨n, v, rfl, ⟨hn, rfl, rfl⟩ | ⟨hn, hlen, rfl⟩⟩ := decode_golomb_eq_ok h
  · refine ⟨by simp [Expect.admits], ?_, unary n ++ v, 0, rfl, ?_, fun h0 => absurd rfl h0⟩
    · simp only [Instr.wf, Bool.and_eq_true, decide_eq_true_eq]
      exact ⟨⟨⟨hk, hl⟩, hn⟩, valOf_lt v⟩
    · rw [encode, bitsOf_valOf]
  · refine ⟨by simp [Expect.admits], hl, unary (escThreshold limit) ++ v, n - escThreshold limit, ?_, ?_,
      fun _ => ⟨_, rfl⟩⟩
    · rw [← List.append_assoc, replicate_append_unary, Nat.sub_add_cancel hn]
    · rw [encode, Config.qbpp, bitsOf_toNat_ofNat_valOf hlen]

/-- A decoded run codeword is well-formed and was encoded there (R97, R98). -/
theorem encode_of_decode_run {j : Nat} {s rest : Bits} {i : Instr} (hj : j ≤ 15)
    (h : decode (.run j) s = .ok (i, rest)) :
    (Expect.run j).admits i = true ∧ i.wf = true ∧ ∃ w, s = w ++ rest ∧ encode i = some w := by
  rw [decode] at h
  cases s with
  | nil => cases h
  | cons b t =>
    cases b with
    | true =>
      cases h
      exact ⟨rfl, rfl, [true], rfl, rfl⟩
    | false =>
      rw [decodeRun] at h
      cases ht : takeBits j t with
      | error e => rw [ht] at h; cases h
      | ok p =>
        rw [ht] at h
        cases h
        obtain ⟨rfl, rfl⟩ := takeBits_eq_ok ht
        refine ⟨by simp [Expect.admits], ?_, false :: p.1, rfl, ?_⟩
        · simp only [Instr.wf, Bool.and_eq_true, decide_eq_true_eq]
          exact ⟨hj, valOf_lt p.1⟩
        · rw [encode, bitsOf_valOf]

/-! Bits that do not decode end too early. -/

theorem takeBits_of_le {n : Nat} {s : Bits} (h : n ≤ s.length) : takeBits n s = .ok (s.take n, s.drop n) :=
  if_neg (Nat.not_lt.mpr h)

/-- A unary code ends at the latest at a one that follows, and what follows that one is left (R101). -/
theorem takeUnary_append_true (s z : Bits) : ∃ n r, takeUnary (s ++ true :: z) = .ok (n, r ++ z) := by
  induction s with
  | nil => exact ⟨0, [], rfl⟩
  | cons b s ih =>
    obtain ⟨n, r, hr⟩ := ih
    cases b with
    | true => exact ⟨0, s ++ [true], by rw [List.append_assoc]; rfl⟩
    | false => exact ⟨n + 1, r, by rw [List.cons_append, takeUnary, if_neg (by decide), hr]⟩

/-- Any bits, continued by enough bits with a one before them, decode as a Golomb-Rice codeword (R103). -/
theorem decode_golomb_continued (k limit : Nat) (s : Bits) :
    ∃ i rest, decode (.golomb k limit) (s ++ true :: List.replicate (k + Config.qbpp) false) = .ok (i, rest) := by
  obtain ⟨n, r, hr⟩ := takeUnary_append_true s (List.replicate (k + Config.qbpp) false)
  have hlen : k + Config.qbpp ≤ (r ++ List.replicate (k + Config.qbpp) false).length := by
    rw [List.length_append, List.length_replicate]
    exact Nat.le_add_left _ _
  rw [decode, decodeGolomb, hr]
  dsimp only
  split_ifs
  · rw [takeBits_of_le (le_trans (Nat.le_add_right _ _) hlen)]
    exact ⟨_, _, rfl⟩
  · rw [takeBits_of_le (le_trans (Nat.le_add_left _ _) hlen)]
    exact ⟨_, _, rfl⟩

/-- Any bits, continued by a one and enough bits, decode as a run codeword (R103). -/
theorem decode_run_continued (j : Nat) (s : Bits) :
    ∃ i rest, decode (.run j) (s ++ true :: List.replicate j false) = .ok (i, rest) := by
  cases s with
  | nil => exact ⟨_, _, rfl⟩
  | cons b t =>
    cases b with
    | true => exact ⟨_, _, rfl⟩
    | false =>
      have hlen : j ≤ (t ++ true :: List.replicate j false).length := by
        rw [List.length_append, List.length_cons, List.length_replicate]
        omega
      rw [decode, List.cons_append, decodeRun, takeBits_of_le hlen]
      exact ⟨_, _, rfl⟩

/-- Settles O3: by the inversion of the decoder in each context, and by a continuation for each that decodes. -/
theorem decodedBitsAreAnEncoding : Obligations.DecodedBitsAreAnEncoding := by
  refine ⟨fun ff s rest i h => decode_byte_eq_ok h, fun k limit s rest i hk hl h => encode_of_decode_golomb hk hl h,
    fun j s rest i hj h => encode_of_decode_run hj h, fun c s => ?_⟩
  cases c with
  | byte ff =>
    have hlen : 8 ≤ (s ++ List.replicate 8 false).length := by
      rw [List.length_append, List.length_replicate]
      exact Nat.le_add_left _ _
    refine ⟨List.replicate 8 false, ?_⟩
    rw [decode, decodeByte, takeBits_of_le hlen]
    exact ⟨_, _, rfl⟩
  | golomb k limit => exact ⟨_, decode_golomb_continued k limit s⟩
  | run j => exact ⟨_, decode_run_continued j s⟩

/-- Settles O1: each word is decoded bit by bit. -/
theorem codewordSamples : Obligations.CodewordSamples := ⟨rfl, rfl, rfl, rfl, rfl, rfl, rfl⟩

end Sys2Proof.Machine
end

section
/-! PROOFS. Every encode operation of a pixel completes (R193 to R195, R198, R201): what `State.Coded` and the uninterrupted
`ENC.RIPIXEL` leave, as outcomes of operations run by name. -/

namespace Sys2Proof.Machine

/-- What a coded pixel leaves: the status, the row above and the row number as they were, X advanced in the row, bits
written, the source samples in CUR, and the invariants (R193, R201). -/
theorem State.Coded.effects {s t : State} {bits : Bits} (hflag : s.bw.flagOk = true) (h : s.Coded t bits) :
    t.status = s.status ∧ s.x < t.x ∧ t.x ≤ s.w ∧ (∃ bits, bits ≠ [] ∧ s.bw.Wrote bits t.bw) ∧
      (∀ x : Nat, s.x ≤ x → x < t.x → t.curAt x = s.srcAt s.y x) ∧
      (∀ x : Int, -1 ≤ x → x < s.x → t.curAt x = s.curAt x) ∧ t.prev = s.prev ∧ t.y = s.y ∧ t.Inv ∧ t.Bounded := by
  obtain ⟨hsame, -, -, hlt, hle, hne, hbw, hcoded, hkept, hinv, hbounded⟩ := h
  obtain ⟨-, -, -, -, hstatus, hy, hprev, -, -, -, -⟩ := hsame
  exact ⟨hstatus, hlt, hle, ⟨bits, hne, hbw ▸ Writer.wrote_put hflag bits⟩, hcoded, hkept, hprev, hy, hinv, hbounded⟩

/-- The four encode operations of a pixel finish with it coded, where they have a codeword for it (R193 to R195, R198). -/
theorem exec_encode_coded {s : State} {i : Instr} (hI : s.Inv) (hB : s.Bounded) (hy : s.y < s.rows) (hx : s.x < s.w)
    (hi : i = .encStep ∨ (i = .encRegular ∧ s.q ≠ 0 ∧ -364 ≤ s.q ∧ s.q ≤ 364) ∨ i = .encRun ∨
      (i = .encRipixel ∧ ¬(s.srcAt s.y s.x = s.ra ∧ s.prevAt s.x = s.ra))) :
    ∃ t bits, exec i s = .next t ∧ s.Coded t bits ∧
      (i = .encStep ∧ s.mode = .regular ∨ i = .encRun → t.mode = .regular) := by
  rcases hi with rfl | ⟨rfl, -⟩ | rfl | ⟨rfl, hne⟩
  · obtain ⟨t, bits, hdone, hcoded, hmode⟩ := State.encodeStep_coded hI hB hy hx
    exact ⟨t, bits, by rw [exec_encStep, hdone, Res.outcome_ok], hcoded, fun h => hmode (by simpa using h)⟩
  · obtain ⟨k, c, t, -, -, hdone, hcoded, -⟩ := State.encodeRegular_coded hI hB hy hx
    exact ⟨t, _, by rw [exec_encRegular, hdone, Res.outcome_ok], hcoded, by simp⟩
  · obtain ⟨n, t, bits, -, -, hdone, hcoded, hmode, -⟩ := State.encodeRun_coded hI hB hy hx
    exact ⟨t, bits, by rw [exec_encRun, hdone, Res.outcome_ok], hcoded, fun _ => hmode⟩
  · obtain ⟨k, em, c, t, -, -, -, -, hdone, hcoded, -⟩ := State.encodeInterruption_coded hI hB hy hx hne
    exact ⟨t, _, by rw [exec_encRipixel, hdone, Res.outcome_ok], hcoded, by simp⟩

/-- Settles O44: a coded pixel has the effects claimed, and so has the sample that did not interrupt its run, by
`State.encodeInterruption_uninterrupted`. -/
theorem encodeStepsComplete : Obligations.EncodeStepsComplete := by
  intro s hI hB _ hy hx
  obtain ⟨-, hri, -, hflag, -⟩ := id hI
  obtain ⟨hcount, -⟩ := hri 1
  refine ⟨fun i hi => ?_, fun hs hp => ?_⟩
  · obtain ⟨t, bits, hdone, hcoded, hmode⟩ := exec_encode_coded hI hB hy hx hi
    obtain ⟨hstatus, hlt, hle, hwrote, hcur, hkept, hprev, hrow, hinv, hbounded⟩ := hcoded.effects hflag
    exact ⟨t, t.bw, hdone, hstatus, hlt, hle, rfl, hwrote, hcur, hkept, hprev, hrow, hmode, hinv, hbounded⟩
  · obtain ⟨k, c, hk, hdone, hn, ha, hnn, htype, hthreshold⟩ :=
      State.encodeInterruption_uninterrupted hI hy hx hs hp
    obtain ⟨k', hk', hle, hleast⟩ := RunCtx.getK_spec 1 hcount
    obtain rfl : k = k' := Option.some.inj (hk.symm.trans hk')
    rw [Fin.val_one, Nat.cast_one, mul_one] at hle hleast
    have hexec := exec_encRipixel s
    rw [hdone, Res.outcome_ok, lineAddr_natCast] at hexec
    refine ⟨k, c, _, _, hexec, Writer.wrote_put hflag _, hle, hleast, htype, hthreshold, fun h64 => ?_, fun h64 => ?_⟩
    · rw [if_pos h64] at hn ha hnn
      exact ⟨ha, hn, hnn⟩
    · rw [if_neg h64] at hn ha hnn
      exact ⟨ha, hn, hnn⟩

end Sys2Proof.Machine
end

section
/-! PROOFS. The data invariant in every step, whatever operation it performs (R27, R29, R32, R60), and the one operation that
can leave it: `ENC.RIPIXEL` by name on a sample that interrupts no run (notes/assumptions/16.md). -/

namespace Sys2Proof.Machine

/-! The writer and the parts that are run by name. -/

/-- An operation whose parts keep the invariant where they finish keeps it, unless a fault was raised (R237). -/
theorem Res.Gives.next_inv {α : Type} {r : Res α} {s t : State} {f : α → State → State}
    (h : r.Gives fun _ u => u.Inv) (hk : r.Keeps s) (ht : r.outcome f = .next t) (hs : t.status ≠ .fault)
    (hf : ∀ a u, State.Inv u → (f a u).Inv) : t.Inv := by
  rcases Res.outcome_eq_next ht with ⟨a, u, hu, rfl⟩ | hraised
  · exact hf a u (h a u hu)
  · exact absurd (hk.2 t hraised).2 hs

theorem Res.Gives.mono {α : Type} {r : Res α} {Q Q' : α → State → Prop} (h : r.Gives Q) (hQ : ∀ a u, Q a u → Q' a u) :
    r.Gives Q' := fun a u hu => hQ a u (h a u hu)

/-- A byte in the format of its predecessor sets the flag by itself, and the queue is as it was (R91). -/
theorem State.Inv.byteFormat {s : State} (h : s.Inv) (b : Byte) (bits : Bits) : (s.byteFormat b bits).Inv := by
  obtain ⟨hreg, hri, hwf, -, hqueue⟩ := id h
  unfold State.byteFormat
  split
  · exact ⟨hreg, hri, hwf, Writer.flagOk_emit s.bw b, hqueue⟩
  · exact h

theorem State.Inv.golombWord {s : State} (h : s.Inv) (bits : Bits) (m : Nat) : (s.golombWord bits m).Inv := by
  unfold State.golombWord
  split
  · exact h.withPut bits
  · exact h

theorem State.Inv.drain {s : State} (h : s.Inv) : (s.withBw s.bw.drain).Inv := by
  obtain ⟨hreg, hri, hwf, hflag, -⟩ := h
  exact ⟨hreg, hri, hwf, Writer.flagOk_drain hflag, Writer.wq_length_le_of_drained (Writer.drained_drain s.bw)⟩

theorem State.Inv.decodeHit {s : State} (h : s.Inv) (rem0 : Nat) : (s.decodeHit rem0).Inv := by
  unfold State.decodeHit
  split_ifs <;> exact h

theorem State.decodeTerm_gives {s : State} (h : s.Inv) (rem0 n : Nat) :
    (s.decodeTerm rem0 n).Gives fun _ t => t.Inv := by
  unfold State.decodeTerm
  dsimp only
  split_ifs
  · exact Res.gives_raised
  · exact Res.gives_ok h

/-- `RUNHIT`, emitted or parsed, keeps the invariant (R97). -/
theorem State.Inv.runhit {s t : State} (h : s.Inv) (ht : execRunhit s = .next t) : t.Inv := by
  unfold execRunhit at ht
  split at ht
  · cases ht
    exact h.encodeHit
  · have hd := h.decodeHit (s.w - s.x)
    cases ht
    split_ifs <;> exact hd

/-- `RUNTERM`, emitted or parsed, keeps the invariant (R98). -/
theorem State.Inv.runterm {s t : State} {j r : Nat} (h : s.Inv) (ht : execRunterm j r s = .next t)
    (hs : t.status ≠ .fault) : t.Inv := by
  unfold execRunterm at ht
  split at ht
  · cases ht
    exact h.withPut _
  · exact (State.decodeTerm_gives h _ _).next_inv (s.decodeTerm_keeps _ _) ht hs fun _ _ hu => hu

/-! Every operation. -/

/-- Every operation but `ENC.RIPIXEL` that raises no fault keeps the data invariant. -/
theorem exec_inv {i : Instr} {s t : State} (h : s.Inv) (hi : i ≠ .encRipixel) (ht : exec i s = .next t)
    (hs : t.status ≠ .fault) : t.Inv := by
  obtain ⟨hreg, hri, hwf, -⟩ := id h
  cases i with
  | encRipixel => exact absurd rfl hi
  | b8 | b7 => cases ht; exact h.byteFormat _ _
  | gr | esc => cases ht; exact h.golombWord _ _
  | runhit => exact h.runhit ht
  | runterm => exact h.runterm ht hs
  | bwWritebit | bwWritebin | bwWriteunary => cases ht; exact h.withPut _
  | bwDrain => cases ht; exact h.drain
  | bwFlush | encEnd => cases ht; exact h.flush
  | grEnc => cases ht; exact h.golomb _ _ _
  | brReadbit | brReadbin | brReadunary | grDec =>
    refine Res.Gives.next_inv (Res.Gives.mono (State.reads_gives s _) ?_) (State.reads_keeps (.refl s) _) ht hs
      fun _ _ hu => hu
    rintro _ _ ⟨r, rfl⟩
    exact h
  | rcGetk =>
    refine Res.Gives.next_inv (Res.Gives.mono (State.regK_gives s _) ?_) (State.regK_keeps (.refl s) _) ht hs
      fun _ _ hu => hu
    rintro _ _ rfl
    exact h
  | riGetk =>
    refine Res.Gives.next_inv (Res.Gives.mono (State.runK_gives s _) ?_) (State.runK_keeps (.refl s) _) ht hs
      fun _ _ hu => hu
    rintro _ _ rfl
    exact h
  | rcUpdate i e =>
    refine Res.Gives.next_inv (Res.Gives.mono (State.updateReg_gives i (hreg i) e) ?_)
      (State.updateReg_keeps (.refl s) _ _) ht hs fun _ _ hu => hu
    rintro _ _ ⟨c, rfl, hc⟩
    exact h.withReg hc
  | riUpdate i e em =>
    refine Res.Gives.next_inv (Res.Gives.mono (State.updateRi_gives i (hri i) e em) ?_)
      (State.updateRi_keeps (.refl s) _ _ _) ht hs fun _ _ hu => hu
    rintro _ _ ⟨c, rfl, hc⟩
    exact h.withRi hc
  | nbrFetch => exact (State.fetchNeighbours_gives h).next_inv s.fetchNeighbours_keeps ht hs fun _ _ hu => hu
  | encStep => exact (State.encodeStep_gives h).next_inv s.encodeStep_keeps ht hs fun _ _ hu => hu
  | encRegular =>
    exact (State.encodeRegular_gives h).next_inv (State.encodeRegular_keeps (.refl s)) ht hs fun _ _ hu => hu
  | encRun => exact (State.encodeRun_gives h).next_inv (State.encodeRun_keeps (.refl s)) ht hs fun _ _ hu => hu
  | encRunlen => cases ht; exact h.encodeRunLength _ _
  | decStep => exact (State.decodeStep_gives h).next_inv s.decodeStep_keeps ht hs fun _ _ hu => hu
  | decRunlen =>
    exact (State.decodeRunLength_gives _ h).next_inv (State.decodeRunLength_keeps (.refl s) _) ht hs fun _ _ hu => hu
  | decRegular =>
    exact (State.decodeRegular_gives h).next_inv (State.decodeRegular_keeps (.refl s)) ht hs fun _ _ hu => hu
  | decRun => exact (State.decodeRun_gives h).next_inv (State.decodeRun_keeps (.refl s)) ht hs fun _ _ hu => hu
  | decRipixel =>
    exact (State.decodeInterruption_gives h).next_inv (State.decodeInterruption_keeps (.refl s)) ht hs
      fun _ _ hu => hu
  | scanEncode | scanDecode =>
    obtain ⟨-, rfl⟩ := State.command_eq_next ht
    exact State.inv_scanInit hwf
  | scanInit => cases ht; exact State.inv_scanInit hwf
  | rcInit =>
    cases ht
    obtain ⟨hinit, -⟩ := State.inv_scanInit hwf
    exact ⟨hinit, h.2⟩
  | riInit =>
    cases ht
    obtain ⟨-, hinit, -⟩ := State.inv_scanInit hwf
    exact ⟨hreg, hinit, h.2.2⟩
  | rowStart => cases ht; exact h.rowStart
  | quant | ctxid | ctxsel | predict | corrpred | modrange | errval | recon | rcGetcorr | maperr | unmaperr
  | riSelect | riErrval | riMap | riEmerr | riUnmap | riRecon | runidxInc | runidxDec | rowEnd | decEnd =>
    cases ht
    exact h

/-! The exception. -/

/-- `ENC.RIPIXEL` of a sample that interrupts a run keeps the data invariant, unless it raises a fault (R198). -/
theorem exec_encRipixel_inv {s t : State} (h : s.Inv) (hne : ¬(s.srcAt s.y s.x = s.ra ∧ s.prevAt s.x = s.ra))
    (ht : exec .encRipixel s = .next t) (hs : t.status ≠ .fault) : t.Inv :=
  (State.encodeInterruption_gives h hne).next_inv (State.encodeInterruption_keeps (.refl s)) ht hs fun _ _ hu => hu

/-- `ENC.RIPIXEL` that goes on was run at a sample of the scan (R35). -/
theorem isSample_of_exec_encRipixel {s t : State} (ht : exec .encRipixel s = .next t) : s.y < s.rows ∧ s.x < s.w := by
  rw [exec_encRipixel, State.encodeInterruption] at ht
  split_ifs at ht with hsample
  · simpa [State.isSample] using hsample
  · cases ht

theorem State.withRi_get_self (s : State) (t : Fin Config.nri) : s.withRi t (s.ri.get t) = s := by
  simp [State.withRi, Vector.get_eq_getElem]

/-- `ENC.RIPIXEL` of a sample that interrupted no run takes 1 off RI[1].A: the invariant is kept, but where A was 0 it is
−1 and the rest of the invariant is kept (R177, notes/assumptions/16.md). -/
theorem exec_encRipixel_uninterrupted_inv {s t : State} (h : s.Inv) (hs : s.srcAt s.y s.x = s.ra)
    (hp : s.prevAt s.x = s.ra) (ht : exec .encRipixel s = .next t) :
    t.Inv ∨ ((s.ri.get 1).a.toInt = 0 ∧ (t.ri.get 1).a.toInt = -1 ∧
      (t.withRi 1 { t.ri.get 1 with a := 0 }).Inv) := by
  obtain ⟨hy, hx⟩ := isSample_of_exec_encRipixel ht
  obtain ⟨k, c, -, hdone, hn, ha, hnn, htype, hthreshold⟩ :=
    State.encodeInterruption_uninterrupted h hy hx hs hp
  rw [exec_encRipixel, hdone, Res.outcome_ok] at ht
  obtain ⟨hreg, hri, hwf, -⟩ := id h
  obtain ⟨hn1, hn64, hnn0, hnnle, ha0, -⟩ := hri 1
  have hcounts : 1 ≤ c.n.toInt ∧ c.n.toInt ≤ 64 ∧ 0 ≤ c.nn.toInt ∧ c.nn.toInt ≤ c.n.toInt - 1 := by
    rw [hn, hnn]
    split_ifs <;> omega
  obtain ⟨hc1, hc64, hcnn0, hcnnle⟩ := hcounts
  have hget : t.ri.get 1 = c := by
    cases ht
    exact get_set_self s.ri 1 c
  have hstored : ∀ d : RunCtx, d.Inv 1 → (t.withRi 1 d).Inv := by
    intro d hd
    cases ht
    refine ⟨hreg, fun j => ?_, Memory.wf_setCur hwf s.x s.ra, h.put _⟩
    show (((s.ri.set 1 c).set 1 d).get j).Inv j
    rw [Vector.set_set]
    exact forall_get_set (P := fun t (c : RunCtx) => c.Inv t) hri hd j
  by_cases hzero : (s.ri.get 1).a.toInt = 0
  · rw [hget]
    refine .inr ⟨hzero, ?_, hstored _ ⟨hc1, hc64, hcnn0, hcnnle, le_rfl, htype, hthreshold⟩⟩
    rw [ha, hzero]
    split_ifs <;> rfl
  · have hinv := hstored c ⟨hc1, hc64, hcnn0, hcnnle, by rw [ha]; split_ifs <;> omega, htype, hthreshold⟩
    rw [← hget, State.withRi_get_self] at hinv
    exact .inl hinv

/-- The driver issues no `ENC.RIPIXEL` of its own (R190, R210). -/
theorem State.driverNext_ne_encRipixel {s : State} {i : Instr} (h : s.driverNext = some i) : i ≠ .encRipixel := by
  unfold State.driverNext at h
  split at h
  · split_ifs at h
    · split at h <;> cases h <;> exact Instr.noConfusion
    · cases h; exact Instr.noConfusion
    · cases h; exact Instr.noConfusion
    · split at h <;> cases h <;> exact Instr.noConfusion
  all_goals cases h

/-- Settles O56: by `exec_inv` for every operation but `ENC.RIPIXEL`, and for that one by whether its sample interrupts
the run. -/
theorem stepKeepsInv : Obligations.StepKeepsInv := by
  intro s t h ht hs
  rcases step_eq_next ht with ⟨i, hissued, he⟩ | ⟨-, ⟨i, hd, he⟩ | rfl⟩
  · have h' : State.Inv { s with issued := none } := h
    by_cases hi : i = .encRipixel
    · subst hi
      by_cases hopen : s.srcAt s.y s.x = s.ra ∧ s.prevAt s.x = s.ra
      · obtain ⟨hsrc, hprev⟩ := hopen
        exact (exec_encRipixel_uninterrupted_inv h' hsrc hprev he).imp id fun hexc => ⟨hissued, hsrc, hprev, hexc⟩
      · exact .inl (exec_encRipixel_inv h' hopen he hs)
    · exact .inl (exec_inv h' hi he hs)
  · exact .inl (exec_inv h (State.driverNext_ne_encRipixel hd) he hs)
  · exact .inl h

end Sys2Proof.Machine
end

section
/-! PROOFS. The scan invariant in every step of a machine whose host only issues commands, the end of every scan, and the
invariants at power-on (R190, R218, R230, R250). -/

namespace Sys2Proof.Machine

/-- Settles O57: an issued operation is a command, which starts a scan; the driver's are in `State.ScanInv.driver`. -/
theorem stepKeepsScanInv : Obligations.StepKeepsScanInv := by
  intro s t h ht
  obtain ⟨hwf, hlegal, -⟩ := id h
  rcases step_eq_next ht with ⟨i, hissued, he⟩ | ⟨hissued, -⟩
  · obtain ⟨width, rows, size, rfl | rfl⟩ := exists_command_of_isCommand (hlegal i hissued)
    · exact (State.scanInv_command (s := { s with issued := none }) hwf rfl he).1
    · exact (State.scanInv_command (s := { s with issued := none }) hwf rfl he).1
  · by_cases hb : s.status = .busy
    · obtain ⟨u, hu, hinv, -⟩ := h.driver hissued hb
      cases hu.symm.trans ht
      exact hinv
    · cases (step_at_rest hissued hb).symm.trans ht
      exact h

/-- Settles O58: every step of the driver that does not end the scan makes what remains of it smaller. -/
theorem scanTerminates : Obligations.ScanTerminates := by
  intro s
  induction hN : s.remaining using Nat.strong_induction_on generalizing s with
  | _ N ih =>
    intro h hb hi
    subst hN
    obtain ⟨t, hstep, hinv, hissued, hrows, hwidth, hdir, hend⟩ := h.driver hi hb
    rcases hend with ⟨hbusy, hmoved⟩ | ⟨hdone, -⟩ | ⟨hfault, hdecode, -⟩
    · obtain ⟨n, u, hrun, hstatus, henc⟩ := ih _ (h.remaining_lt hb hinv hwidth hrows hmoved) t rfl hinv hbusy hissued
      exact ⟨n + 1, u, (core_run_next hstep).trans hrun, hstatus, fun hd => henc (hdir.trans hd)⟩
    · exact ⟨1, t, core_run_next hstep, .inl hdone, fun _ => hdone⟩
    · refine ⟨1, t, core_run_next hstep, .inr hfault, fun hencode => ?_⟩
      rw [hencode] at hdecode
      cases hdecode

/-- The state at power-on has the contexts, the writer and the empty lines that `SCAN.INIT` leaves (R250). -/
theorem State.reset_inv : State.reset.Inv := State.inv_scanInit (s := State.reset) rfl

theorem State.reset_bounded : State.reset.Bounded := State.bounded_scanInit State.reset

/-- Settles O55: data and bounds as after `SCAN.INIT`, and no scan under way. -/
theorem resetMeetsInvariants : Obligations.ResetMeetsInvariants := by
  have hlegal : State.reset.HostLegal := fun _ h => by cases h
  refine ⟨State.reset_inv, State.reset_bounded, ⟨rfl, hlegal, le_rfl, le_rfl, fun _ => ⟨State.reset_inv, rfl, rfl⟩,
    fun h => ?_, fun h => ?_, fun h => ?_⟩, rfl⟩ <;> cases h

/-- Settles O50: nothing is issued and no scan is under way; the tables by their definitions. -/
theorem powerOnIsIdle : Obligations.PowerOnIsIdle :=
  ⟨rfl, step_at_rest rfl Status.noConfusion, rfl, fun i _ _ => toInt_tableC i⟩

end Sys2Proof.Machine
end

section
/-! PROOFS. The mirror law: a decode step beside the encode step whose bits it reads, and a whole decode of a finished
encode (R217, property 1). -/

namespace Sys2Proof.Machine

/-- Settles O59: the step and the bits that `State.encodeStep_mirrored` speaks of are the encoder's, since its step has one
outcome and its bits are what it appended. -/
theorem decodeStepMirrorsEncodeStep : Obligations.DecodeStepMirrorsEncodeStep := by
  intro s t d bits rest hI hB _ hy hx hmode ht hbits hm hwf _ hp
  obtain ⟨-, -, -, hflag, -⟩ := id hI
  obtain ⟨t', bits', hdone, hcoded, -, hmirror⟩ := State.encodeStep_mirrored hI hB hy hx hmode hm hwf
  rw [exec_encStep, hdone, Res.outcome_ok] at ht
  cases ht
  obtain ⟨-, -, -, -, -, -, hbw, -⟩ := hcoded
  rw [hbw, Writer.stream_put hflag] at hbits
  obtain rfl := List.append_cancel_left hbits
  obtain ⟨u, hdec, hdecoded, hmode', hmirrors⟩ := hmirror rest hp
  obtain ⟨-, -, hdy, hdx, -⟩ := hm
  obtain ⟨-, -, -, hux, -⟩ := id hmirrors
  obtain ⟨⟨-, -, -, -, hstatus, -⟩, -, -, -, -, hrest, -, -, -, hout, hother⟩ := hdecoded
  rw [hdx, hdy, hux] at hout hother
  exact ⟨u, by rw [exec_decStep, hdec, Res.outcome_ok], hmirrors, hrest, hstatus, hmode', hout, hother⟩

/-! A whole scan. -/

/-- Runs from one state that end at rest end in one state. -/
theorem core_run_rest_unique {m n : Nat} {s t u : State} (hm : core.run m s = .next t) (hn : core.run n s = .next u)
    (ht : step t = .next t) (hu : step u = .next u) : t = u := by
  have hboth := (core_run_add (n := n) hm).symm.trans (Nat.add_comm m n ▸ core_run_add (n := m) hn)
  rw [core_run_fixed ht, core_run_fixed hu] at hboth
  exact Host.Outcome.next.inj hboth

/-- The state a command that is taken leaves (R190, R210, R251). -/
def State.started (s : State) (dir : Dir) (width rows size : Nat) : State :=
  State.scanInit { s with dir := dir, width := .ofNat 16 width, rows := rows, size := size }

/-- Right after the two commands with one WIDTH and ROWS the decoder follows the encoder (R190, R210, R251). -/
theorem State.follows_started {d : State} (s : State) (width rows size size' : Nat) (hwf : Memory.wf d = true)
    (hissued : d.issued = none) :
    (d.started .decode width rows size).Follows (s.started .encode width rows size') := by
  obtain ⟨-, -, hwf', -⟩ := State.inv_scanInit (s := { d with
    dir := .decode, width := .ofNat 16 width, rows := rows, size := size }) hwf
  exact ⟨⟨rfl, rfl, rfl, rfl, rfl, rfl, rfl, rfl, rfl, fun _ _ _ => rfl, fun _ _ _ => rfl⟩, hwf', rfl, rfl, hissued,
    fun _ _ _ _ => rfl⟩

/-- A decoder at the start of bytes that begin with those of a list has their stream bits before it (R33, R128). -/
theorem State.pending_started {d : State} {l : List Byte} {size : Nat} (dir : Dir) (width rows : Nat)
    (hl : l.length ≤ size) (h : ∀ i (h : i < l.length), readCell d.inp i = l[i]) :
    ∃ rest, (d.started dir width rows size).pending = unstuff l ++ rest := by
  obtain ⟨m, hm⟩ := Reader.unread_of_bytes hl h
  obtain ⟨rest, hrest⟩ := unstuffFrom_prefix false l m
  refine ⟨rest, ?_⟩
  show [] ++ unstuffFrom false (Reader.unread d.inp size { rq := [], ffpend := false, pos := 0 }) = _
  rw [hm, hrest, List.nil_append, unstuff]

/-- Right after a command every sample of the image is to come (R190). -/
theorem State.toCome_started (s : State) (dir : Dir) {width rows y x : Nat} (size : Nat) (hwidth : width ≤ 65535)
    (hy : y < rows) (hx : x < width) : (s.started dir width rows size).toCome y x := by
  refine ⟨hy, ?_, ?_⟩
  · show x < (BitVec.ofNat 16 width).toNat
    rw [BitVec.toNat_ofNat]
    omega
  · rcases Nat.eq_zero_or_pos y with hzero | hpos
    · exact .inr ⟨hzero, fun _ => Nat.zero_le x⟩
    · exact .inl hpos

/-- Settles O60: the encode is the one that `State.ScanInv.ends` speaks of, the decode follows it from the start, and
before it stand the bits written, the padding, and the bits of the bytes after SINK. -/
theorem decodedScanEqualsSource : Obligations.DecodedScanEqualsSource := by
  intro s s₀ t d d₀ width rows size n hw hw' hwf henc hsi hrun hdone hdwf hsize hbytes hdec hdi
  obtain ⟨hinv, hs₀⟩ := State.scanInv_command hwf hsi henc
  obtain ⟨-, hd₀⟩ := State.scanInv_command hdwf hdi hdec
  rw [← State.started] at hs₀ hd₀
  subst hs₀ hd₀
  obtain ⟨t', bits, ⟨n', hrun'⟩, hdone', hissued', ⟨p, -, hsink⟩, hfollow⟩ := hinv.ends hsi rfl rfl
  have hatrest : ∀ u : State, u.issued = none → u.status = .done → step u = .next u := fun u hi hs =>
    step_at_rest hi (by rw [hs]; exact Status.noConfusion)
  obtain rfl : t = t' := core_run_rest_unique hrun hrun' (hatrest t (hinv.run hsi hrun).2 hdone)
    (hatrest t' hissued' hdone')
  obtain ⟨rest, hpending⟩ := State.pending_started .decode width rows hsize hbytes
  have hstream : unstuff t.bw.sink = bits ++ List.replicate p false := hsink
  rw [hstream, List.append_assoc] at hpending
  obtain ⟨m, u, hdecrun, hudone, hreg, hri, hrunIndex, hout, -⟩ := hfollow _ _
    (State.follows_started s width rows size s.size hdwf hdi) hpending
  exact ⟨m, u, hdecrun, hudone, fun y x hy hx => hout y x (State.toCome_started s .encode s.size hw' hy hx), hreg, hri,
    hrunIndex⟩

end Sys2Proof.Machine
end

section
/-! PROOFS. The laws of the byte layer: stuffing and unstuffing (R128, R129), and that the schedule of the writes does not
show in SINK (R123). -/

namespace Sys2Proof.Machine

/-- `Stuff(B)` is what flushing a writer leaves that has nothing but B queued (R124, R128). -/
theorem stuff_eq_flush_sink (b : Bits) : stuff b = (⟨b, false, []⟩ : Writer).flush.sink := by
  rw [Writer.flush_sink, List.nil_append, stuff]

/-- Settles O4: the laws of the flushed writer, `Writer.pad_spec`, of the one that has B queued. -/
theorem stuffingLaws : Obligations.StuffingLaws := by
  intro b
  have hflag : (⟨b, false, []⟩ : Writer).flagOk = true := rfl
  obtain ⟨⟨p, hp, hbits⟩, hlast, -, hmarker, -⟩ :=
    Writer.pad_spec (Writer.flagOk_drain hflag) (Writer.drained_drain ⟨b, false, []⟩)
  rw [Writer.stream_drain hflag] at hbits
  rw [stuff_eq_flush_sink, Writer.flush]
  exact ⟨⟨p, hp, hbits⟩, hmarker (Writer.markerFree_drain hflag rfl), hlast⟩

/-- Several writes to a drained writer are one write of all their bits (R123). -/
theorem Writer.foldl_put {w : Writer} (h : w.drained = true) (ws : List Bits) :
    ws.foldl Writer.put w = w.put ws.flatten := by
  induction ws generalizing w with
  | nil => rw [List.foldl_nil, List.flatten_nil, Writer.put, List.append_nil, Writer.drain_of_drained h]
  | cons s ws ih => rw [List.foldl_cons, ih (Writer.drained_put w s), Writer.put_put, List.flatten_cons]

/-- Flushing after a write is flushing with its bits queued (R120, R124). -/
theorem Writer.flush_put (w : Writer) (s : Bits) : (w.put s).flush = { w with wq := w.wq ++ s }.flush := by
  rw [Writer.flush, Writer.drain_of_drained (Writer.drained_put w s), Writer.put, ← Writer.flush]

/-- Settles O5: the writes are one write, and flushing it is flushing all the bits. -/
theorem flushedWriterHoldsStuff : Obligations.FlushedWriterHoldsStuff := by
  intro s t ws hs ht
  rw [exec_bwFlush] at ht
  cases ht
  have hflush : (ws.foldl Writer.put s.bw).flush = (⟨ws.flatten, false, []⟩ : Writer).flush := by
    rw [hs, Writer.foldl_put rfl, Writer.flush_put, List.nil_append]
  refine ⟨?_, Writer.wq_pad _⟩
  rw [stuff_eq_flush_sink, ← hflush]
  rfl

end Sys2Proof.Machine
end

section
/-! PROOFS. The laws of the functions of one pixel: the context id, the residual and its reconstruction, the residual
mappings (R141 to R145, R154, R164, R168, R178, R179). -/

namespace Sys2Proof.Machine

/-! The context id. -/

/-- The context id is zero exactly when its three levels are, that is when the four samples are equal (R143, R145). -/
theorem contextId_eq_zero_iff (a b c d : Sample) : contextId a b c d = 0 ↔ a = b ∧ b = c ∧ c = d := by
  have h1 := quantize_bounds (sampleInt d - sampleInt b)
  have h2 := quantize_bounds (sampleInt b - sampleInt c)
  have h3 := quantize_bounds (sampleInt c - sampleInt a)
  have z1 := quantize_eq_zero (sampleInt d - sampleInt b)
  have z2 := quantize_eq_zero (sampleInt b - sampleInt c)
  have z3 := quantize_eq_zero (sampleInt c - sampleInt a)
  rw [← sampleInt_inj, ← sampleInt_inj, ← sampleInt_inj, contextId]
  omega

/-- A sample taken from the largest one (R145). -/
theorem sampleInt_complement (a : Sample) : sampleInt (65535 - a) = 65535 - sampleInt a := by
  have h := a.isLt
  simp only [sampleInt, BitVec.toNat_sub, BitVec.reduceToNat]
  omega

/-- Taking every sample from the largest one negates the context id (R145). -/
theorem contextId_complement (a b c d : Sample) :
    contextId (65535 - a) (65535 - b) (65535 - c) (65535 - d) = -contextId a b c d := by
  have hdiff (u v : Sample) :
      quantize (sampleInt (65535 - u) - sampleInt (65535 - v)) = -quantize (sampleInt u - sampleInt v) := by
    rw [← quantize_neg, sampleInt_complement, sampleInt_complement]
    congr 1
    ring
  simp only [contextId, hdiff]
  ring

/-- In the range of a context id the context index does not depend on the sign (R144). -/
theorem contextIndex_neg {q : Int} (hlow : -364 ≤ q) (hhigh : q ≤ 364) : contextIndex (-q) = contextIndex q := by
  have hval := contextIndex_val hlow hhigh
  rw [← abs_neg, ← contextIndex_val (by omega) (by omega), Nat.cast_inj] at hval
  exact (Fin.ext hval).symm

/-- Settles O12: the quantizer's laws, and for the context id its bounds, its zero, its levels and its complement. -/
theorem contextIdLaws : Obligations.ContextIdLaws := by
  refine ⟨quantize_neg, fun _ _ => quantize_mono, quantize_eq_zero, fun a b c d => ?_,
    fun _ _ _ _ _ _ _ _ => contextId_levels, fun a b c d => ?_⟩
  · obtain ⟨hlow, hhigh⟩ := contextId_bounds a b c d
    exact ⟨hlow, hhigh, contextId_eq_zero_iff a b c d⟩
  · obtain ⟨hlow, hhigh⟩ := contextId_bounds a b c d
    rw [contextId_complement]
    exact ⟨rfl, contextIndex_neg hlow hhigh⟩

/-! The residual and its reconstruction. -/

/-- A sample that differs from its equal flanks has a residual (R172). -/
theorem runResidual_ne_zero_of_flat {x ra rb : Sample} (hflat : ra = rb) (hx : x ≠ ra) :
    (runResidual x ra rb).1 ≠ 0 :=
  runResidual_ne_zero (by rw [runSelect_eq, if_pos hflat]) hx

/-- Settles O15: `reconstruct_errVal` and `runReconstruct_runResidual`, of the residual left in E. -/
theorem reconstructionInvertsResidual : Obligations.ReconstructionInvertsResidual := by
  intro s
  refine ⟨fun x px sign => ?_, fun x ra rb => ?_⟩
  · obtain ⟨hlow, hhigh⟩ := errVal_bounds x px sign
    refine ⟨_, _, exec_errval x px sign s, hlow, hhigh, exec_recon px _ sign _, ?_⟩
    exact congrArg sampleInt (reconstruct_errVal x px sign)
  · obtain ⟨hlow, hhigh⟩ := runResidual_bounds x ra rb
    refine ⟨_, _, exec_riErrval x ra rb s, hlow, hhigh, runResidual_ne_zero_of_flat, exec_riRecon ra rb _ _, ?_⟩
    exact congrArg sampleInt (runReconstruct_runResidual x ra rb)

/-! The residual mappings. -/

/-- Settles O19: the two mappings invert each other, and the correction flips bit 0 or none. -/
theorem residualMappingLaws : Obligations.ResidualMappingLaws :=
  ⟨unmapErr_mapErr, mapErr_unmapErr, mapErr_xor_one, fun _ _ hlow hhigh hc => xor_le (mapErr_le hlow hhigh) hc⟩

/-- Settles O23: `RunCtx.unmap_mappedErr` one way, of a natural mapped value, and `RunCtx.mappedErr_unmap` the other. -/
theorem runInterruptionMappingIsBijective : Obligations.RunInterruptionMappingIsBijective := by
  intro s t k
  refine ⟨fun e he => ?_, fun em => ?_⟩
  · obtain ⟨em, hem⟩ := Int.eq_ofNat_of_zero_le (RunCtx.mappedErr_nonneg (s.ri.get t) k he)
    exact ⟨em, _, _, exec_riEmerr t e k s, hem, exec_riUnmap t em k s, RunCtx.unmap_mappedErr _ k hem he⟩
  · refine ⟨_, _, exec_riUnmap t em k s, ?_, exec_riEmerr t _ k s, RunCtx.mappedErr_unmap _ t em k⟩
    rintro rfl
    exact RunCtx.unmap_ne_zero _ em k

end Sys2Proof.Machine
end

section
/-! PROOFS. The bounds that the updates of the context files keep, and the Golomb parameter within them (R27, R29, R167). -/

namespace Sys2Proof.Machine

/-- The least shift is at most any shift that reaches the target (R161, R173). -/
theorem le_of_leastShift {n target : Int} {j k : Nat} (hk : ∀ i < k, n * 2 ^ i < target) (hj : target ≤ n * 2 ^ j) :
    k ≤ j := by
  by_contra hlt
  exact absurd hj (not_le.mpr (hk j (Nat.lt_of_not_le hlt)))

/-- The Golomb parameter of a bounded regular entry (R167). -/
theorem RegCtx.Bounded.getK_le {c : RegCtx} (h : c.Inv) (hb : c.Bounded) : ∃ k, c.getK = some k ∧ k ≤ 22 := by
  obtain ⟨hn, -⟩ := h
  obtain ⟨k, hk, -, hleast⟩ := RegCtx.getK_spec hn
  rw [RegCtx.Bounded] at hb
  exact ⟨k, hk, le_of_leastShift (j := 22) hleast (by omega)⟩

/-- The Golomb parameter of a bounded run-interruption entry (R29). -/
theorem RunCtx.Bounded.getK_le {c : RunCtx} {t : Fin Config.nri} (h : c.Inv t) (hb : c.Bounded) :
    ∃ k, c.getK t = some k ∧ k ≤ 22 := by
  obtain ⟨hn, -⟩ := h
  obtain ⟨k, hk, -, hleast⟩ := RunCtx.getK_spec t hn
  rw [RunCtx.Bounded] at hb
  refine ⟨k, hk, le_of_leastShift (j := 22) hleast ?_⟩
  fin_cases t <;> norm_num <;> omega

/-- A bounded entry of a count of at most 64 has A below 2^22 (R167). -/
theorem RegCtx.Bounded.a_lt {c : RegCtx} (h : c.Inv) (hb : c.Bounded) : c.a.toInt < 4194304 := by
  obtain ⟨-, hn, -⟩ := h
  rw [RegCtx.Bounded] at hb
  omega

theorem RunCtx.Bounded.a_lt {c : RunCtx} {t : Fin Config.nri} (h : c.Inv t) (hb : c.Bounded) : c.a.toInt < 4194304 := by
  obtain ⟨-, hn, -⟩ := h
  rw [RunCtx.Bounded] at hb
  omega

/-- An update within the bounds leaves a count of at least 2 (R165, R167). -/
theorem RegCtx.update_bounded_count {c : RegCtx} {e : Int} (h : c.Inv) (hb : c.Bounded) (he : |e| ≤ 32768) :
    ∃ c', c.update e = some c' ∧ c'.Inv ∧ c'.Bounded ∧ 2 ≤ c'.n.toInt := by
  obtain ⟨c', hupdate, hinv, hbounded⟩ := RegCtx.update_bounded h hb he
  have hfits : fits32 (c.a.toInt + |e|) = true ∧ fits32 (c.b.toInt + e) = true := by
    by_contra hover
    cases hupdate.symm.trans (RegCtx.update_eq_none hover)
  obtain ⟨c'', hupdate', -, hn, -⟩ := RegCtx.update_inv h hfits.1 hfits.2
  obtain rfl : c' = c'' := Option.some.inj (hupdate.symm.trans hupdate')
  obtain ⟨hn1, -⟩ := h
  refine ⟨c', hupdate, hinv, hbounded, ?_⟩
  rw [hn]
  split_ifs <;> omega

/-- An update within the bounds stores a bounded entry with a count of at least 2 (R177, R29). -/
theorem exec_riUpdate_bounded {s : State} {t : Fin Config.nri} {em : Nat} (e : Int) (h : (s.ri.get t).Inv t)
    (hb : (s.ri.get t).Bounded) (hem : em ≤ 65536) : ∃ c : RunCtx,
      exec (.riUpdate t e em) s = .next { s with ri := s.ri.set t c } ∧ c.Inv t ∧ c.Bounded ∧ 2 ≤ c.n.toInt := by
  obtain ⟨c, hupdate, hinv, hbounded⟩ := State.updateRi_bounded t h hb e hem
  have hexec : exec (.riUpdate t e em) s = .next { s with ri := s.ri.set t c } := by
    rw [exec_riUpdate, hupdate s rfl, Res.outcome_ok, State.withRi]
  have hfits : fits32 ((s.ri.get t).a.toInt + ((em : Int) + 1 - t.val) / 2) = true := by
    obtain ⟨-, hn, -, -, ha, -⟩ := h
    rw [RunCtx.Bounded] at hb
    have ht : t.val < 2 := t.isLt
    exact fits32_iff.mpr ⟨by omega, by omega⟩
  obtain ⟨hn, -⟩ := RunCtx.accumulate_fields (e := e) h hfits
  have hstored := (exec_riUpdate_of_fits e rfl hfits).symm.trans hexec
  refine ⟨c, hexec, hinv, hbounded, ?_⟩
  have hc := congrArg (fun u : State => u.ri.get t) (Host.Outcome.next.inj hstored)
  simp only [get_set_self] at hc
  obtain ⟨hn1, -⟩ := h
  rw [← hc, hn]
  split_ifs <;> omega

/-- Settles O25: for each file the parameter by `getK_le`, the stored entry by its bounded update. -/
theorem updatesKeepContextBounds : Obligations.UpdatesKeepContextBounds := by
  intro s
  refine ⟨fun i e h hb he => ⟨?_, ?_⟩, fun t e em h hb hem => ⟨?_, ?_⟩⟩
  · obtain ⟨k, hk, hle⟩ := hb.getK_le h
    exact ⟨k, exec_rcGetk_of_getK hk, hle⟩
  · obtain ⟨c, hupdate, hinv, hbounded, hcount⟩ := RegCtx.update_bounded_count h hb he
    exact ⟨c, exec_rcUpdate_of_some hupdate, hinv, hbounded, hcount, hbounded.a_lt hinv⟩
  · obtain ⟨k, hk, hle⟩ := hb.getK_le h
    exact ⟨k, exec_riGetk_of_getK hk, hle⟩
  · obtain ⟨c, hexec, hinv, hbounded, hcount⟩ := exec_riUpdate_bounded e h hb hem
    exact ⟨c, hexec, hinv, hbounded, hcount, hbounded.a_lt hinv⟩

end Sys2Proof.Machine
end

section
/-! PROOFS. The writing of a Golomb-Rice codeword as an operation run by name, and `GR.DEC` after it (R180, R184). -/

namespace Sys2Proof.Machine

/-- `GR.ENC` below the threshold: the quotient in unary, then k low bits (R180). -/
theorem Writer.writeGolomb_short {w : Writer} {k m limit : Nat} (h : m / 2 ^ k < escThreshold limit) :
    w.writeGolomb k m limit = (w.writeUnary (m / 2 ^ k)).writeBin (m % 2 ^ k) k := by
  rw [Writer.writeGolomb, Nat.shiftRight_eq_div_pow, if_pos h]

/-- `GR.ENC` from the threshold on: the zeros of an escape, then 16 bits of m − 1 (R180). -/
theorem Writer.writeGolomb_escape {w : Writer} {k m limit : Nat} (h : ¬m / 2 ^ k < escThreshold limit) :
    w.writeGolomb k m limit = (w.writeUnary (escThreshold limit)).writeBin (m - 1) 16 := by
  rw [Writer.writeGolomb, Nat.shiftRight_eq_div_pow, if_neg h, Config.qbpp]

/-- A unary write and a binary one after it: neither raises a fault (R121, R122). -/
theorem thenDo_bwWriteunary_bwWritebin {s : State} (hs : s.status ≠ .fault) (h v n : Nat) :
    thenDo (exec (.bwWriteunary h) s) (exec (.bwWritebin v n)) =
      .next { s with bw := (s.bw.writeUnary h).writeBin v n } := by
  rw [exec_bwWriteunary, thenDo_next (by exact hs), exec_bwWritebin]
  rfl

/-- Whatever m is, `GR.ENC` writes the bits of one codeword (R180). -/
theorem Writer.wrote_writeGolomb {w : Writer} (hw : w.flagOk = true) (k m limit : Nat) :
    w.Wrote (golombBits k m limit) (w.writeGolomb k m limit) := by
  rw [Writer.writeGolomb_eq, Nat.shiftRight_eq_div_pow, bitsOf_mod 16 (m - 1)]
  exact Writer.wrote_put hw (golombBits k m limit)

/-- The bits of a codeword, its zeros written out (R93, R180). -/
theorem golombBits_eq (k m limit : Nat) : golombBits k m limit =
    if m / 2 ^ k < escThreshold limit then List.replicate (m / 2 ^ k) false ++ true :: bitsOf k (m % 2 ^ k)
    else List.replicate (escThreshold limit) false ++ true :: bitsOf 16 (m - 1) := by
  rw [golombBits, replicate_false_append_true, replicate_false_append_true]

/-- Settles O27: the two forms by their unary and binary writes, the bits by `golombBits_eq`. -/
theorem grEncWritesCodeword : Obligations.GrEncWritesCodeword := by
  intro s k m limit _ _ _
  refine ⟨fun hs hshort => ?_, fun hs hesc => ?_, fun hflag => ⟨_, exec_grEnc k m limit s, ?_⟩⟩
  · rw [exec_grEnc, Writer.writeGolomb_short hshort, thenDo_bwWriteunary_bwWritebin hs]
  · rw [exec_grEnc, Writer.writeGolomb_escape hesc]
    exact (thenDo_bwWriteunary_bwWritebin hs _ _ _).symm
  · have hwrote := Writer.wrote_writeGolomb hflag k m limit
    rwa [golombBits_eq] at hwrote

/-- Settles O29: the bits written are `golombBits`, which `decode_golombBits` reads back. -/
theorem grDecInvertsGrEnc : Obligations.GrDecInvertsGrEnc := by
  intro s t d k m limit bits rest _ _ _ hm hflag ht hbits hd
  rw [exec_grEnc] at ht
  cases ht
  obtain ⟨hstream, -⟩ := Writer.wrote_writeGolomb hflag k m limit
  obtain rfl := List.append_cancel_left (hstream.symm.trans hbits)
  obtain ⟨i, hdecode, rfl⟩ := decode_golombBits rest (k := k) (m := m) (limit := limit) hm
  exact exec_grDec_of_decode (hd ▸ hdecode)

end Sys2Proof.Machine
end

section
/-! PROOFS. The byte formats and the codewords as instructions, emitted and parsed (R91, R95 to R98, R212). -/

namespace Sys2Proof.Machine

theorem exec_b8 (b : BitVec 8) (s : State) : exec (.b8 b) s = .next (s.byteFormat b (bitsOf 8 b.toNat)) := rfl

theorem exec_b7 (b : BitVec 7) (s : State) :
    exec (.b7 b) s = .next (s.byteFormat (b.setWidth 8) (bitsOf 7 b.toNat)) := rfl

theorem exec_gr (k limit h low : Nat) (s : State) :
    exec (.gr k limit h low) s = .next (s.golombWord (unary h ++ bitsOf k low) (h <<< k + low)) := rfl

theorem exec_esc (limit : Nat) (v : BitVec 16) (s : State) :
    exec (.esc limit v) s =
      .next (s.golombWord (unary (escThreshold limit) ++ bitsOf 16 v.toNat) (v.toNat + 1)) := rfl

/-- The stuffed 0 before seven bits leaves their value (R91). -/
theorem setWidth_eight (b : BitVec 7) : b.setWidth 8 = BitVec.ofNat 8 b.toNat := (BitVec.ofNat_toNat 8 b).symm

/-- A byte of seven bits is no 0xFF (R91). -/
theorem ffAfter_ofNat_seven (b : BitVec 7) : ffAfter (BitVec.ofNat 8 b.toNat) = false := by
  refine decide_eq_false fun h => ?_
  have hval : b.toNat % 2 ^ 8 = 255 := congrArg BitVec.toNat h
  have hlt := b.isLt
  omega

/-! Emitted. -/

theorem State.byteFormat_encode {s : State} (h : s.dir = .encode) (b : Byte) (bits : Bits) :
    s.byteFormat b bits = s.withBw (s.bw.emit b) := by
  rw [State.byteFormat, h]

theorem State.golombWord_encode {s : State} (h : s.dir = .encode) (bits : Bits) (m : Nat) :
    s.golombWord bits m = s.withBw (s.bw.put bits) := by
  rw [State.golombWord, h]

theorem exec_runterm_encode {s : State} (hd : s.dir = .encode) (j r : Nat) :
    exec (.runterm j r) s = .next (s.withBw (s.bw.put (false :: bitsOf j r))) := by
  show execRunterm j r s = _
  rw [execRunterm, hd]

theorem exec_runhit_encode {s : State} (hd : s.dir = .encode) : exec .runhit s = .next s.encodeHit := by
  show execRunhit s = _
  rw [execRunhit, hd]

/-- Settles O30: each form appends its byte or puts its bits; `RUNHIT` puts a 1. -/
theorem emittedPatterns : Obligations.EmittedPatterns := by
  intro s hd
  refine ⟨fun b => ?_, fun b => ?_, fun hflag => ⟨fun k limit h low => ?_, fun limit v => ?_, fun j r => ?_,
    s.bw.writeBit true, Writer.wrote_put hflag [true], fun hfull => ?_, fun hpart => ?_⟩⟩
  · rw [exec_b8, State.byteFormat_encode hd]
    rfl
  · rw [exec_b7, State.byteFormat_encode hd, setWidth_eight, Writer.emit, ffAfter_ofNat_seven]
    rfl
  · rw [exec_gr, State.golombWord_encode hd, replicate_false_append_true]
    exact ⟨_, rfl, Writer.wrote_put hflag _⟩
  · rw [exec_esc, State.golombWord_encode hd, replicate_false_append_true]
    exact ⟨_, rfl, Writer.wrote_put hflag _⟩
  · exact ⟨_, exec_runterm_encode hd j r, Writer.wrote_put hflag _⟩
  · rw [exec_runhit_encode hd, State.encodeHit, if_pos hfull]
  · rw [exec_runhit_encode hd, State.encodeHit, if_neg (Nat.not_le.mpr hpart)]

/-! Parsed. -/

theorem State.byteFormat_decode {s : State} (h : s.dir = .decode) (b : Byte) (bits : Bits) :
    s.byteFormat b bits = s.withBr { s.br with rq := s.br.rq ++ bits, ffpend := ffAfter b } := by
  rw [State.byteFormat, h]

theorem State.golombWord_decode {s u : State} {bits : Bits} {m : Nat} (h : s.dir = .decode)
    (hu : { s with m := (m : Int) } = u) : s.golombWord bits m = u := by
  unfold State.golombWord
  split
  case h_1 he => exact absurd (he.symm.trans h) (by decide)
  case h_2 => exact hu

theorem exec_runterm_decode {s : State} (hd : s.dir = .decode) (j r : Nat) :
    exec (.runterm j r) s = (s.decodeTerm (s.w - s.x) r).outcome fun _ t => t := by
  show execRunterm j r s = _
  rw [execRunterm, hd]

theorem exec_runhit_decode {s t : State} (hd : s.dir = .decode) (ht : s.decodeHit (s.w - s.x) = t) :
    exec .runhit s = .next (if t.idx = t.w - t.x then { t with r := t.idx, eol := true } else t) := by
  subst ht
  show execRunhit s = _
  unfold execRunhit
  split
  case h_1 he => exact absurd (he.symm.trans hd) (by decide)
  case h_2 => rfl

/-- A `RUNTERM` that leaves room for the interruption sample (R212). -/
theorem State.decodeTerm_of_lt {s : State} {rem0 n : Nat} (h : s.idx + n < rem0) :
    s.decodeTerm rem0 n = .ok () { s with idx := s.idx + n, r := s.idx + n, eol := false } := by
  rw [State.decodeTerm]
  exact if_neg (Nat.not_le.mpr h)

/-- A `RUNTERM` that leaves no room (R232). -/
theorem State.decodeTerm_of_le {s : State} {rem0 n : Nat} (h : rem0 ≤ s.idx + n) :
    s.decodeTerm rem0 n =
      .raised (State.raise { s with idx := s.idx + n } .invalidRunLength (s.idx + n)) := by
  rw [State.decodeTerm]
  exact if_pos h

/-- Settles O31: each form by its parse; `RUNHIT` by whether a full chunk fits and whether it ends the row. -/
theorem parsedPatterns : Obligations.ParsedPatterns := by
  intro s hd
  refine ⟨fun b => ?_, fun b => ?_, fun k limit h low => ?_, fun limit v => ?_, fun j r hroom => ?_,
    fun j r hfull => ?_, fun hlt => ?_, fun heq => ?_, fun hle hlt => ?_⟩
  · rw [exec_b8, State.byteFormat_decode hd]
    rfl
  · rw [exec_b7, State.byteFormat_decode hd, setWidth_eight, ffAfter_ofNat_seven]
    rfl
  · rw [exec_gr, State.golombWord_decode hd rfl, Nat.shiftLeft_eq]
  · rw [exec_esc, State.golombWord_decode hd rfl]
    rfl
  · rw [exec_runterm_decode hd, State.decodeTerm_of_lt hroom, Res.outcome_ok]
  · rw [exec_runterm_decode hd, State.decodeTerm_of_le hfull]
    exact raises_outcome_raised _ _ _ _
  · rw [exec_runhit_decode hd (State.decodeHit_full hlt.le), if_neg (by exact hlt.ne)]
  · rw [exec_runhit_decode hd (State.decodeHit_full heq.le), if_pos (by exact heq)]
    simp only [heq]
  · rw [exec_runhit_decode hd (State.decodeHit_partial hle hlt), if_pos (by rfl)]

end Sys2Proof.Machine
end

section
/-! PROOFS. `ENC.RUNLEN` run by name: the full chunks and what is left, and how few bits a run to the end of the row takes
(R196, R202). -/

namespace Sys2Proof.Machine

/-- Settles O37: the run is its full chunks and a rest below the next, whose bits are written in one. -/
theorem encRunlenWritesChunks : Obligations.EncRunlenWritesChunks := by
  intro s r eol _ heol hflag
  obtain ⟨n, hle, hlt⟩ := exists_chunks s.runIndex r
  have hexec := exec_encRunlen r eol s
  rw [State.encodeRunLength_eq hle hlt heol] at hexec
  rw [chunkSum_succ] at hlt
  exact ⟨n, r - chunkSum s.runIndex n, _, by omega, by omega, hexec, Writer.wrote_put hflag _⟩

/-- RUNINDEX after n increments (R197). -/
theorem indexInc_iterate_val (i : Fin 32) (n : Nat) : (indexInc^[n] i).val = min 31 (i.val + n) := by
  induction n with
  | zero => simp only [Function.iterate_zero, id]; omega
  | succ n ih => rw [Function.iterate_succ_apply', indexInc_val, ih]; omega

theorem chunkSum_strictMono (i : Fin 32) : StrictMono (chunkSum i) := strictMono_nat_of_lt_succ (chunkSum_lt_succ i)

/-- From index 31 on a chunk is 32768 samples (R7, R97). -/
theorem chunk_of_saturated {i : Fin 32} {n : Nat} (h : 31 ≤ i.val + n) : chunk (indexInc^[n] i) = 32768 := by
  have hlast : indexInc^[n] i = 31 := Fin.ext (by rw [indexInc_iterate_val]; exact Nat.min_eq_left h)
  rw [hlast]
  rfl

/-- The chunks up to the last index and one more of it hold a row of any WIDTH (R202). -/
theorem lt_chunkSum_saturated (i : Fin 32) : 65535 < chunkSum i (33 - i.val) := by
  have hi := i.isLt
  obtain ⟨n, hn⟩ : ∃ n, 33 - i.val = n + 1 + 1 := ⟨31 - i.val, by omega⟩
  rw [hn, chunkSum_succ, chunkSum_succ, chunk_of_saturated (by omega), chunk_of_saturated (by omega)]
  omega

/-- The bits of a run to the end of the row: a 1 for each chunk, the last one full or not (R196). -/
theorem runBits_row_end (i : Fin 32) (n rem : Nat) :
    runBits i n true rem = List.replicate (n + if rem = 0 then 0 else 1) true := by
  rw [runBits, runTail, if_pos rfl]
  split_ifs
  · rw [List.append_nil, Nat.add_zero]
  · rw [List.replicate_succ']

/-- Settles O38: one 1 for each chunk, and fewer full chunks than hold 65535 samples. -/
theorem rowLongRunIsShort : Obligations.RowLongRunIsShort := by
  intro s t r hr hr' hflag ht
  obtain ⟨n, hle, hlt⟩ := exists_chunks s.runIndex r
  rw [exec_encRunlen, State.encodeRunLength_eq hle hlt fun _ => hr] at ht
  cases ht
  refine ⟨n + if r - chunkSum s.runIndex n = 0 then 0 else 1, ?_, ?_⟩
  · rw [Writer.stream_put hflag, runBits_row_end]
  · have hfew : n < 33 - s.runIndex.val := (chunkSum_strictMono s.runIndex).lt_iff_lt.mp
      (hle.trans_lt (hr'.trans_lt (lt_chunkSum_saturated s.runIndex)))
    split_ifs <;> omega

end Sys2Proof.Machine
end

section
/-! PROOFS. `DEC.STEP` run by name: it completes, and leaves the context id it chose by (R211). -/

namespace Sys2Proof.Machine

theorem State.updateReg_q (s : State) (i : Fin Config.nctx) (e : Int) :
    (s.updateReg i e).Gives fun _ t => t.q = s.q := by
  unfold State.updateReg
  split
  · exact Res.gives_ok rfl
  · exact Res.gives_raised

theorem State.updateRi_q (s : State) (t : Fin Config.nri) (e em : Int) :
    (s.updateRi t e em).Gives fun _ u => u.q = s.q := by
  unfold State.updateRi
  dsimp only
  split_ifs
  · exact Res.gives_ok rfl
  · exact Res.gives_raised

/-- `DEC.REGULAR` leaves the context id (R213). -/
theorem State.decodeRegular_q (s : State) : s.decodeRegular.Gives fun _ t => t.q = s.q := by
  unfold State.decodeRegular
  split_ifs
  · refine (State.regK_gives _ _).bind ?_
    rintro k _ rfl
    refine (State.reads_gives _ _).bind ?_
    rintro m _ ⟨r, rfl⟩
    exact (State.updateReg_q _ _ _).bind fun _ u hu => Res.gives_ok hu
  · exact Res.gives_stop

/-- `DEC.RIPIXEL` leaves the context id (R215). -/
theorem State.decodeInterruption_q (s : State) : s.decodeInterruption.Gives fun _ t => t.q = s.q := by
  unfold State.decodeInterruption
  split_ifs
  · refine (State.runK_gives _ _).bind ?_
    rintro k _ rfl
    refine (State.reads_gives _ _).bind ?_
    rintro m _ ⟨r, rfl⟩
    exact (State.updateRi_q _ _ _ _).bind fun _ u hu => Res.gives_ok hu
  · exact Res.gives_stop

/-- `DEC.RUN` leaves the context id (R214). -/
theorem State.decodeRun_q {s : State} (hy : s.y < s.rows) (hx : s.x < s.w) :
    s.decodeRun.Gives fun _ t => t.q = s.q := by
  rcases s.decodeRunLength_cases (Nat.sub_pos_of_lt hx) with ⟨t, hlen, ht⟩ | ⟨t, hlen, -⟩
  · have hq : t.q = s.q := by rw [ht]
    rw [State.decodeRun_of_runLength hlen (by rw [ht]; exact hy), ← hq]
    split
    · exact Res.gives_ok rfl
    · exact t.putRun.decodeInterruption_q.bind fun _ u hu => Res.gives_ok hu
  · rw [State.decodeRun, hlen, Res.bind_raised]
    exact Res.gives_raised

/-- Settles O48: the choice is by the context id, and either mode completes and leaves it. -/
theorem decodeStepCompletes : Obligations.DecodeStepCompletes := by
  rintro s _ _ - hy hx hwf rfl rfl
  rw [exec_decStep, State.decodeStep_eq hx]
  refine ⟨fun k i rest hq hinv hbound hle hleast hd hm => ?_, fun n rest hq hlt hge hp => ?_⟩
  · obtain ⟨u, hdone, hstatus, hrest⟩ :=
      State.decodeRegular_completes (s := s.context) hy hx hwf hinv hbound hle hleast hd hm
    refine ⟨u, ?_, hstatus, State.decodeRegular_q _ _ _ hdone, hrest⟩
    rw [if_pos (by exact hq), hdone, Res.outcome_ok]
  · obtain ⟨u, hdone, hstatus, hrest⟩ :=
      State.decodeRun_completes (s := { s.context with mode := .run }) hy hx hwf hlt hge hp
    refine ⟨u, ?_, hstatus, (State.decodeRun_q (by exact hy) (by exact hx) _ _ hdone).trans hq, hrest⟩
    rw [if_neg (not_not.mpr (by exact hq)), hdone, Res.outcome_ok]

end Sys2Proof.Machine
end

section
/-! PROOFS. `SCAN.INIT` and the two commands (R190, R210, R251). -/

namespace Sys2Proof.Machine

theorem exec_scanInit (s : State) : exec .scanInit s = .next s.scanInit := rfl

theorem exec_scanEncode (width rows : Nat) (s : State) :
    exec (.scanEncode width rows) s = s.command .encode width rows s.size := rfl

theorem exec_scanDecode (width rows size : Nat) (s : State) :
    exec (.scanDecode width rows size) s = s.command .decode width rows size := rfl

/-- Settles O32: the fields are those `State.scanInit` writes, the entries the initial ones. -/
theorem scanInitRecreatesState : Obligations.ScanInitRecreatesState := by
  refine fun s => ⟨s.scanInit, exec_scanInit s, rfl, fun i => ?_, fun t => ?_, fun i => ⟨rfl, rfl⟩⟩
  · have hentry : s.scanInit.reg.get i = RegCtx.init := Vector.get_replicate ..
    rw [hentry]
    exact RegCtx.init_fields
  · have hentry : s.scanInit.ri.get t = RunCtx.init t := get_runCtxInit t
    rw [hentry]
    exact RunCtx.init_fields t

theorem widthOk_iff {width : Nat} : widthOk width = true ↔ 1 ≤ width ∧ width ≤ 65535 := by
  simp only [widthOk, Bool.and_eq_true, decide_eq_true_eq]

/-- A command that is taken latches its operands and starts the scan (R190, R210). -/
theorem State.command_taken {s : State} (hs : s.status ≠ .busy) (dir : Dir) {width : Nat} (hwidth : 1 ≤ width)
    (hwidth' : width ≤ 65535) (rows size : Nat) : s.command dir width rows size =
      .next (State.scanInit { s with dir := dir, width := BitVec.ofNat 16 width, rows := rows, size := size }) := by
  rw [State.command, if_neg hs, if_pos (widthOk_iff.mpr ⟨hwidth, hwidth'⟩)]

/-- A second command is refused (U12). -/
theorem State.command_busy {s : State} (hs : s.status = .busy) (dir : Dir) (width rows size : Nat) :
    s.command dir width rows size = .refused .commandWhileBusy := by
  rw [State.command, if_pos hs]

/-- A command with a WIDTH out of 1..65535 is refused (U11). -/
theorem State.command_illegalWidth {s : State} (hs : s.status ≠ .busy) (dir : Dir) {width : Nat}
    (hwidth : width = 0 ∨ 65535 < width) (rows size : Nat) :
    s.command dir width rows size = .refused .illegalWidth := by
  rw [State.command, if_neg hs, if_neg (by rw [widthOk_iff]; omega)]

/-- Settles O33: both commands are `State.command`, taken, refused while BUSY, or refused for its WIDTH. -/
theorem commandsLatchAndStart : Obligations.CommandsLatchAndStart := by
  intro s width rows size
  simp only [exec_scanEncode, exec_scanDecode]
  refine ⟨fun hs hwidth hwidth' => ?_, fun hs => ⟨State.command_busy hs _ _ _ _, State.command_busy hs _ _ _ _⟩,
    fun hs hwidth => ⟨State.command_illegalWidth hs _ hwidth _ _, State.command_illegalWidth hs _ hwidth _ _⟩⟩
  have hlatched : (BitVec.ofNat 16 width).toNat = width := by
    rw [BitVec.toNat_ofNat]
    exact Nat.mod_eq_of_lt (Nat.lt_succ_of_le hwidth')
  rw [State.command_taken hs _ hwidth hwidth', State.command_taken hs _ hwidth hwidth']
  exact ⟨rfl, rfl, ⟨_, rfl, rfl, rfl, hlatched, rfl, rfl⟩, _, rfl, rfl, rfl, hlatched, rfl, rfl, rfl⟩

end Sys2Proof.Machine
end

section
/-! PROOFS. Where the machine stops by name: a search without end, a sample that does not exist, a line-buffer index that
does not exist (notes/assumptions/11.md). -/

namespace Sys2Proof.Machine

/-! The search. -/

theorem RegCtx.getK_eq_none {c : RegCtx} (hn : c.n.toInt = 0) (ha : 0 < c.a.toInt) : c.getK = none :=
  leastShift_eq_none hn.le (by rwa [hn])

theorem RunCtx.getK_eq_none {c : RunCtx} (t : Fin Config.nri) (hn : c.n.toInt = 0) (ha : 0 < c.a.toInt) :
    c.getK t = none := by
  refine leastShift_eq_none hn.le ?_
  rw [hn]
  simpa [asr] using ha

theorem exec_rcGetk_of_none {s : State} {i : Fin Config.nctx} (h : (s.reg.get i).getK = none) :
    exec (.rcGetk i) s = .fault .searchStuck := by
  rw [exec_rcGetk, State.regK, h]
  rfl

theorem exec_riGetk_of_none {s : State} {t : Fin Config.nri} (h : (s.ri.get t).getK t = none) :
    exec (.riGetk t) s = .fault .searchStuck := by
  rw [exec_riGetk, State.runK, h]
  rfl

/-! The sample. -/

theorem State.isSample_ne_true {s : State} (h : ¬(s.y < s.rows ∧ s.x < s.w)) : ¬s.isSample s.y s.x = true := by
  simpa only [State.isSample, Bool.and_eq_true, decide_eq_true_eq] using h

theorem State.decodeInterruption_stop {s : State} (h : ¬(s.y < s.rows ∧ s.x < s.w)) :
    s.decodeInterruption = .stop .sampleIndex :=
  if_neg (State.isSample_ne_true h)

/-- The run length of `DEC.RUNLEN` ends the row exactly where it is all of it (R212). -/
theorem State.decodeRunLength_eol {s t : State} {rem0 : Nat} (h : 1 ≤ rem0) (ht : s.decodeRunLength rem0 = .ok () t) :
    t.eol = true ↔ t.r = rem0 := by
  have hmeets := decodeHits_meets (s := { s with idx := 0 }) h (Nat.lt_succ_self rem0)
  rw [← State.decodeRunLength, ht] at hmeets
  obtain ⟨-, -, heol⟩ := hmeets
  exact heol

/-- Below the last row `DEC.RUN` stops once its run length is read: at the first sample of the run, or, where that is
empty, at the interruption sample (R214, R215). -/
theorem State.decodeRun_stop {s t : State} (hy : s.rows ≤ s.y) (hx : s.x < s.w)
    (hlen : s.decodeRunLength (s.w - s.x) = .ok () t) : s.decodeRun = .stop .sampleIndex := by
  have hrem := Nat.sub_pos_of_lt hx
  have hrow : ¬t.y < t.rows := by
    rcases s.decodeRunLength_cases hrem with ⟨_, hlen', hsame⟩ | ⟨_, hlen', -⟩ <;> cases hlen.symm.trans hlen'
    rw [hsame]
    exact Nat.not_lt.mpr hy
  rw [State.decodeRun, hlen, Res.bind_ok]
  dsimp only
  by_cases hr : t.r = 0
  · have heol : ¬t.eol = true := fun h => hrem.ne' ((State.decodeRunLength_eol hrem hlen).mp h ▸ hr)
    rw [if_pos (.inl hr), State.fillOut_fillCur_eq, if_neg (by exact heol),
      State.decodeInterruption_stop (by exact fun ⟨h, _⟩ => hrow h), Res.bind_stop]
  · exact if_neg (not_or.mpr ⟨hr, hrow⟩)

/-! The line buffers. -/

theorem State.fetchNeighbours_stop {s : State} (h : s.w ≤ s.x) : s.fetchNeighbours = .stop .lineIndex :=
  if_neg (Nat.not_lt.mpr h)

theorem State.fetchContext_stop {s : State} (h : s.w ≤ s.x) : s.fetchContext = .stop .lineIndex := by
  rw [State.fetchContext, State.fetchNeighbours_stop h, Res.bind_stop]

/-- Settles O49: each operation stops at the first thing it looks for and does not find. -/
theorem stopsByName : Obligations.StopsByName := by
  intro s
  refine ⟨fun i hn ha => ⟨exec_rcGetk_of_none (RegCtx.getK_eq_none hn ha), fun k => by rwa [hn, zero_mul]⟩,
    fun t hn ha => exec_riGetk_of_none (RunCtx.getK_eq_none t hn ha), fun hpos => ?_, fun hy hx => ?_,
    fun t hs hy hx hlen ht => ?_, fun hx => ⟨?_, ?_, ?_⟩⟩
  · have hno := State.isSample_ne_true hpos
    rw [exec_encRegular, exec_encRipixel, exec_decRegular, exec_decRipixel, State.decodeInterruption_stop hpos,
      State.encodeRegular, State.encodeInterruption, State.decodeRegular, if_neg hno, if_neg hno, if_neg hno]
    exact ⟨rfl, rfl, rfl, rfl⟩
  · have hno : ¬(s.w - s.x = 0 ∨ s.y < s.rows) := by omega
    rw [exec_encRun, State.encodeRun]
    dsimp only
    rw [if_neg hno, Res.outcome_stop]
  · rw [exec_decRunlen] at hlen
    rcases s.decodeRunLength_cases (Nat.sub_pos_of_lt hx) with ⟨u, hread, -⟩ | ⟨u, hread, hfault⟩
    · rw [exec_decRun, State.decodeRun_stop hy hx hread, Res.outcome_stop]
    · rw [hread, Res.outcome_raised] at hlen
      cases hlen
      exact absurd hfault ht
  · show s.fetchNeighbours.outcome _ = _
    rw [State.fetchNeighbours_stop hx, Res.outcome_stop]
  · rw [exec_encStep, State.encodeStep, State.fetchContext_stop hx]
    rfl
  · rw [exec_decStep, State.decodeStep, State.fetchContext_stop hx]
    rfl

end Sys2Proof.Machine
end

section
/-! PROOFS. What a step performs (R190, R210, R239, R250). -/

namespace Sys2Proof.Machine

/-- A step with an operation issued performs it, or refuses its operand (R239). -/
theorem step_issued {s : State} {i : Instr} (hi : s.issued = some i) : step s =
    if i.wf then exec i { s with issued := none } else .refused (.operandRange i.mnemonic) := by
  rw [step, State.fetch, hi]

/-- Settles O51: the operation issued, else the driver's next, by its cases; a table word is issued as what it decodes
to. -/
theorem stepRunsIssuedOrDriver : Obligations.StepRunsIssuedOrDriver := by
  refine fun s => ⟨fun i hi hwf => ?_, fun i hi hwf => ?_, step_at_rest, fun hi hb => ⟨step_encStep hi hb,
    step_decStep hi hb, fun ho hx => step_rowEnd hi hb ho hx.not_gt, step_rowStart hi hb,
    fun ho hy => step_encEnd hi hb ho hy.not_gt, fun ho hy => step_decEnd hi hb ho hy.not_gt⟩, fun nbits w i hi hwf => ?_⟩
  · rw [step_issued hi, if_pos hwf]
  · rw [step_issued hi, hwf, if_neg Bool.false_ne_true]
  · have hplaced : s.withFetchWord nbits w = s.issue i := by
      rw [State.withFetchWord, hi]
    rw [hplaced, step_issued (s := s.issue i) rfl, if_pos hwf]
    rfl

end Sys2Proof.Machine
end
